-- ==== Sys2Proof/Word.lean ====
section
/-! DEFINITION. The widths of the block's data: bytes of BUF, 32-bit host words, the 128-bit Value (spec R5), base-62 digits (R6). -/

namespace Sys2Proof

/-- A byte of BUF, and one ASCII character (20_memory.md R50, R56). -/
abbrev Byte := BitVec 8

/-- A 32-bit host word: CMD, CMDL and STATUS (10_state.md R23 to R25). -/
abbrev Word := BitVec 32

/-- The 128-bit unsigned Value (00_scope.md R5). -/
abbrev Value := BitVec 128

/-- A base-62 digit: an index 0..61 of the alphabet (00_scope.md R6). -/
abbrev Digit := Fin 62

end Sys2Proof
end

