-- ==== Sys2Proof/Config.lean ====
section
/-! DEFINITION. What an implementation fixes (BUF_BYTES, BASE_ADDR), the fixed parameters of the spec, the reset values the model names, and the free value of a busy read. -/

namespace Sys2Proof.Config

/-- The radix (00_scope.md R6). -/
def radix : Nat := 62

/-- MAX_DIGITS: the most digits the encoder produces (00_scope.md R7). -/
def maxDigits : Nat := 22

/-- The largest Value, 2^128 - 1 (00_scope.md R5). -/
def valueMax : Nat := 2 ^ 128 - 1

/-- The least legal BUF_BYTES (00_scope.md R8). -/
def bufBytesMin : Nat := 23

/-- The greatest legal BUF_BYTES (00_scope.md R8). -/
def bufBytesMax : Nat := 255

/-- The spec's default of BUF_BYTES (00_scope.md R8), which `State.reset` has (log 5). -/
def bufBytesDefault : Nat := 32

/-- DESIGN CHOICE (log 1), unsafe: VAL's reset value is UNSPECIFIED (10_state.md R44); the model names 0.
A command that reads it before it is written faults, so the value never shows (10_state.md R44). -/
def valAtReset : Value := 0

/-- DESIGN CHOICE (log 2), unsafe: CMDL's reset value is UNSPECIFIED and never observable (10_state.md R24). -/
def cmdlAtReset : Word := 0

/-- DESIGN CHOICE (log 2), unsafe: the reset value of Q and of ACC, UNSPECIFIED and never observable
(10_state.md R37, R41). -/
def datapathAtReset : Value := 0

/-- DESIGN CHOICE (log 2), unsafe: the reset value of every DIG entry, UNSPECIFIED and never observable
(10_state.md R38). -/
def digitAtReset : Digit := 0

/-- FREE VALUE (log 9), safe: the byte that the n-th host read of a BUF byte while BUSY = 1 returns
(20_memory.md R61, 93 U3). It has no body, so no proof knows a value of it. -/
opaque freeByte : Nat → Byte

/-- FREE VALUE (log 11), safe: BASE_ADDR, where the platform places the register map (20_memory.md R52, 93 U12). -/
opaque baseAddr : Nat

/-- The system address at which a host reaches a 12-bit offset of the map (20_memory.md R52). -/
def systemAddr (offset : BitVec 12) : Nat := baseAddr + offset.toNat

end Sys2Proof.Config
end

