-- ==== Sys2Proof/Syntax.lean ====
section
/-! DEFINITION. The four commands, one constructor per row of spec/opcode_table.json, and the reasons a command word is illegal (30_encoding.md R82, R87). -/

namespace Sys2Proof

/-- The commands (00_scope.md R2, 30_encoding.md R82). `len` is the LEN operand (R83); its meaning per command is R85.
The registers VAL and BUF are implied by the command (R85). -/
inductive Instr where
  /-- ENC: VAL to base-62 text; `len` is the destination capacity in bytes (41_encoder.md R100). -/
  | enc (len : BitVec 8)
  /-- DEC: base-62 text to VAL; `len` is the input length in bytes (42_decoder.md R130). -/
  | dec (len : BitVec 8)
  /-- LDB: 16 big-endian bytes to VAL; `len` is the caller's buffer length (43_adapters.md R160). -/
  | ldb (len : BitVec 8)
  /-- STB: VAL to 16 big-endian bytes; LEN is 0 (43_adapters.md R162). -/
  | stb
  deriving DecidableEq, Repr

/-- Why a command word is illegal: the four conditions of 30_encoding.md R87, in its order. -/
inductive IllegalWord where
  /-- RSV_HI or RSV_LO is not 0 (R87 condition 1). -/
  | reservedBits
  /-- OP is none of 1, 2, 3, 4 (R87 condition 2). -/
  | undefinedOpcode
  /-- ENC or DEC with LEN > BUF_BYTES (R87 condition 3). -/
  | lenOverCapacity
  /-- STB with LEN not 0 (R87 condition 4). -/
  | stbLength
  deriving DecidableEq, Repr

end Sys2Proof
end

