-- ==== Sys2Proof/WellFormed.lean ====
section
/-! DEFINITION. Which commands are legal on a block with a given BUF_BYTES: the legality column of spec/opcode_table.json (30_encoding.md R85, R87 condition 3). -/

namespace Sys2Proof

/-- A command is legal on a block of `bufBytes` bytes: ENC and DEC need LEN ≤ BUF_BYTES; every LDB is legal
(LEN ≠ 16 has its own error, R161), and so is STB (30_encoding.md R85, R87). -/
def Instr.wellFormed (bufBytes : Nat) : Instr → Bool
  | .enc len => decide (len.toNat ≤ bufBytes)
  | .dec len => decide (len.toNat ≤ bufBytes)
  | .ldb _ => true
  | .stb => true

end Sys2Proof
end

