-- ==== Sys2Proof/Decode.lean ====
section
/-! DEFINITION. The command word's fields (30_encoding.md R81), the total decoder (R82, R86, R87) and the encoder (R81, R92). -/

namespace Sys2Proof

/-- OP = bits 3:0 (30_encoding.md R81, R82). -/
def opField (w : Word) : BitVec 4 := w.extractLsb' 0 4

/-- RSV_LO = bits 7:4 (30_encoding.md R81, R84). -/
def rsvLoField (w : Word) : BitVec 4 := w.extractLsb' 4 4

/-- LEN = bits 15:8 (30_encoding.md R81, R83). -/
def lenField (w : Word) : BitVec 8 := w.extractLsb' 8 8

/-- RSV_HI = bits 31:16 (30_encoding.md R81, R84). -/
def rsvHiField (w : Word) : BitVec 16 := w.extractLsb' 16 16

/-- The decoder: every 32-bit word is one of the four commands or illegal, for a named reason (30_encoding.md R86),
in R87's order. The one condition that needs BUF_BYTES (R87 condition 3) is `classify`'s. -/
def decode (w : Word) : Except IllegalWord Instr :=
  if rsvHiField w ≠ 0 ∨ rsvLoField w ≠ 0 then .error .reservedBits
  else match (opField w).toNat with
    | 1 => .ok (.enc (lenField w))
    | 2 => .ok (.dec (lenField w))
    | 3 => .ok (.ldb (lenField w))
    | 4 => if lenField w = 0 then .ok .stb else .error .stbLength
    | _ => .error .undefinedOpcode

/-- The whole classification of a word on a block of `bufBytes` bytes: it depends on the word and BUF_BYTES only
(30_encoding.md R86, R87). -/
def classify (bufBytes : Nat) (w : Word) : Except IllegalWord Instr :=
  match decode w with
  | .error e => .error e
  | .ok i => if i.wellFormed bufBytes then .ok i else .error .lenOverCapacity

/-- The OP number of a command (30_encoding.md R82). -/
def Instr.opcode : Instr → BitVec 4
  | .enc _ => 1
  | .dec _ => 2
  | .ldb _ => 3
  | .stb => 4

/-- The LEN operand of a command (30_encoding.md R83, R85). -/
def Instr.length : Instr → BitVec 8
  | .enc len => len
  | .dec len => len
  | .ldb len => len
  | .stb => 0

/-- The encoder: RSV_HI, LEN, RSV_LO and OP from bit 31 down (30_encoding.md R81). -/
def encode (i : Instr) : Word := (0#16 ++ i.length) ++ (0#4 ++ i.opcode)

/-- The instruction that the decoder reads from a word numbered as spec/opcode_table.json numbers it. A command is one
32-bit word (30_encoding.md R80), so a number that does not fit in 32 bits is no command. -/
def decodeTableWord (nbits w : Nat) : Option Instr :=
  if w % 2 ^ nbits < 2 ^ 32 then
    match decode (BitVec.ofNat 32 (w % 2 ^ nbits)) with
    | .ok i => some i
    | .error _ => none
  else none

end Sys2Proof
end

