-- ==== Sys2Proof/Machine/State.lean ====
section
/-! DEFINITION. The machine's state (10_state.md), the reasons a step can stop, and the state after reset (70_reset_and_hazards.md R210). -/

namespace Sys2Proof.Machine

/-- The engine's sequencing state (10_state.md R22). -/
inductive Phase where
  | idle | dispatch | encDiv | encWrite | decAcc
  deriving DecidableEq, Repr

/-- The error codes of 60_exceptions.md R181. -/
inductive ErrCode where
  | none | invalidInput | encodeCapacity | decodeInvalidChar | decodeOverflow | decodeEmpty | illegalCmd
  deriving DecidableEq, Repr

/-- The width of a host access. 20_memory.md R54 names 32-bit words and 8-bit bytes and speaks of "any other width", with
no list of the other widths and no host bus width. DESIGN CHOICE (log 22): 16 bits has a name of its own, and every
further width, wider than 32 bits or not, is `other`. Both are refused at every offset. Safe. -/
inductive AccessWidth where
  | byte | half | word | other
  deriving DecidableEq, Repr

/-- What the outside does to the block: host transactions at an offset of the register map (20_memory.md R52 to R64),
the host's polling loop (30_encoding.md R93), and the reset event (70_reset_and_hazards.md R210). -/
inductive HostOp where
  /-- A write of `data` (a byte write uses its low 8 bits). -/
  | write (width : AccessWidth) (offset : BitVec 12) (data : Word)
  /-- A read. -/
  | read (width : AccessWidth) (offset : BitVec 12)
  /-- WAIT: read STATUS until it shows BUSY = 0 (30_encoding.md R93). -/
  | wait
  /-- Reset is asserted (70_reset_and_hazards.md R210). DESIGN CHOICE (log 24): the spec says "at any time" and names no
  agent; here reset is an item of the host's list, taken on a host turn. -/
  | reset
  deriving DecidableEq, Repr

/-- Whose turn is next in the free interleaving of host and engine (20_memory.md R65, 30_encoding.md R89; log 6, log 7). -/
inductive Turn where
  /-- The host's next transaction. -/
  | host
  /-- One engine step: one row of the PHASE transitions. -/
  | engine
  /-- The engine runs the whole accepted command as one step (30_encoding.md R89, 70_reset_and_hazards.md R220). -/
  | command
  deriving DecidableEq, Repr

/-- BUF's contents: (index, byte) pairs, indices strictly rising. A byte never written since reset is not listed
(10_state.md R43, R44; log 4). -/
abbrev Memory := List Host.Cell

/-- The machine's state: what 10_state.md §6 lists, the ghost bits of R44, the parameter BUF_BYTES, and the model's own
fields for the host's side and the interleaving. -/
structure State where
  /-- BUF_BYTES (00_scope.md R8): fixed for a machine, no step changes it (log 5). -/
  bufBytes : Nat
  /-- VAL (10_state.md R21). -/
  val : Value
  /-- PHASE (10_state.md R22). -/
  phase : Phase
  /-- CMDL (10_state.md R24). -/
  cmdl : Word
  /-- STATUS.DONE (10_state.md R27). -/
  done : Bool
  /-- STATUS.OVR (10_state.md R28). -/
  ovr : Bool
  /-- STATUS.ERR (10_state.md R29). -/
  err : BitVec 4
  /-- STATUS.RLEN (10_state.md R30). -/
  rlen : BitVec 8
  /-- STATUS.EPOS (10_state.md R31). -/
  epos : BitVec 8
  /-- STATUS.EBYTE (10_state.md R32). -/
  ebyte : BitVec 8
  /-- Q (10_state.md R37). -/
  q : Value
  /-- DIG[0..21] (10_state.md R38). -/
  dig : Vector Digit 22
  /-- CNT (10_state.md R39). -/
  cnt : BitVec 5
  /-- J (10_state.md R40). -/
  j : BitVec 5
  /-- ACC (10_state.md R41). -/
  acc : Value
  /-- IDX (10_state.md R42). -/
  idx : BitVec 8
  /-- BUF and its written bits: a byte is written exactly when it is listed (10_state.md R43, R44). -/
  buf : Memory
  /-- VAL's ghost written bit (10_state.md R44). -/
  valWritten : Bool
  /-- The model's own: the turns to come, first one next (log 7). -/
  turns : List Turn
  /-- The model's own: the host's transactions to come, in program order (20_memory.md R65; log 8). -/
  hostOps : List HostOp
  /-- The model's own: the words the host's reads returned, newest first (log 8). -/
  replies : List Word
  /-- The model's own: how many free bytes have been drawn (20_memory.md R61; log 9). -/
  freeDraws : Nat
  deriving DecidableEq, Repr

/-- The reasons a step stops with a fault. -/
inductive Fault where
  /-- UnwrittenRead of VAL (10_state.md R44, 93 U1; log 3). Raised by ENC and STB. Safe: the hardware goes on with a value
  the spec does not constrain. -/
  | unwrittenVal
  /-- UnwrittenRead of BUF[index] (10_state.md R44, 93 U2). Raised by DEC, LDB and a host read while idle. Safe: the
  hardware goes on with a value the spec does not constrain. -/
  | unwrittenRead (index : Nat)
  /-- The engine's counters stand where no run from reset takes them: ENC_DIV with CNT ≥ 22, ENC_WRITE with J ≥ CNT,
  CNT > 22 or J ≥ BUF_BYTES, DEC_ACC with IDX ≥ LEN or LEN > BUF_BYTES (10_state.md R39, R40, R42). Raised by the engine
  steps. Safe (log 12). -/
  | datapathRange
  deriving DecidableEq, Repr

/-- The reasons a step is refused. -/
inductive Refusal where
  /-- An instruction without a meaning in this model, by its mnemonic. No arm raises it. Safe. -/
  | notModelled (mnemonic : String)
  /-- HostAccessWidth: a host access of a width or alignment outside 20_memory.md R54 (93 U6). Raised by host reads and
  writes. Safe. -/
  | hostAccessWidth
  deriving DecidableEq, Repr

/-- The state right after reset of a block with a given BUF_BYTES (70_reset_and_hazards.md R210): PHASE = IDLE, STATUS = 0,
every written bit clear; the UNSPECIFIED registers at the values the model names (log 1, log 2). -/
def State.resetOf (bufBytes : Nat) : State where
  bufBytes := bufBytes
  val := Config.valAtReset
  phase := .idle
  cmdl := Config.cmdlAtReset
  done := false
  ovr := false
  err := 0
  rlen := 0
  epos := 0
  ebyte := 0
  q := Config.datapathAtReset
  dig := Vector.replicate 22 Config.digitAtReset
  cnt := 0
  j := 0
  acc := Config.datapathAtReset
  idx := 0
  buf := []
  valWritten := false
  turns := []
  hostOps := []
  replies := []
  freeDraws := 0

/-- The machine right after reset, with the spec's default BUF_BYTES (00_scope.md R8, 70_reset_and_hazards.md R210). -/
def State.reset : State := State.resetOf Config.bufBytesDefault

end Sys2Proof.Machine
end

