-- ==== Sys2Proof/Machine/Alphabet.lean ====
section
/-! DEFINITION. The constant tables ALPHA and REV (10_state.md R35, R36). -/

namespace Sys2Proof.Machine

/-- ALPHA[d]: '0'..'9', 'A'..'Z', 'a'..'z' (10_state.md R35; the order at 33 indices is the spec's G1, log 14). -/
def alpha (d : Digit) : Byte :=
  if d.val < 10 then BitVec.ofNat 8 (0x30 + d.val)
  else if d.val < 36 then BitVec.ofNat 8 (0x41 + (d.val - 10))
  else BitVec.ofNat 8 (0x61 + (d.val - 36))

/-- REV[b]: the digit of byte b, or INV as `none` (10_state.md R36). -/
def rev (b : Byte) : Option Digit :=
  if 0x30 ≤ b.toNat ∧ b.toNat ≤ 0x39 then some (Fin.ofNat 62 (b.toNat - 0x30))
  else if 0x41 ≤ b.toNat ∧ b.toNat ≤ 0x5A then some (Fin.ofNat 62 (b.toNat - 0x41 + 10))
  else if 0x61 ≤ b.toNat ∧ b.toNat ≤ 0x7A then some (Fin.ofNat 62 (b.toNat - 0x61 + 36))
  else none

end Sys2Proof.Machine
end

