-- ==== Sys2Proof/Machine/Flags.lean ====
section
/-! DEFINITION. The STATUS word and its parts: the error code numbers (60_exceptions.md R181), BUSY (10_state.md R26) and the layout (R25). -/

namespace Sys2Proof.Machine

/-- The 4-bit number of an error code (60_exceptions.md R181). -/
def errNumber : ErrCode → BitVec 4
  | .none => 0
  | .invalidInput => 1
  | .encodeCapacity => 2
  | .decodeInvalidChar => 3
  | .decodeOverflow => 4
  | .decodeEmpty => 5
  | .illegalCmd => 6

/-- BUSY = (PHASE ≠ IDLE) (10_state.md R26). -/
def busy (s : State) : Bool := decide (s.phase ≠ .idle)

/-- STATUS = EBYTE, EPOS, RLEN, ERR, 0, OVR, DONE, BUSY from bit 31 down (10_state.md R25, R33). -/
def statusWord (s : State) : Word :=
  ((s.ebyte ++ s.epos) ++ s.rlen) ++ (s.err ++ (((0#1 ++ BitVec.ofBool s.ovr) ++ BitVec.ofBool s.done) ++ BitVec.ofBool (busy s)))

end Sys2Proof.Machine
end

