-- ==== Sys2Proof/Machine/Ops.lean ====
section
/-! DEFINITION. The named operations: reading and writing BUF and VAL with their written bits (10_state.md R44), a command's acceptance (20_memory.md R62), its completion and its error (30_encoding.md R90, 60_exceptions.md R180), overrun (20_memory.md R60) and reset (70_reset_and_hazards.md R210). -/

namespace Sys2Proof.Machine

/-- BUF[i], or `none` where it was never written since reset (10_state.md R43, R44). -/
def bufRead : Memory → Nat → Option Byte
  | [], _ => none
  | (a, b) :: m, i => if a = i then some b else bufRead m i

/-- BUF[i] <- b, keeping the indices strictly rising; it sets the byte's written bit (10_state.md R44). -/
def bufWrite : Memory → Nat → Byte → Memory
  | [], i, b => [(i, b)]
  | (a, c) :: m, i, b =>
    if i < a then (i, b) :: (a, c) :: m
    else if i = a then (i, b) :: m
    else (a, c) :: bufWrite m i b

/-- Every listed index is at least `lo`, and they rise strictly. -/
def memRising : Nat → Memory → Bool
  | _, [] => true
  | lo, (a, _) :: m => decide (lo ≤ a) && memRising (a + 1) m

/-- The canonical form of BUF's contents: strictly rising indices below BUF_BYTES (20_memory.md R50). An unlisted byte has
no value, so no entry can equal what an unlisted index reads as. -/
def Memory.wf (bufBytes : Nat) (m : Memory) : Bool :=
  memRising 0 m && m.all (fun c => decide (c.1 < bufBytes))

/-- VAL as a command reads it, or `none` where it was never written since reset (10_state.md R44). -/
def valRead (s : State) : Option Value := if s.valWritten then some s.val else none

/-- VAL <- v; it sets VAL's written bit (10_state.md R21, R44). -/
def writeVal (v : Value) (s : State) : State :=
  { s with val := v, valWritten := true }

/-- `finish(err, rlen, epos, ebyte)`, the completion action (30_encoding.md R90). It is also how an error is taken: no trap,
no saved state, the engine is idle again (60_exceptions.md R180). -/
def finish (e : ErrCode) (rlen epos ebyte : BitVec 8) (s : State) : State :=
  { s with err := errNumber e, rlen := rlen, epos := epos, ebyte := ebyte, done := true, phase := .idle }

/-- `raise E(epos, ebyte)`: `finish` with RLEN = 0 (00_scope.md §4, 60_exceptions.md R180, R186). -/
def raiseErr (e : ErrCode) (epos ebyte : BitVec 8) (s : State) : State :=
  finish e 0 epos ebyte s

/-- Acceptance of command word w (20_memory.md R62). There is no return from an error: the next acceptance clears it
(60_exceptions.md R180, R188). -/
def accept (w : Word) (s : State) : State :=
  { s with cmdl := w, phase := .dispatch, done := false, ovr := false, err := errNumber .none, rlen := 0, epos := 0, ebyte := 0 }

/-- Overrun: a host write to CMD or BUF while BUSY = 1 is dropped and sets OVR (20_memory.md R60). -/
def overrun (s : State) : State :=
  { s with ovr := true }

/-- The reset event on a running block (70_reset_and_hazards.md R210, R211): every element of the block takes its reset
value; BUF_BYTES and the host's side stay (log 15). -/
def resetBlock (s : State) : State :=
  { State.resetOf s.bufBytes with
    turns := s.turns, hostOps := s.hostOps, replies := s.replies, freeDraws := s.freeDraws }

end Sys2Proof.Machine
end

