-- ==== Sys2Proof/Machine/Operands.lean ====
section
/-! DEFINITION. The commands' operands: 16-byte big-endian access to BUF (20_memory.md R55), the digit sequence of a value (41_encoder.md R101) and its text in BUF (R103, 20_memory.md R56). -/

namespace Sys2Proof.Machine

/-- MemRead(i, n) = {BUF[i], ..., BUF[i+n-1]}, most significant first, onto the bytes `acc` read so far; or the first index
never written (00_scope.md §4, 20_memory.md R55, 10_state.md R44). -/
def memRead (m : Memory) (i : Nat) : Nat → Nat → Except Nat Nat
  | 0, acc => .ok acc
  | n + 1, acc =>
    match bufRead m i with
    | none => .error i
    | some b => memRead m (i + 1) n (acc * 256 + b.toNat)

/-- MemWrite(i, n, v): BUF[i+k] <- v[8(n-1-k)+7 : 8(n-1-k)], k = 0..n-1 (00_scope.md §4, 20_memory.md R55). -/
def memWrite (m : Memory) (i : Nat) : Nat → Value → Memory
  | 0, _ => m
  | n + 1, v => memWrite (bufWrite m i (v.extractLsb' (8 * n) 8)) (i + 1) n v

/-- The digit v mod 62 (41_encoder.md R101). -/
def lowDigit (v : Nat) : Digit := Fin.ofNat 62 v

/-- The divmod loop: the digits of v, least significant first, at most `fuel` of them; the first step always runs
(41_encoder.md R101, R106). -/
def digitsLow : Nat → Nat → List Digit
  | 0, _ => []
  | fuel + 1, v => lowDigit v :: (if v / 62 = 0 then [] else digitsLow fuel (v / 62))

/-- digits(v), most significant first (41_encoder.md R101); 22 rounds are enough for every 128-bit v (00_scope.md R7). -/
def digits (v : Nat) : List Digit := (digitsLow Config.maxDigits v).reverse

/-- The digits ds into DIG[i], DIG[i+1], ... (10_state.md R38). -/
def storeDigits : Nat → List Digit → Vector Digit 22 → Vector Digit 22
  | _, [], dig => dig
  | i, d :: ds, dig => storeDigits (i + 1) ds (dig.setIfInBounds i d)

/-- The characters of the digits ds into BUF[i], BUF[i+1], ... (41_encoder.md R103, 20_memory.md R56). -/
def writeText : Nat → List Digit → Memory → Memory
  | _, [], m => m
  | i, d :: ds, m => writeText (i + 1) ds (bufWrite m i (alpha d))

end Sys2Proof.Machine
end

