-- ==== Sys2Proof/Machine/Adapters.lean ====
section
/-! DEFINITION. LDB and STB: the 16-byte big-endian adapters (43_adapters.md R160 to R164). -/

namespace Sys2Proof.Machine

/-- LDB (43_adapters.md R160, R161): one step, no phase of its own (R164). -/
def execLdb (len : BitVec 8) (s : State) : Host.Outcome State Fault Refusal :=
  if len ≠ 16 then .next (raiseErr .invalidInput 0 0 s)
  else match memRead s.buf 0 16 0 with
    | .error i => .fault (.unwrittenRead i)
    | .ok v => .next (finish .none 0 0 0 (writeVal (BitVec.ofNat 128 v) s))

/-- STB (43_adapters.md R162; UnwrittenRead by 10_state.md R44): one step, no phase of its own (R164). -/
def execStb (s : State) : Host.Outcome State Fault Refusal :=
  match valRead s with
  | none => .fault .unwrittenVal
  | some v => .next (finish .none 16 0 0 { s with buf := memWrite s.buf 0 16 v })

end Sys2Proof.Machine
end

