-- ==== Sys2Proof/Machine/Decoder.lean ====
section
/-! DEFINITION. DEC: the whole command (42_decoder.md R130) and its engine phase (R139). -/

namespace Sys2Proof.Machine

/-- How the decoder's loop ends; `acc` is the accumulator at the end and `i` the index reached. -/
inductive DecResult where
  | decoded (acc : Nat)
  | invalidChar (i : Nat) (b : Byte) (acc : Nat)
  | overflow (i : Nat) (b : Byte) (acc : Nat)
  | unwritten (i : Nat)
  deriving DecidableEq, Repr

/-- The Horner loop over the `n` bytes from BUF[i] on: the lookup before the overflow test at each index, the first failure
ends it (42_decoder.md R130 to R134). -/
def decLoop (m : Memory) : Nat → Nat → Nat → DecResult
  | 0, _, acc => .decoded acc
  | n + 1, i, acc =>
    match bufRead m i with
    | none => .unwritten i
    | some b =>
      match rev b with
      | none => .invalidChar i b acc
      | some d =>
        if acc * 62 + d.val > Config.valueMax then .overflow i b acc
        else decLoop m n (i + 1) (acc * 62 + d.val)

/-- What the loop leaves in the datapath: ACC and IDX (42_decoder.md R139; log 16). -/
def leaveHorner (acc i : Nat) (s : State) : State :=
  { s with acc := BitVec.ofNat 128 acc, idx := BitVec.ofNat 8 i }

/-- How DEC completes for each end of its loop: VAL on success, EPOS and EBYTE on a failure (42_decoder.md R130, R132, R133,
R138, R140), the fault of an unwritten byte (10_state.md R44). -/
def endDec (len : BitVec 8) (r : DecResult) (s : State) : Host.Outcome State Fault Refusal :=
  match r with
  | .decoded acc => .next (finish .none 0 0 0 (writeVal (BitVec.ofNat 128 acc) (leaveHorner acc len.toNat s)))
  | .invalidChar i b acc => .next (raiseErr .decodeInvalidChar (BitVec.ofNat 8 i) b (leaveHorner acc i s))
  | .overflow i b acc => .next (raiseErr .decodeOverflow (BitVec.ofNat 8 i) b (leaveHorner acc i s))
  | .unwritten i => .fault (.unwrittenRead i)

/-- DEC as one operation (42_decoder.md R130, R135; ILLEGAL_CMD by 30_encoding.md R87 and R88). -/
def execDec (len : BitVec 8) (s : State) : Host.Outcome State Fault Refusal :=
  if len.toNat > s.bufBytes then .next (raiseErr .illegalCmd 0 0 s)
  else if len = 0 then .next (raiseErr .decodeEmpty 0 0 s)
  else endDec len (decLoop s.buf len.toNat 0 0) s

/-- DEC's dispatch (30_encoding.md R88). -/
def dispatchDec (len : BitVec 8) (s : State) : Host.Outcome State Fault Refusal :=
  if len.toNat > s.bufBytes then .next (raiseErr .illegalCmd 0 0 s)
  else if len = 0 then .next (raiseErr .decodeEmpty 0 0 s)
  else .next { s with acc := 0, idx := 0, phase := .decAcc }

/-- One DEC_ACC step (42_decoder.md R139). -/
def decAccStep (s : State) : Host.Outcome State Fault Refusal :=
  if s.idx.toNat < (lenField s.cmdl).toNat ∧ (lenField s.cmdl).toNat ≤ s.bufBytes then
    match bufRead s.buf s.idx.toNat with
    | none => .fault (.unwrittenRead s.idx.toNat)
    | some b =>
      match rev b with
      | none => .next (raiseErr .decodeInvalidChar s.idx b s)
      | some d =>
        if s.acc.toNat * 62 + d.val > Config.valueMax then .next (raiseErr .decodeOverflow s.idx b s)
        else
          let s1 := { s with acc := BitVec.ofNat 128 (s.acc.toNat * 62 + d.val), idx := s.idx + 1 }
          if s1.idx = lenField s.cmdl then .next (finish .none 0 0 0 (writeVal s1.acc s1))
          else .next s1
  else .fault .datapathRange

end Sys2Proof.Machine
end

