-- ==== Sys2Proof/Machine/Encoder.lean ====
section
/-! DEFINITION. ENC: the whole command (41_encoder.md R100) and its two engine phases (R106, R107). -/

namespace Sys2Proof.Machine

/-- What the divmod loop leaves in the datapath for the digits `low`, least significant first: DIG[0..k-1], CNT = k, Q = 0
(41_encoder.md R106; log 16). -/
def leaveDivmod (low : List Digit) (s : State) : State :=
  { s with q := 0, dig := storeDigits 0 low s.dig, cnt := BitVec.ofNat 5 low.length }

/-- The write-out of the digits `ds`, most significant first: BUF[0..k-1], J = k (41_encoder.md R103, R107). -/
def leaveText (ds : List Digit) (s : State) : State :=
  { s with buf := writeText 0 ds s.buf, j := BitVec.ofNat 5 ds.length }

/-- ENC as one operation (41_encoder.md R100, R102 to R105; ILLEGAL_CMD by 30_encoding.md R87 and R88; UnwrittenRead by
10_state.md R44). -/
def execEnc (len : BitVec 8) (s : State) : Host.Outcome State Fault Refusal :=
  if len.toNat > s.bufBytes then .next (raiseErr .illegalCmd 0 0 s)
  else match valRead s with
    | none => .fault .unwrittenVal
    | some v =>
      let ds := digits v.toNat
      let s1 := leaveDivmod ds.reverse s
      if ds.length > len.toNat then .next (raiseErr .encodeCapacity 0 0 s1)
      else .next (finish .none (BitVec.ofNat 8 ds.length) 0 0 (leaveText ds s1))

/-- ENC's dispatch, which reads VAL into Q (30_encoding.md R88, 10_state.md R44). -/
def dispatchEnc (len : BitVec 8) (s : State) : Host.Outcome State Fault Refusal :=
  if len.toNat > s.bufBytes then .next (raiseErr .illegalCmd 0 0 s)
  else match valRead s with
    | none => .fault .unwrittenVal
    | some v => .next { s with q := v, cnt := 0, phase := .encDiv }

/-- One ENC_DIV step (41_encoder.md R106). -/
def encDivStep (s : State) : Host.Outcome State Fault Refusal :=
  if s.cnt.toNat < 22 then
    let s1 := { s with dig := s.dig.setIfInBounds s.cnt.toNat (lowDigit s.q.toNat), q := s.q / 62#128, cnt := s.cnt + 1 }
    if s1.q = 0 then
      if s1.cnt.toNat > (lenField s.cmdl).toNat then .next (raiseErr .encodeCapacity 0 0 s1)
      else .next { s1 with j := 0, phase := .encWrite }
    else .next s1
  else .fault .datapathRange

/-- One ENC_WRITE step (41_encoder.md R107). -/
def encWriteStep (s : State) : Host.Outcome State Fault Refusal :=
  if h : s.j.toNat < s.cnt.toNat ∧ s.cnt.toNat ≤ 22 ∧ s.j.toNat < s.bufBytes then
    let s1 := { s with buf := bufWrite s.buf s.j.toNat (alpha (s.dig[s.cnt.toNat - 1 - s.j.toNat]'(by omega))), j := s.j + 1 }
    if s1.j = s1.cnt then .next (finish .none (BitVec.ofNat 8 s.cnt.toNat) 0 0 s1)
    else .next s1
  else .fault .datapathRange

end Sys2Proof.Machine
end

