-- ==== Sys2Proof/Machine/Dispatch.lean ====
section
/-! DEFINITION. The meaning of each command as one operation (30_encoding.md R82, R89). -/

namespace Sys2Proof.Machine

/-- One arm per row of spec/opcode_table.json. -/
def exec (i : Instr) (s : State) : Host.Outcome State Fault Refusal :=
  match i with
  | .enc len => Sys2Proof.Machine.execEnc len s
  | .dec len => Sys2Proof.Machine.execDec len s
  | .ldb len => Sys2Proof.Machine.execLdb len s
  | .stb => Sys2Proof.Machine.execStb s

end Sys2Proof.Machine
end

