-- ==== Sys2Proof/Machine/Engine.lean ====
section
/-! DEFINITION. The engine: its single steps, phase by phase (30_encoding.md R88, R89), and a whole command as one step (R89). -/

namespace Sys2Proof.Machine

/-- The dispatch of a decoded command (30_encoding.md R88); LDB and STB complete in it (43_adapters.md R164). -/
def dispatchInstr (i : Instr) (s : State) : Host.Outcome State Fault Refusal :=
  match i with
  | .enc len => dispatchEnc len s
  | .dec len => dispatchDec len s
  | .ldb len => execLdb len s
  | .stb => execStb s

/-- The engine's step in PHASE = DISPATCH: an illegal word completes with ILLEGAL_CMD (30_encoding.md R87, R88). -/
def dispatchStep (s : State) : Host.Outcome State Fault Refusal :=
  match decode s.cmdl with
  | .error _ => .next (raiseErr .illegalCmd 0 0 s)
  | .ok i => dispatchInstr i s

/-- One engine step (30_encoding.md R89). While IDLE the engine changes nothing (20_memory.md R66). -/
def engineStep (s : State) : Host.Outcome State Fault Refusal :=
  match s.phase with
  | .idle => .next s
  | .dispatch => dispatchStep s
  | .encDiv => encDivStep s
  | .encWrite => encWriteStep s
  | .decAcc => decAccStep s

/-- `n` engine steps in a row, stopping at the first fault. -/
def engineRun : Nat → State → Host.Outcome State Fault Refusal
  | 0, s => .next s
  | n + 1, s =>
    match engineStep s with
    | .next t => engineRun n t
    | .fault r => .fault r
    | .refused r => .refused r

/-- The whole latched command as one step (30_encoding.md R89): `exec` of what CMDL decodes to, ILLEGAL_CMD for an illegal
word (R87). -/
def commandStep (s : State) : Host.Outcome State Fault Refusal :=
  match decode s.cmdl with
  | .error _ => .next (raiseErr .illegalCmd 0 0 s)
  | .ok i => exec i s

end Sys2Proof.Machine
end

