-- ==== Sys2Proof/Machine/HostPort.lean ====
section
/-! DEFINITION. The host's transactions (20_memory.md R51 to R64) and the host program syntax (30_encoding.md R92, R93). -/

namespace Sys2Proof.Machine

/-- What an offset of the register map names (20_memory.md R52, R53). -/
inductive Target where
  | cmd
  | status
  | buf (index : Nat)
  | unmapped
  deriving DecidableEq, Repr

/-- The register an access reaches, or `none` for a width or alignment outside 20_memory.md R54 (log 10). -/
def hostTarget (bufBytes : Nat) (width : AccessWidth) (offset : BitVec 12) : Option Target :=
  if offset.toNat < 0x008 then
    if width = .word ∧ offset.toNat = 0x000 then some .cmd
    else if width = .word ∧ offset.toNat = 0x004 then some .status
    else none
  else if 0x100 ≤ offset.toNat ∧ offset.toNat < 0x100 + bufBytes then
    if width = .byte then some (.buf (offset.toNat - 0x100)) else none
  else
    if width = .byte ∨ (width = .word ∧ offset.toNat % 4 = 0) then some .unmapped else none

/-- A host read returned w. -/
def reply (w : Word) (s : State) : State :=
  { s with replies := w :: s.replies }

/-- A host read of a BUF byte while BUSY = 1 returned a free byte (20_memory.md R61; log 9). -/
def replyFree (s : State) : State :=
  { s with replies := (Config.freeByte s.freeDraws).setWidth 32 :: s.replies, freeDraws := s.freeDraws + 1 }

/-- A host write (20_memory.md R58, R60, R62, R64, R53). -/
def hostWrite (width : AccessWidth) (offset : BitVec 12) (data : Word) (s : State) : Host.Outcome State Fault Refusal :=
  match hostTarget s.bufBytes width offset with
  | none => .refused .hostAccessWidth
  | some .cmd => if busy s then .next (overrun s) else .next (accept data s)
  | some .status => .next s
  | some (.buf i) => if busy s then .next (overrun s) else .next { s with buf := bufWrite s.buf i (data.setWidth 8) }
  | some .unmapped => .next s

/-- A host read (20_memory.md R59, R61, R63, R64, R53). -/
def hostRead (width : AccessWidth) (offset : BitVec 12) (s : State) : Host.Outcome State Fault Refusal :=
  match hostTarget s.bufBytes width offset with
  | none => .refused .hostAccessWidth
  | some .cmd => .next (reply 0 s)
  | some .status => .next (reply (statusWord s) s)
  | some (.buf i) =>
    if busy s then .next (replyFree s)
    else match bufRead s.buf i with
      | none => .fault (.unwrittenRead i)
      | some b => .next (reply (b.setWidth 32) s)
  | some .unmapped => .next (reply 0 s)

/-- One step of the outside. WAIT stays the host's next operation while STATUS shows BUSY = 1 (30_encoding.md R93). -/
def hostStep (op : HostOp) (s : State) : Host.Outcome State Fault Refusal :=
  match op with
  | .write width offset data => hostWrite width offset data s
  | .read width offset => hostRead width offset s
  | .wait =>
    if busy s then .next { s with hostOps := .wait :: s.hostOps }
    else .next (reply (statusWord s) s)
  | .reset => .next (resetBlock s)

/-- `CMD w`: write CMD with a raw word (30_encoding.md R92). -/
def opCmd (w : Word) : HostOp := .write .word 0x000 w

/-- `ENC n`, `DEC n`, `LDB n`, `STB`: write CMD with the command's word (30_encoding.md R92). -/
def opCommand (i : Instr) : HostOp := opCmd (encode i)

/-- `SB i, b`: write byte b to BUF[i] (30_encoding.md R92). DESIGN CHOICE (log 23): R92 gives i no range, and the 12-bit
offset 0x100 + i wraps for i ≥ 0xF00. -/
def opSb (i : Nat) (b : Byte) : HostOp := .write .byte (BitVec.ofNat 12 (0x100 + i)) (b.setWidth 32)

/-- `LB i`: read BUF[i] (30_encoding.md R92), for i as in `opSb` (log 23). -/
def opLb (i : Nat) : HostOp := .read .byte (BitVec.ofNat 12 (0x100 + i))

/-- `RS`: read STATUS (30_encoding.md R92). -/
def opRs : HostOp := .read .word 0x004

/-- `SBX i, h0 h1 ... hk`: one SB per byte (30_encoding.md R93). -/
def opsSbx : Nat → List Byte → List HostOp
  | _, [] => []
  | i, b :: bs => opSb i b :: opsSbx (i + 1) bs

/-- `SBS i, "text"`: one SB per byte of the ASCII text (30_encoding.md R93). -/
def opsSbs (i : Nat) (text : List Char) : List HostOp :=
  opsSbx i (text.map fun c => BitVec.ofNat 8 c.toNat)

/-- `LBS i, n`: LB i; ...; LB i+n-1 (30_encoding.md R93). -/
def opsLbs (i n : Nat) : List HostOp := (List.range n).map fun k => opLb (i + k)

end Sys2Proof.Machine
end

