-- ==== Sys2Proof/Machine/Schedule.lean ====
section
/-! DEFINITION. Whose turn it is: the interleaving of host and engine (20_memory.md R65, 30_encoding.md R89). -/

namespace Sys2Proof.Machine

/-- The turn where State names none: the engine's while it is busy, else the host's. So the engine is never left waiting
for ever (weak fairness, 30_encoding.md R89; log 7). -/
def defaultTurn (s : State) : Turn := if busy s then .engine else .host

/-- The host's turn: its next operation in program order (20_memory.md R65); a host with none left does nothing. -/
def hostTurn (s : State) : Host.Outcome State Fault Refusal :=
  match s.hostOps with
  | [] => .next s
  | op :: ops => hostStep op { s with hostOps := ops }

/-- One turn. A whole command can run as one step only from DISPATCH; in a later phase the turn is one engine step. -/
def takeTurn (t : Turn) (s : State) : Host.Outcome State Fault Refusal :=
  match t with
  | .host => hostTurn s
  | .engine => engineStep s
  | .command => if s.phase = .dispatch then commandStep s else engineStep s

/-- The next turn that State names, or the default one. -/
def nextTurn (s : State) : Host.Outcome State Fault Refusal :=
  match s.turns with
  | [] => takeTurn (defaultTurn s) s
  | t :: ts => takeTurn t { s with turns := ts }

/-- The block with command word w accepted (20_memory.md R62) and the next turn the engine's, for the whole command
(log 13). -/
def loadCommand (w : Word) (s : State) : State :=
  { accept w s with turns := .command :: s.turns }

end Sys2Proof.Machine
end

