-- ==== Sys2Proof/Machine/Step.lean ====
section
/-! DEFINITION. The step function, and a command word placed where the next step runs it. -/

namespace Sys2Proof.Machine

/-- One step of the machine: one host transaction or one step of the engine, atomic (20_memory.md R65, 30_encoding.md R89). -/
def step (s : State) : Host.Outcome State Fault Refusal := nextTurn s

/-- The command whose word is `w` accepted, and the engine to run it in the very next step (log 13). -/
def State.withFetchWord (s : State) (nbits w : Nat) : State := loadCommand (BitVec.ofNat 32 (w % 2 ^ nbits)) s

end Sys2Proof.Machine
end

