-- ==== Sys2Proof/Safety.lean ====
section
/-! DEFINITION. The words the claims use: the value of a digit string (42_decoder.md R130), the invariant of the machine (10_state.md R22 to R44, 60_exceptions.md R181 to R186), whose turn a step is, and which states the host cannot tell apart. -/

namespace Sys2Proof.Machine

/-- The value of a digit string, most significant digit first, onto `acc`: the Horner accumulation of 00_scope.md §5. -/
def horner (acc : Nat) : List Digit → Nat
  | [] => acc
  | d :: ds => horner (acc * 62 + d.val) ds

/-- The digits whose characters BUF[i..i+n-1] holds, or `none` where a byte is unwritten or not in the alphabet
(42_decoder.md R131). -/
def bufDigits (m : Memory) (i : Nat) : Nat → Option (List Digit)
  | 0 => some []
  | n + 1 =>
    match bufRead m i with
    | none => none
    | some b =>
      match rev b with
      | none => none
      | some d => (bufDigits m (i + 1) n).map (d :: ·)

/-- The digit of weight 62^k of v (10_state.md R38). -/
def digitAt (v k : Nat) : Digit := lowDigit (v / 62 ^ k)

/-- The states that runs keep to: what the spec says of every reachable state of the block. -/
structure State.Inv (s : State) : Prop where
  /-- 23 ≤ BUF_BYTES ≤ 255 (00_scope.md R8). -/
  size : Config.bufBytesMin ≤ s.bufBytes ∧ s.bufBytes ≤ Config.bufBytesMax
  /-- BUF's contents have their canonical form, inside BUF (20_memory.md R50). -/
  mem : Memory.wf s.bufBytes s.buf = true
  /-- ERR values 7..15 are never produced (60_exceptions.md R183). -/
  errLegal : s.err.toNat ≤ 6
  /-- RLEN is 0 on every error and at most 22 (10_state.md R30, 60_exceptions.md R186). -/
  rlenLegal : s.rlen.toNat ≤ 22 ∧ (s.err ≠ 0 → s.rlen = 0)
  /-- EPOS and EBYTE are 0 but for codes 3 and 4, and EPOS is an index of BUF (10_state.md R31, R32). -/
  detailLegal : s.epos.toNat < s.bufBytes ∧ (s.err ≠ 3 → s.err ≠ 4 → s.epos = 0 ∧ s.ebyte = 0)
  /-- While a command runs DONE = 0 and the other result fields are as acceptance left them (20_memory.md R62). -/
  busyClear : s.phase ≠ .idle → s.done = false ∧ s.err = 0 ∧ s.rlen = 0 ∧ s.epos = 0 ∧ s.ebyte = 0
  /-- DONE = 0 with BUSY = 0 is the reset signature: STATUS reads 0 (10_state.md R27, 70_reset_and_hazards.md R212). -/
  idleFresh : s.phase = .idle → s.done = false → statusWord s = 0
  /-- ENC_DIV: an ENC runs, DIG holds the digits produced, Q the rest of VAL (41_encoder.md R106). -/
  encDiv : s.phase = .encDiv → ∃ len, decode s.cmdl = .ok (.enc len) ∧ len.toNat ≤ s.bufBytes ∧ s.cnt.toNat < 22 ∧
    s.q.toNat = s.val.toNat / 62 ^ s.cnt.toNat ∧ (s.cnt ≠ 0 → s.q ≠ 0) ∧
    ∀ k (h : k < 22), k < s.cnt.toNat → s.dig[k] = digitAt s.val.toNat k
  /-- ENC_WRITE: an ENC whose text fits, DIG holds all digits of VAL, J characters are written (41_encoder.md R107). -/
  encWrite : s.phase = .encWrite → ∃ len, decode s.cmdl = .ok (.enc len) ∧ len.toNat ≤ s.bufBytes ∧
    s.cnt.toNat = (digits s.val.toNat).length ∧ s.cnt.toNat ≤ len.toNat ∧ s.j.toNat < s.cnt.toNat ∧
    (∀ k (h : k < 22), k < s.cnt.toNat → s.dig[k] = digitAt s.val.toNat k) ∧
    ∀ i (h : i < (digits s.val.toNat).length), i < s.j.toNat → bufRead s.buf i = some (alpha (digits s.val.toNat)[i])
  /-- DEC_ACC: a DEC runs and ACC is the value of the IDX characters read so far (42_decoder.md R139). -/
  decAcc : s.phase = .decAcc → ∃ len ds, decode s.cmdl = .ok (.dec len) ∧ len.toNat ≤ s.bufBytes ∧
    s.idx.toNat < len.toNat ∧ bufDigits s.buf 0 s.idx.toNat = some ds ∧ horner 0 ds = s.acc.toNat

/-- Whose turn the next step is (20_memory.md R65; log 7). -/
def turnOf (s : State) : Turn :=
  match s.turns with
  | [] => defaultTurn s
  | t :: _ => t

/-- The next step is the host's transaction `op`. -/
def HostActs (s : State) (op : HostOp) : Prop := turnOf s = .host ∧ s.hostOps.head? = some op

/-- The next step is the engine's. -/
def EngineActs (s : State) : Prop := turnOf s ≠ .host

/-- The next step is the acceptance of command word w (20_memory.md R62). -/
def Accepts (s : State) (w : Word) : Prop := HostActs s (.write .word 0x000 w) ∧ busy s = false

/-- The engine, left alone, is busy for n steps and IDLE after the n-th (70_reset_and_hazards.md R218). -/
def FinishesAfter (n : Nat) (s : State) : Prop :=
  (∀ m, m < n → ∃ t, engineRun m s = .next t ∧ busy t = true) ∧ ∃ t, engineRun n s = .next t ∧ busy t = false

/-- Two states that the host cannot tell apart as long as it reads nothing that was never written: they differ at most in
VAL where it was never written, in CMDL while IDLE, and in the datapath registers that the phase has not written yet
(10_state.md R24, R44 and §4). -/
structure State.Indist (s t : State) : Prop where
  same : t = { s with
    val := t.val, cmdl := t.cmdl, q := t.q, dig := t.dig, cnt := t.cnt, j := t.j, acc := t.acc, idx := t.idx }
  val : s.valWritten = true → t.val = s.val
  cmdl : s.phase ≠ .idle → t.cmdl = s.cmdl
  encDiv : s.phase = .encDiv →
    t.q = s.q ∧ t.cnt = s.cnt ∧ ∀ k (h : k < 22), k < s.cnt.toNat → t.dig[k] = s.dig[k]
  encWrite : s.phase = .encWrite →
    t.cnt = s.cnt ∧ t.j = s.j ∧ ∀ k (h : k < 22), k < s.cnt.toNat → t.dig[k] = s.dig[k]
  decAcc : s.phase = .decAcc → t.acc = s.acc ∧ t.idx = s.idx

end Sys2Proof.Machine
end

