-- ==== Sys2Proof/Certificates/Slice0/Obligations.lean ====
section
/-! DEFINITION. The statements for the provers, in the order of the spec's files. -/

open Sys2Proof Sys2Proof.Machine

/-! ### Commands and their words -/

/-- Words written out from 30_encoding.md R81 and R92 decode to the commands they stand for; the illegal words of
95_test_vectors.md H1 to H5, A13 and E28 are illegal for the reason given there. -/
def Obligations.CommandWordsDecodeAsWritten : Prop :=
  decode 0x00001601 = .ok (.enc 22) ∧ decode 0x00001502 = .ok (.dec 21) ∧ decode 0x00001003 = .ok (.ldb 16) ∧
  decode 0x00000004 = .ok .stb ∧ decode 0x0000FF03 = .ok (.ldb 255) ∧
  decode 0x00000000 = .error .undefinedOpcode ∧ decode 0x0000000F = .error .undefinedOpcode ∧
  decode 0x00010001 = .error .reservedBits ∧ decode 0x80001003 = .error .reservedBits ∧
  decode 0x00000010 = .error .reservedBits ∧ decode 0x00000104 = .error .stbLength ∧
  classify 32 0x00002101 = .error .lenOverCapacity ∧ classify 32 0x00002001 = .ok (.enc 32)

/-- Decode and encode agree on all 2^32 words: a word decodes to a command exactly when it is that command's encoding,
so every command has one word and no bit of a word is dropped (30_encoding.md R81, R84, R86). -/
def Obligations.DecodeIsTheInverseOfEncode : Prop :=
  ∀ (w : Word) (i : Instr), decode w = .ok i ↔ encode i = w

/-- A latched word is illegal exactly under the four conditions of 30_encoding.md R87, and then dispatch completes it
with ILLEGAL_CMD, changing nothing but what `finish` writes; the order of the checks does not show. -/
def Obligations.IllegalWordsCompleteWithIllegalCmd : Prop :=
  ∀ s : State, s.phase = .dispatch →
    ((∃ e, classify s.bufBytes s.cmdl = .error e) ↔
      (s.cmdl.extractLsb' 16 16 ≠ 0 ∨ s.cmdl.extractLsb' 4 4 ≠ 0) ∨
      s.cmdl.extractLsb' 0 4 ∉ [1, 2, 3, 4] ∨
      (s.cmdl.extractLsb' 0 4 ∈ [1, 2] ∧ (s.cmdl.extractLsb' 8 8).toNat > s.bufBytes) ∨
      (s.cmdl.extractLsb' 0 4 = 4 ∧ s.cmdl.extractLsb' 8 8 ≠ 0)) ∧
    ((∃ e, classify s.bufBytes s.cmdl = .error e) →
      engineStep s = .next { s with phase := .idle, done := true, err := 6, rlen := 0, epos := 0, ebyte := 0 } ∧
      commandStep s = .next { s with phase := .idle, done := true, err := 6, rlen := 0, epos := 0, ebyte := 0 })

/-! ### The step -/

/-- What a step is, for every turn (20_memory.md R65, 30_encoding.md R89). On the turn of the whole command
it runs `exec` of what CMDL decodes to, or completes an illegal word (`commandStep`); past DISPATCH that
turn is one engine step. A word placed by `withFetchWord` is run by the very next step from the state its
acceptance makes (log 13). On an engine turn, named or by default while busy, the step is one engine step.
On a host turn, named or by default while IDLE (log 7), it is the host's next transaction in program order,
taken off its list. A host turn with no transaction left, and an engine turn of either kind while IDLE,
change nothing but the list of turns (20_memory.md R66, log 21). -/
def Obligations.StepRunsTheLatchedCommand : Prop :=
  (∀ (s : State) (ts : List Turn) (i : Instr), s.turns = .command :: ts → s.phase = .dispatch → decode s.cmdl = .ok i →
    step s = exec i { s with turns := ts }) ∧
  (∀ (s : State) (nbits w : Nat) (i : Instr), decode (BitVec.ofNat 32 (w % 2 ^ nbits)) = .ok i →
    step (s.withFetchWord nbits w) = exec i (accept (BitVec.ofNat 32 (w % 2 ^ nbits)) s)) ∧
  (∀ (s : State) (ts : List Turn), s.turns = .command :: ts →
    (s.phase = .dispatch → step s = commandStep { s with turns := ts }) ∧
    (s.phase ≠ .dispatch → step s = engineStep { s with turns := ts })) ∧
  (∀ (s : State) (ts : List Turn), s.turns = .engine :: ts → step s = engineStep { s with turns := ts }) ∧
  (∀ s : State, s.turns = [] → s.phase ≠ .idle → step s = engineStep s) ∧
  (∀ (s : State) (ts : List Turn) (op : HostOp) (ops : List HostOp), s.turns = .host :: ts → s.hostOps = op :: ops →
    step s = hostStep op { s with turns := ts, hostOps := ops }) ∧
  (∀ (s : State) (op : HostOp) (ops : List HostOp), s.turns = [] → s.phase = .idle → s.hostOps = op :: ops →
    step s = hostStep op { s with hostOps := ops }) ∧
  (∀ (s : State) (ts : List Turn), s.turns = .host :: ts → s.hostOps = [] → step s = .next { s with turns := ts }) ∧
  (∀ s : State, s.turns = [] → s.phase = .idle → s.hostOps = [] → step s = .next s) ∧
  (∀ (s : State) (ts : List Turn), s.turns = .engine :: ts ∨ s.turns = .command :: ts → s.phase = .idle →
    step s = .next { s with turns := ts })

/-- The dispatch step is the if-chain of 30_encoding.md R88, for every latched word. A read of VAL never written, or of
a BUF byte never written, is the model fault of 10_state.md R44. -/
def Obligations.DispatchStepFollowsItsIfChain : Prop :=
  ∀ s : State, s.phase = .dispatch →
    let op := s.cmdl.extractLsb' 0 4
    let len := (s.cmdl.extractLsb' 8 8).toNat
    let done (u : State) (e : BitVec 4) (r : BitVec 8) : Host.Outcome State Fault Refusal :=
      .next { u with phase := .idle, done := true, err := e, rlen := r, epos := 0, ebyte := 0 }
    engineStep s =
      if s.cmdl.extractLsb' 16 16 ≠ 0 ∨ s.cmdl.extractLsb' 4 4 ≠ 0 then done s 6 0
      else if op = 1 then
        if len > s.bufBytes then done s 6 0
        else if s.valWritten = false then .fault .unwrittenVal
        else .next { s with q := s.val, cnt := 0, phase := .encDiv }
      else if op = 2 then
        if len > s.bufBytes then done s 6 0
        else if len = 0 then done s 5 0
        else .next { s with acc := 0, idx := 0, phase := .decAcc }
      else if op = 3 then
        if len ≠ 16 then done s 1 0
        else match memRead s.buf 0 16 0 with
          | .ok v => done { s with val := BitVec.ofNat 128 v, valWritten := true } 0 0
          | .error i => .fault (.unwrittenRead i)
      else if op = 4 then
        if len ≠ 0 then done s 6 0
        else if s.valWritten = false then .fault .unwrittenVal
        else done { s with buf := memWrite s.buf 0 16 s.val } 0 16
      else done s 6 0

/-! ### The constant tables -/

/-- REV's table, and that it is the inverse of ALPHA (10_state.md R35, R36); every ALPHA byte is ASCII. At 33 indices
the order is the spec's note G1 from general knowledge (93 G1, log 14: PRESUMED). -/
def Obligations.RevInvertsAlpha : Prop :=
  (∀ b : Byte, (rev b).map (·.val) =
    if 0x30 ≤ b.toNat ∧ b.toNat ≤ 0x39 then some (b.toNat - 0x30)
    else if 0x41 ≤ b.toNat ∧ b.toNat ≤ 0x5A then some (b.toNat - 0x41 + 10)
    else if 0x61 ≤ b.toNat ∧ b.toNat ≤ 0x7A then some (b.toNat - 0x61 + 36)
    else none) ∧
  (∀ (b : Byte) (d : Digit), rev b = some d ↔ alpha d = b) ∧ ∀ d : Digit, (alpha d).toNat < 0x80

/-! ### ENC -/

/-- `digits` satisfies the recursion of 41_encoder.md R101 on every 128-bit value, and has no superfluous leading
zero. -/
def Obligations.DigitsFollowTheRecursion : Prop :=
  ∀ v : Nat, v < 2 ^ 128 →
    (v < 62 → (digits v).map (·.val) = [v]) ∧
    (62 ≤ v → digits v = digits (v / 62) ++ [lowDigit (v % 62)]) ∧
    (v ≠ 0 → (digits v).head? ≠ some 0) ∧ (v = 0 → digits v = [0])

/-- The digit count is the least k ≥ 1 with v < 62^k; it is 1 to 22, and 22 exactly from 62^21 on (41_encoder.md
R108). -/
def Obligations.DigitCountIsTheLeastFittingPower : Prop :=
  ∀ v : Nat, v < 2 ^ 128 →
    1 ≤ (digits v).length ∧ (digits v).length ≤ 22 ∧ v < 62 ^ (digits v).length ∧
    (∀ k, 1 ≤ k → v < 62 ^ k → (digits v).length ≤ k) ∧
    ((digits v).length = 22 ↔ 43674252383913877424036476406214950912 ≤ v) ∧
    (∀ k, 2 ≤ k → ((digits v).length = k ↔ 62 ^ (k - 1) ≤ v ∧ v < 62 ^ k))

/-- A successful ENC, whole (41_encoder.md R103): with VAL written since reset (10_state.md R44) and capacity for the k
digits it completes, BUF[0..k-1] holds the characters of digits(VAL), most significant first, RLEN is k, and nothing
else changes but the encoder's own datapath registers. -/
def Obligations.EncWritesTheDigitsOfVal : Prop :=
  ∀ (s : State) (len : BitVec 8), s.valWritten = true → len.toNat ≤ s.bufBytes →
    (digits s.val.toNat).length ≤ len.toNat →
    ∃ t, exec (.enc len) s = .next t ∧
      t = { s with
        phase := .idle, done := true, err := 0, rlen := t.rlen, epos := 0, ebyte := 0, buf := t.buf, q := t.q,
        dig := t.dig, cnt := t.cnt, j := t.j } ∧
      t.rlen.toNat = (digits s.val.toNat).length ∧
      (∀ k (h : k < (digits s.val.toNat).length), bufRead t.buf k = some (alpha (digits s.val.toNat)[k])) ∧
      ∀ k, (digits s.val.toNat).length ≤ k → bufRead t.buf k = bufRead s.buf k

/-- The capacity check of 41_encoder.md R102, for a VAL written since reset (10_state.md R44): ENC with LEN below the
digit count completes with ENCODE_CAPACITY and writes no byte of BUF; the count is the actual one, so LEN = 0 always
fails, LEN = 21 suffices below 62^21, LEN ≥ 22 always suffices. -/
def Obligations.EncChecksCapacityBeforeWriting : Prop :=
  ∀ (s : State) (len : BitVec 8), s.valWritten = true → len.toNat ≤ s.bufBytes →
    (len.toNat < (digits s.val.toNat).length → ∃ t, exec (.enc len) s = .next t ∧
      t = { s with
        phase := .idle, done := true, err := 2, rlen := 0, epos := 0, ebyte := 0, q := t.q, dig := t.dig,
        cnt := t.cnt }) ∧
    (len.toNat = 0 → ∃ t, exec (.enc len) s = .next t ∧ t.err = 2) ∧
    (len.toNat = 21 → s.val.toNat < 62 ^ 21 → ∃ t, exec (.enc len) s = .next t ∧ t.err = 0) ∧
    (22 ≤ len.toNat → ∃ t, exec (.enc len) s = .next t ∧ t.err = 0)

/-- ENC's STATUS word in both outcomes (41_encoder.md R105), for a VAL written since reset (10_state.md R44); OVR is
kept. -/
def Obligations.EncReportsInStatus : Prop :=
  ∀ (s : State) (len : BitVec 8), s.valWritten = true → len.toNat ≤ s.bufBytes →
    ∃ t, exec (.enc len) s = .next t ∧ t.ovr = s.ovr ∧
    ((digits s.val.toNat).length ≤ len.toNat →
      (statusWord t).toNat = (digits s.val.toNat).length * 256 + 0x2 + (if s.ovr then 4 else 0)) ∧
    (len.toNat < (digits s.val.toNat).length → (statusWord t).toNat = 0x22 + (if s.ovr then 4 else 0))

/-- ENC never writes VAL, whatever its outcome and LEN, so after it, where VAL was written since reset (10_state.md
R44), STB gives the 16 bytes of the value (41_encoder.md R104). -/
def Obligations.EncLeavesValForStb : Prop :=
  (∀ (s t : State) (len : BitVec 8), exec (.enc len) s = .next t → t.val = s.val ∧ t.valWritten = s.valWritten) ∧
  ∀ (s : State) (len : BitVec 8), s.valWritten = true → ∃ t u, exec (.enc len) s = .next t ∧
    exec .stb t = .next u ∧ ∀ k, k < 16 → bufRead u.buf k = some (s.val.extractLsb' (8 * (15 - k)) 8)

/-- Round trip (41_encoder.md R110): the k bytes that a successful ENC wrote are the canonical encoding of VAL, DEC of
them gives VAL back, and any digit string with the same value is the encoder's with zero or more leading zero digits,
so the encoder's is the shortest. -/
def Obligations.DecOfEncReturnsVal : Prop :=
  (∀ (s t : State) (len : BitVec 8), exec (.enc len) s = .next t → t.err = 0 →
    bufDigits t.buf 0 t.rlen.toNat = some (digits s.val.toNat) ∧
    ∃ u, exec (.dec t.rlen) t = .next u ∧ u.err = 0 ∧ u.val = s.val ∧ u.valWritten = true) ∧
  ∀ (v : Value) (ds : List Digit), ds ≠ [] → horner 0 ds = v.toNat →
    ∃ z, ds = List.replicate z 0 ++ digits v.toNat

/-- One ENC_DIV step (41_encoder.md R106): a digit into DIG[CNT], Q divided by 62, CNT up; at Q = 0 the capacity
check, then ENC_WRITE. -/
def Obligations.EncDivStepDividesBy62 : Prop :=
  ∀ (s : State) (h : s.cnt.toNat < 22), s.phase = .encDiv →
    ∃ t, engineStep s = .next t ∧
      t.dig = s.dig.set s.cnt.toNat (lowDigit s.q.toNat) h ∧ t.q.toNat = s.q.toNat / 62 ∧
      t.cnt.toNat = s.cnt.toNat + 1 ∧
      (s.q.toNat / 62 ≠ 0 → t = { s with dig := t.dig, q := t.q, cnt := t.cnt }) ∧
      (s.q.toNat / 62 = 0 → s.cnt.toNat + 1 ≤ (lenField s.cmdl).toNat →
        t = { s with dig := t.dig, q := t.q, cnt := t.cnt, j := 0, phase := .encWrite }) ∧
      (s.q.toNat / 62 = 0 → (lenField s.cmdl).toNat < s.cnt.toNat + 1 →
        t = { s with
          dig := t.dig, q := t.q, cnt := t.cnt, phase := .idle, done := true, err := 2, rlen := 0, epos := 0,
          ebyte := 0 })

/-- One ENC_WRITE step (41_encoder.md R107): BUF[J] takes the character of DIG[CNT-1-J], J goes up, and at J = CNT the
command finishes with RLEN = CNT. -/
def Obligations.EncWriteStepWritesInReverse : Prop :=
  ∀ (s : State) (hj : s.j.toNat < s.cnt.toNat) (hc : s.cnt.toNat ≤ 22), s.phase = .encWrite → s.j.toNat < s.bufBytes →
    ∃ t, engineStep s = .next t ∧
      t.buf = bufWrite s.buf s.j.toNat (alpha (s.dig[s.cnt.toNat - 1 - s.j.toNat])) ∧ t.j.toNat = s.j.toNat + 1 ∧
      (s.j.toNat + 1 ≠ s.cnt.toNat → t = { s with buf := t.buf, j := t.j }) ∧
      (s.j.toNat + 1 = s.cnt.toNat →
        t = { s with
          buf := t.buf, j := t.j, phase := .idle, done := true, err := 0, rlen := t.rlen, epos := 0, ebyte := 0 } ∧
        t.rlen.toNat = s.cnt.toNat)

/-! ### DEC -/

/-- A successful DEC, whole (42_decoder.md R130, R140): where BUF[0..LEN-1] holds digits whose value is at most 2^128
- 1, it completes and VAL takes the value; nothing else changes but ACC and IDX. -/
def Obligations.DecLoadsTheValueOfItsText : Prop :=
  ∀ (s : State) (len : BitVec 8) (ds : List Digit), len ≠ 0 → len.toNat ≤ s.bufBytes →
    bufDigits s.buf 0 len.toNat = some ds → horner 0 ds ≤ 2 ^ 128 - 1 →
    ∃ t, exec (.dec len) s = .next t ∧
      t = { s with
        phase := .idle, done := true, err := 0, rlen := 0, epos := 0, ebyte := 0, val := t.val, valWritten := true,
        acc := t.acc, idx := t.idx } ∧
      t.val.toNat = horner 0 ds ∧ (statusWord t).toNat = 0x2 + (if s.ovr then 4 else 0)

/-- Invalid character (42_decoder.md R132): the first byte outside the alphabet, reached without overflow, ends DEC
with DECODE_INVALID_CHAR, its index in EPOS and the byte in EBYTE. -/
def Obligations.DecStopsAtAnInvalidChar : Prop :=
  ∀ (s : State) (len : BitVec 8) (i : Nat) (ds : List Digit) (b : Byte), len.toNat ≤ s.bufBytes → i < len.toNat →
    bufDigits s.buf 0 i = some ds → horner 0 ds ≤ 2 ^ 128 - 1 → bufRead s.buf i = some b → rev b = none →
    ∃ t, exec (.dec len) s = .next t ∧
      t = { s with
        phase := .idle, done := true, err := 3, rlen := 0, epos := t.epos, ebyte := b, acc := t.acc, idx := t.idx } ∧
      t.epos.toNat = i

/-- Overflow (42_decoder.md R133): the first digit that takes acc*62 + d over 2^128 - 1, computed exactly, ends DEC
with DECODE_OVERFLOW, its index in EPOS and the byte in EBYTE. -/
def Obligations.DecStopsAtTheOverflow : Prop :=
  ∀ (s : State) (len : BitVec 8) (i : Nat) (ds : List Digit) (b : Byte) (d : Digit), len.toNat ≤ s.bufBytes →
    i < len.toNat → bufDigits s.buf 0 i = some ds → horner 0 ds ≤ 2 ^ 128 - 1 → bufRead s.buf i = some b →
    rev b = some d → horner 0 ds * 62 + d.val > 2 ^ 128 - 1 →
    ∃ t, exec (.dec len) s = .next t ∧
      t = { s with
        phase := .idle, done := true, err := 4, rlen := 0, epos := t.epos, ebyte := b, acc := t.acc, idx := t.idx } ∧
      t.epos.toNat = i

/-- The bytes after the first failing index are not read (42_decoder.md R134): with any other contents there, written
or not, DEC fails the same way. -/
def Obligations.DecReadsNothingAfterTheFailure : Prop :=
  ∀ (s t : State) (len : BitVec 8) (m : Memory), exec (.dec len) s = .next t → t.err = 3 ∨ t.err = 4 →
    (∀ k, k ≤ t.epos.toNat → bufRead m k = bufRead s.buf k) →
    exec (.dec len) { s with buf := m } = .next { t with buf := m }

/-- Empty input (42_decoder.md R135): DEC with LEN = 0 completes with DECODE_EMPTY, reads no byte, leaves VAL. -/
def Obligations.DecRejectsEmptyInput : Prop :=
  ∀ s : State, exec (.dec 0) s =
    .next { s with phase := .idle, done := true, err := 5, rlen := 0, epos := 0, ebyte := 0 }

/-- Leading zero digits add nothing (42_decoder.md R136): a text that DEC accepts is accepted with any number of
leading '0' bytes, with the same value. -/
def Obligations.DecIgnoresLeadingZeroDigits : Prop :=
  ∀ (s t t' : State) (lenS lenT : BitVec 8) (z : Nat) (ds : List Digit), lenT ≠ 0 → lenS.toNat = z + lenT.toNat →
    lenS.toNat ≤ s.bufBytes → bufDigits t.buf 0 lenT.toNat = some ds →
    bufDigits s.buf 0 lenS.toNat = some (List.replicate z 0 ++ ds) → exec (.dec lenT) t = .next t' → t'.err = 0 →
    ∃ s', exec (.dec lenS) s = .next s' ∧ s'.err = 0 ∧ s'.val = t'.val

/-- No length pre-check (42_decoder.md R137): with z leading '0' bytes and s further digits, DEC never overflows for s
≤ 21; for s = 22 it overflows, at z + 21, exactly when the digits exceed 2^128 - 1; for s ≥ 23 it always overflows, at
z + 21 or z + 22. -/
def Obligations.DecOverflowsByValueNotLength : Prop :=
  ∀ (s : State) (len : BitVec 8) (z : Nat) (es : List Digit), len ≠ 0 → len.toNat ≤ s.bufBytes →
    bufDigits s.buf 0 len.toNat = some (List.replicate z 0 ++ es) → es.head? ≠ some 0 →
    ∃ t, exec (.dec len) s = .next t ∧
      (es.length ≤ 21 → t.err = 0) ∧
      (es.length = 22 → horner 0 es ≤ 2 ^ 128 - 1 → t.err = 0) ∧
      (es.length = 22 → horner 0 es > 2 ^ 128 - 1 → t.err = 4 ∧ t.epos.toNat = z + 21) ∧
      (23 ≤ es.length → t.err = 4 ∧ (t.epos.toNat = z + 21 ∨ t.epos.toNat = z + 22))

/-- DEC's effects (42_decoder.md R138): VAL is kept on every error, BUF always, and no byte at or beyond LEN
is read. -/
def Obligations.DecKeepsBufAndFailedVal : Prop :=
  ∀ (s t : State) (len : BitVec 8), exec (.dec len) s = .next t →
    (t.err ≠ 0 → t.val = s.val ∧ t.valWritten = s.valWritten) ∧
    (t.err = 0 → t.val = t.acc ∧ t.valWritten = true) ∧ t.buf = s.buf ∧
    ∀ m : Memory, (∀ k, k < len.toNat → bufRead m k = bufRead s.buf k) →
      exec (.dec len) { s with buf := m } = .next { t with buf := m }

/-- DEC faults with UnwrittenRead exactly at the first byte it reads that was never written (10_state.md R44). -/
def Obligations.DecFaultsAtAnUnwrittenByte : Prop :=
  ∀ (s : State) (len : BitVec 8) (i : Nat), exec (.dec len) s = .fault (.unwrittenRead i) ↔
    len.toNat ≤ s.bufBytes ∧ i < len.toNat ∧ bufRead s.buf i = none ∧
      ∃ ds, bufDigits s.buf 0 i = some ds ∧ horner 0 ds ≤ 2 ^ 128 - 1

/-- ENC of a decoded text gives the text back exactly when it is canonical, and a canonical text has at most 22 bytes
(42_decoder.md R142). -/
def Obligations.EncOfDecReturnsCanonicalText : Prop :=
  ∀ (s t : State) (len : BitVec 8) (ds : List Digit), s.Inv → exec (.dec len) s = .next t → t.err = 0 →
    bufDigits s.buf 0 len.toNat = some ds →
    ∃ u, exec (.enc 22) t = .next u ∧ u.err = 0 ∧
      ((u.rlen = len ∧ ∀ k, k < len.toNat → bufRead u.buf k = bufRead s.buf k) ↔ (ds = [0] ∨ ds.head? ≠ some 0)) ∧
      ((ds = [0] ∨ ds.head? ≠ some 0) → len.toNat ≤ 22)

/-- One DEC_ACC step (42_decoder.md R139) on a written byte: INV ends DEC with DECODE_INVALID_CHAR (R132), a digit
that takes the value over 2^128 - 1 ends it with DECODE_OVERFLOW (R133), else ACC takes the value, IDX goes up, and at
IDX = LEN the command finishes with VAL = ACC. -/
def Obligations.DecAccStepAccumulates : Prop :=
  ∀ (s : State) (b : Byte), s.phase = .decAcc → s.idx.toNat < (lenField s.cmdl).toNat →
    (lenField s.cmdl).toNat ≤ s.bufBytes → bufRead s.buf s.idx.toNat = some b →
    (rev b = none → engineStep s =
      .next { s with phase := .idle, done := true, err := 3, rlen := 0, epos := s.idx, ebyte := b }) ∧
    ∀ d : Digit, rev b = some d →
      (s.acc.toNat * 62 + d.val > 2 ^ 128 - 1 → engineStep s =
        .next { s with phase := .idle, done := true, err := 4, rlen := 0, epos := s.idx, ebyte := b }) ∧
      (s.acc.toNat * 62 + d.val ≤ 2 ^ 128 - 1 → ∃ t, engineStep s = .next t ∧
        t.acc.toNat = s.acc.toNat * 62 + d.val ∧ t.idx.toNat = s.idx.toNat + 1 ∧
        (t.idx ≠ lenField s.cmdl → t = { s with acc := t.acc, idx := t.idx }) ∧
        (t.idx = lenField s.cmdl →
          t = { s with
            acc := t.acc, idx := t.idx, val := t.acc, valWritten := true, phase := .idle, done := true, err := 0,
            rlen := 0, epos := 0, ebyte := 0 }))

/-! ### LDB and STB -/

/-- LDB 16 (43_adapters.md R160): with BUF[0..15] written, VAL takes the 16 bytes, BUF[0] most significant, and
nothing else changes but STATUS and PHASE; with one of them unwritten, it faults at the first such byte. -/
def Obligations.LdbLoadsSixteenBigEndianBytes : Prop :=
  ∀ s : State,
    ((∀ k, k < 16 → (bufRead s.buf k).isSome) → ∃ t, exec (.ldb 16) s = .next t ∧
      t = { s with
        phase := .idle, done := true, err := 0, rlen := 0, epos := 0, ebyte := 0, val := t.val, valWritten := true } ∧
      (∀ k, k < 16 → bufRead s.buf k = some (t.val.extractLsb' (8 * (15 - k)) 8)) ∧
      (statusWord t).toNat = 0x2 + (if s.ovr then 4 else 0)) ∧
    ∀ i, i < 16 → bufRead s.buf i = none → (∀ k, k < i → (bufRead s.buf k).isSome) →
      exec (.ldb 16) s = .fault (.unwrittenRead i)

/-- LDB with LEN ≠ 16 (43_adapters.md R161): INVALID_INPUT, for every LEN, also one over BUF_BYTES; no byte is read,
VAL is kept. -/
def Obligations.LdbRejectsOtherLengths : Prop :=
  ∀ (s : State) (len : BitVec 8), len ≠ 16 → exec (.ldb len) s =
    .next { s with phase := .idle, done := true, err := 1, rlen := 0, epos := 0, ebyte := 0 }

/-- STB (43_adapters.md R162) of a VAL written since reset (10_state.md R44): BUF[0..15] takes VAL's bytes, most
significant first, RLEN is 16, the other bytes and VAL are kept, nothing else changes but STATUS and PHASE. -/
def Obligations.StbStoresSixteenBigEndianBytes : Prop :=
  ∀ s : State, s.valWritten = true → ∃ t, exec .stb s = .next t ∧
    t = { s with phase := .idle, done := true, err := 0, rlen := 16, epos := 0, ebyte := 0, buf := t.buf } ∧
    (∀ k, k < 16 → bufRead t.buf k = some (s.val.extractLsb' (8 * (15 - k)) 8)) ∧
    (∀ k, 16 ≤ k → bufRead t.buf k = bufRead s.buf k) ∧
    (statusWord t).toNat = 0x1002 + (if s.ovr then 4 else 0)

/-- The adapters are exact inverses (43_adapters.md R163): LDB 16 then STB leaves BUF as it was, STB then LDB 16
leaves VAL as it was. -/
def Obligations.AdaptersAreInverse : Prop :=
  (∀ s t : State, exec (.ldb 16) s = .next t →
    ∃ u, exec .stb t = .next u ∧ ∀ k, bufRead u.buf k = bufRead s.buf k) ∧
  ∀ s t : State, exec .stb s = .next t → ∃ u, exec (.ldb 16) t = .next u ∧ u.val = s.val ∧ u.err = 0

/-! ### Errors -/

/-- Which codes a command can report (60_exceptions.md R181, R183), and that EPOS and EBYTE are recorded for codes 3
and 4 only (R186). -/
def Obligations.CommandsReportTheirOwnCodes : Prop :=
  ∀ (i : Instr) (s t : State), exec i s = .next t →
    t.err ∈ (match i with
      | .enc _ => [0, 2, 6]
      | .dec _ => [0, 3, 4, 5, 6]
      | .ldb _ => [0, 1]
      | .stb => ([0] : List (BitVec 4))) ∧
    (t.err ≠ 3 → t.err ≠ 4 → t.epos = 0 ∧ t.ebyte = 0) ∧ (t.err ≠ 0 → t.rlen = 0)

/-- No partial results (60_exceptions.md R187): a command that completes with an error changes STATUS, PHASE and the
hidden datapath registers at most; VAL and BUF are left. -/
def Obligations.ErrorsLeaveValAndBuf : Prop :=
  ∀ (i : Instr) (s t : State), exec i s = .next t → t.err ≠ 0 →
    t = { s with
      phase := .idle, done := true, err := t.err, rlen := 0, epos := t.epos, ebyte := t.ebyte, q := t.q, dig := t.dig,
      cnt := t.cnt, j := t.j, acc := t.acc, idx := t.idx }

/-- Errors are deterministic (60_exceptions.md R188): the same command again, on the state the failed one left, gives
the same code and detail. -/
def Obligations.FailedCommandsFailAgain : Prop :=
  ∀ (i : Instr) (s t : State), exec i s = .next t → t.err ≠ 0 →
    ∃ u, exec i t = .next u ∧ u.err = t.err ∧ u.epos = t.epos ∧ u.ebyte = t.ebyte

/-- VAL never written (10_state.md R44, 93 U1): ENC with a legal LEN and STB, and no other command, fault with
UnwrittenRead exactly where VAL's written bit is clear, as whole commands and in the engine, there at DISPATCH. -/
def Obligations.UnwrittenValReadFaults : Prop :=
  (∀ (i : Instr) (s : State), exec i s = .fault .unwrittenVal ↔ s.valWritten = false ∧
    match i with
    | .enc len => len.toNat ≤ s.bufBytes
    | .dec _ => False
    | .ldb _ => False
    | .stb => True) ∧
  ∀ s : State, engineStep s = .fault .unwrittenVal ↔ s.valWritten = false ∧ s.phase = .dispatch ∧
    ((∃ len, decode s.cmdl = .ok (.enc len) ∧ len.toNat ≤ s.bufBytes) ∨ decode s.cmdl = .ok .stb)

/-! ### Phase by phase and as a whole -/

/-- The two levels agree (30_encoding.md R89): from DISPATCH, running the engine step by step to its bound gives
exactly the state, or the fault, of the whole command in one step, for every latched word. -/
def Obligations.EngineRunEqualsWholeCommand : Prop :=
  ∀ s : State, s.phase = .dispatch → engineRun (1 + max 44 s.bufBytes) s = commandStep s

/-- The engine step counts of 70_reset_and_hazards.md R218, row by row. -/
def Obligations.EngineStepCounts : Prop :=
  ∀ s t : State, s.phase = .dispatch → commandStep s = .next t →
    (∀ e, classify s.bufBytes s.cmdl = .error e → FinishesAfter 1 s) ∧
    (∀ len, decode s.cmdl = .ok (.ldb len) → FinishesAfter 1 s) ∧ (decode s.cmdl = .ok .stb → FinishesAfter 1 s) ∧
    (∀ len, decode s.cmdl = .ok (.enc len) → len.toNat ≤ s.bufBytes → (digits s.val.toNat).length ≤ len.toNat →
      FinishesAfter (1 + 2 * (digits s.val.toNat).length) s ∧ 1 + 2 * (digits s.val.toNat).length ≤ 45) ∧
    (∀ len, decode s.cmdl = .ok (.enc len) → len.toNat ≤ s.bufBytes → len.toNat < (digits s.val.toNat).length →
      FinishesAfter (1 + (digits s.val.toNat).length) s ∧ 1 + (digits s.val.toNat).length ≤ 23) ∧
    (decode s.cmdl = .ok (.dec 0) → FinishesAfter 1 s) ∧
    (∀ len, decode s.cmdl = .ok (.dec len) → len ≠ 0 → len.toNat ≤ s.bufBytes → t.err = 0 →
      FinishesAfter (1 + len.toNat) s ∧ 1 + len.toNat ≤ 1 + s.bufBytes) ∧
    (∀ len, decode s.cmdl = .ok (.dec len) → len ≠ 0 → len.toNat ≤ s.bufBytes → t.err ≠ 0 →
      FinishesAfter (2 + t.epos.toNat) s ∧ 2 + t.epos.toNat ≤ 1 + s.bufBytes)

/-- Termination (70_reset_and_hazards.md R219): from any state of the invariant with a command running, the machine
left to the engine (its default turn, log 7) is IDLE within 1 + max(44, BUF_BYTES) steps, or has stopped at a read of
VAL or of a BUF byte that was never written (10_state.md R44). -/
def Obligations.EveryCommandFinishes : Prop :=
  ∀ s : State, s.Inv → busy s = true → s.turns = [] → ∃ n, n ≤ 1 + max 44 s.bufBytes ∧
    ((∃ t, Sys2Proof.core.run n s = .next t ∧ busy t = false) ∨
      Sys2Proof.core.run n s = .fault .unwrittenVal ∨ ∃ i, Sys2Proof.core.run n s = .fault (.unwrittenRead i))

/-- While a command runs on, host transactions other than reset do not disturb it and see nothing of it
(30_encoding.md R89, 20_memory.md R60, R61, R69): the host's step and an engine step that leaves the block busy
commute. -/
def Obligations.BusyHostAndEngineStepsCommute : Prop :=
  ∀ (s s' t : State) (op : HostOp), op ≠ .reset → busy s = true → engineStep s = .next s' → busy s' = true →
    hostStep op s = .next t → ∃ u, engineStep t = .next u ∧ hostStep op s' = .next u

/-! ### The host port -/

/-- Acceptance (20_memory.md R62): a word written to CMD while idle is latched, DISPATCH entered, the result fields
cleared, and nothing else changes; every word is accepted. -/
def Obligations.CmdWriteWhileIdleIsAccepted : Prop :=
  ∀ (s : State) (w : Word), busy s = false → hostStep (.write .word 0x000 w) s =
    .next { s with
      cmdl := w, phase := .dispatch, done := false, ovr := false, err := 0, rlen := 0, epos := 0, ebyte := 0 }

/-- Overrun (20_memory.md R60): while busy, a write to CMD or to a BUF byte is dropped and sets OVR; nothing else
changes. -/
def Obligations.WritesWhileBusyOnlySetOvr : Prop :=
  ∀ (s : State) (w : Word), busy s = true →
    hostStep (.write .word 0x000 w) s = .next { s with ovr := true } ∧
    ∀ off : BitVec 12, 0x100 ≤ off.toNat → off.toNat < 0x100 + s.bufBytes →
      hostStep (.write .byte off w) s = .next { s with ovr := true }

/-- A BUF byte written while idle reads back, and every other byte is kept (20_memory.md R58, R59). -/
def Obligations.BufByteWrittenReadsBack : Prop :=
  ∀ (s : State) (i : Nat) (b : Byte), busy s = false → i < s.bufBytes → s.bufBytes ≤ 255 →
    ∃ t, hostStep (opSb i b) s = .next t ∧ t = { s with buf := t.buf } ∧ bufRead t.buf i = some b ∧
      (∀ k, k ≠ i → bufRead t.buf k = bufRead s.buf k) ∧
      hostStep (opLb i) t = .next { t with replies := b.setWidth 32 :: t.replies }

/-- A host read of a BUF byte (20_memory.md R59, R61): while idle it returns the byte, or faults where it was never
written; while busy it returns a free byte, whatever BUF holds (log 4, log 9). -/
def Obligations.BufReadByBusyState : Prop :=
  ∀ (s : State) (i : Nat), i < s.bufBytes → s.bufBytes ≤ 255 →
    (busy s = false → ∀ b, bufRead s.buf i = some b →
      hostStep (opLb i) s = .next { s with replies := b.setWidth 32 :: s.replies }) ∧
    (busy s = false → bufRead s.buf i = none → hostStep (opLb i) s = .fault (.unwrittenRead i)) ∧
    (busy s = true → hostStep (opLb i) s =
      .next { s with
        replies := (Config.freeByte s.freeDraws).setWidth 32 :: s.replies, freeDraws := s.freeDraws + 1 })

/-- A STATUS read (20_memory.md R63) returns one snapshot of the fields in the layout of 10_state.md R25, bit 3
reading 0, without side effect. -/
def Obligations.StatusReadIsTheFieldSnapshot : Prop :=
  ∀ s : State, ∃ w : Word, hostStep opRs s = .next { s with replies := w :: s.replies } ∧
    (w.extractLsb' 0 1 = 1 ↔ s.phase ≠ .idle) ∧ (w.extractLsb' 1 1 = 1 ↔ s.done = true) ∧
    (w.extractLsb' 2 1 = 1 ↔ s.ovr = true) ∧ w.extractLsb' 3 1 = 0 ∧ w.extractLsb' 4 4 = s.err ∧
    w.extractLsb' 8 8 = s.rlen ∧ w.extractLsb' 16 8 = s.epos ∧ w.extractLsb' 24 8 = s.ebyte

/-- CMD reads 0 without side effect, and writes to STATUS are ignored, also while busy (20_memory.md R64). -/
def Obligations.CmdReadsZeroStatusWritesIgnored : Prop :=
  ∀ (s : State) (w : Word), hostStep (.read .word 0x000) s = .next { s with replies := 0 :: s.replies } ∧
    hostStep (.write .word 0x004 w) s = .next s

/-- Unmapped offsets read 0 and ignore writes (20_memory.md R53); for byte and aligned word accesses (log 10). -/
def Obligations.UnmappedOffsetsReadZero : Prop :=
  ∀ (s : State) (off : BitVec 12) (width : AccessWidth) (w : Word),
    (0x008 ≤ off.toNat ∧ off.toNat ≤ 0x0FF) ∨ 0x100 + s.bufBytes ≤ off.toNat →
    width = .byte ∨ (width = .word ∧ off.toNat % 4 = 0) →
    hostStep (.read width off) s = .next { s with replies := 0 :: s.replies } ∧ hostStep (.write width off w) s = .next s

/-- Accesses of another width or alignment are refused (20_memory.md R54): to CMD's and STATUS's bytes all but the
aligned word, to BUF's bytes all but the single byte. To unmapped offsets all but the single byte and the aligned
word, which is the model's choice (log 10). The other widths are the halfword and AccessWidth.other (log 22). -/
def Obligations.OtherAccessWidthsAreRefused : Prop :=
  ∀ (s : State) (off : BitVec 12) (width : AccessWidth) (w : Word),
    (off.toNat < 0x008 ∧ ¬ (width = .word ∧ off.toNat % 4 = 0)) ∨
      (0x100 ≤ off.toNat ∧ off.toNat < 0x100 + s.bufBytes ∧ width ≠ .byte) ∨
      (((0x008 ≤ off.toNat ∧ off.toNat ≤ 0x0FF) ∨ 0x100 + s.bufBytes ≤ off.toNat) ∧
        ¬ (width = .byte ∨ (width = .word ∧ off.toNat % 4 = 0))) →
    hostStep (.read width off) s = .refused .hostAccessWidth ∧
      hostStep (.write width off w) s = .refused .hostAccessWidth

/-- Side effects (20_memory.md R72): a read changes nothing of the block; a BUF write while idle is idempotent; while
busy a write sets OVR unless it targets STATUS or an unmapped offset. -/
def Obligations.SideEffectsOfTransactions : Prop :=
  (∀ (s t : State) (width : AccessWidth) (off : BitVec 12), hostStep (.read width off) s = .next t →
    t = { s with replies := t.replies, freeDraws := t.freeDraws }) ∧
  (∀ (s t : State) (i : Nat) (b : Byte), busy s = false → i < s.bufBytes → s.bufBytes ≤ 255 →
    hostStep (opSb i b) s = .next t → hostStep (opSb i b) t = .next t) ∧
  ∀ (s t : State) (width : AccessWidth) (off : BitVec 12) (w : Word), busy s = true →
    hostStep (.write width off w) s = .next t →
    t = { s with ovr := t.ovr } ∧
    (t.ovr = if off.toNat = 0x000 ∨ (0x100 ≤ off.toNat ∧ off.toNat < 0x100 + s.bufBytes) then true else s.ovr)

/-- The host syntax of 30_encoding.md R92: the words that ENC n, DEC n, LDB n and STB write to CMD, and the offsets
that SB i, LB i and RS reach. -/
def Obligations.HostSyntaxReachesItsRegisters : Prop :=
  (∀ n : BitVec 8, opCommand (.enc n) = .write .word 0x000 (0x00000001 ||| (n.setWidth 32 <<< 8)) ∧
    opCommand (.dec n) = .write .word 0x000 (0x00000002 ||| (n.setWidth 32 <<< 8)) ∧
    opCommand (.ldb n) = .write .word 0x000 (0x00000003 ||| (n.setWidth 32 <<< 8))) ∧
  opCommand .stb = .write .word 0x000 0x00000004 ∧
  (∀ n w, hostTarget n .word 0x000 = some .cmd ∧ opCmd w = .write .word 0x000 w ∧
    opRs = .read .word 0x004 ∧ hostTarget n .word 0x004 = some .status) ∧
  ∀ (n i : Nat) (b : Byte), n ≤ 255 → i < n → ∃ off, opSb i b = .write .byte off (b.setWidth 32) ∧
    opLb i = .read .byte off ∧ off.toNat = 0x100 + i ∧ hostTarget n .byte off = some (.buf i)

/-- WAIT (30_encoding.md R93): while STATUS shows BUSY = 1 it stays the host's next operation and changes
nothing; once BUSY = 0 it ends, its result the last STATUS word. That the loop is one operation is the
model's choice (log 8). -/
def Obligations.WaitEndsWhenStatusShowsIdle : Prop :=
  ∀ (s : State) (ops : List HostOp), s.hostOps = .wait :: ops → turnOf s = .host →
    (busy s = true → step s = .next { s with turns := s.turns.tail }) ∧
    (busy s = false → step s =
      .next { s with turns := s.turns.tail, hostOps := ops, replies := statusWord s :: s.replies })

/-! ### Reset -/

/-- Reset at any time (70_reset_and_hazards.md R210, R211): PHASE = IDLE, STATUS = 0 with DONE = 0 even in
mid-command, every written bit clear. That BUF_BYTES, the turns, the host's list and the replies stay (log 15), and
that reset is an item of the host's list (log 24), is the model's choice. -/
def Obligations.ResetAbortsAndClears : Prop :=
  ∀ s : State, ∃ t, hostStep .reset s = .next t ∧ t.phase = .idle ∧ statusWord t = 0 ∧ t.done = false ∧
    t.valWritten = false ∧ (∀ k, bufRead t.buf k = none) ∧ t.bufBytes = s.bufBytes ∧ t.hostOps = s.hostOps ∧
    t.turns = s.turns ∧ t.replies = s.replies

/-- Right after reset (70_reset_and_hazards.md R212): IDLE, STATUS reads 0, nothing is written, and the next CMD write
is accepted; for every BUF_BYTES. -/
def Obligations.AfterResetTheBlockAcceptsCommands : Prop :=
  ∀ n : Nat, (State.resetOf n).phase = .idle ∧ statusWord (State.resetOf n) = 0 ∧
    (State.resetOf n).valWritten = false ∧ (∀ k, bufRead (State.resetOf n).buf k = none) ∧
    ∀ w : Word, hostStep (opCmd w) (State.resetOf n) = .next (accept w (State.resetOf n))

/-! ### The whole machine -/

/-- The invariant holds after reset, for every legal BUF_BYTES (00_scope.md R8, 70_reset_and_hazards.md R210). -/
def Obligations.ResetMeetsTheInvariant : Prop :=
  State.reset.Inv ∧ ∀ n : Nat, 23 ≤ n → n ≤ 255 → (State.resetOf n).Inv

/-- Every step, of the host, of the engine or of a whole command, keeps the invariant: BUF's canonical form, ERR ≤ 6,
the result fields' ranges, and in each phase what the datapath registers hold. -/
def Obligations.EveryStepKeepsTheInvariant : Prop :=
  ∀ s t : State, s.Inv → step s = .next t → t.Inv

/-- In states of the invariant the engine's counters never leave their ranges (10_state.md R39, R40, R42): the model's
fault for that case (log 12) is never raised, so the only faults of a step are the UnwrittenRead of VAL or of a BUF
byte (R44) and the only refusal is a host access outside 20_memory.md R54. -/
def Obligations.OnlyUnwrittenReadsFault : Prop :=
  ∀ s : State, s.Inv →
    (∀ f, step s = .fault f → (f = .unwrittenVal ∧ s.valWritten = false) ∨
      ∃ i, f = .unwrittenRead i ∧ i < s.bufBytes ∧ bufRead s.buf i = none) ∧
    ∀ r, step s = .refused r → r = .hostAccessWidth

/-- VAL is written only by a successful DEC or LDB (10_state.md R21), so by an engine turn while BUSY = 1, and else
changes at reset only. -/
def Obligations.ValChangesOnlyByDecAndLdb : Prop :=
  ∀ s t : State, s.Inv → step s = .next t → t.val ≠ s.val → ¬ HostActs s .reset →
    EngineActs s ∧ busy s = true ∧ t.phase = .idle ∧ t.err = 0 ∧
      ∃ len, decode s.cmdl = .ok (.dec len) ∨ decode s.cmdl = .ok (.ldb len)

/-- A BUF byte changes only by the host's write to it while idle, by ENC within its digits or STB within BUF[0..15] on
an engine turn while BUSY = 1, or by reset (20_memory.md R71, R66). -/
def Obligations.BufChangesOnlyByItsWriters : Prop :=
  ∀ (s t : State) (a : Nat), s.Inv → step s = .next t → bufRead t.buf a ≠ bufRead s.buf a →
    HostActs s .reset ∨
    (busy s = false ∧ ∃ off w, HostActs s (.write .byte off w) ∧ off.toNat = 0x100 + a) ∨
    (EngineActs s ∧ busy s = true ∧ ((∃ len, decode s.cmdl = .ok (.enc len) ∧ a < (digits s.val.toNat).length) ∨
      (decode s.cmdl = .ok .stb ∧ a < 16)))

/-- PHASE leaves IDLE only by an accepted CMD write and returns to it only through `finish` or reset (10_state.md
R22). -/
def Obligations.PhaseLeavesAndEntersIdleByRule : Prop :=
  ∀ s t : State, step s = .next t →
    (s.phase = .idle → t.phase ≠ .idle → ∃ w, Accepts s w ∧ t.phase = .dispatch ∧ t.cmdl = w) ∧
    (s.phase ≠ .idle → t.phase = .idle → HostActs s .reset ∨ (EngineActs s ∧ t.done = true))

/-- OVR is set by exactly the host's writes to CMD or a BUF byte while busy, and cleared only by acceptance or reset
(10_state.md R28); no other STATUS field changes but by acceptance, reset, or `finish` on an engine turn while BUSY =
1 (R27, R29 to R32). -/
def Obligations.StatusChangesOnlyByItsEvents : Prop :=
  ∀ s t : State, step s = .next t →
    (s.ovr = false → (t.ovr = true ↔ busy s = true ∧ ∃ width off w, HostActs s (.write width off w) ∧
      (hostTarget s.bufBytes width off = some .cmd ∨ ∃ i, hostTarget s.bufBytes width off = some (.buf i)))) ∧
    (s.ovr = true → t.ovr = false → HostActs s .reset ∨ ∃ w, Accepts s w) ∧
    ((t.done, t.err, t.rlen, t.epos, t.ebyte) ≠ (s.done, s.err, s.rlen, s.epos, s.ebyte) →
      (statusWord t = 0 ∧ HostActs s .reset) ∨ (statusWord t = 1 ∧ ∃ w, Accepts s w) ∨
        (t.done = true ∧ t.phase = .idle ∧ EngineActs s ∧ busy s = true))

/-- The hidden registers' values before the engine writes them never show (10_state.md R24 and §4, 93 U4): two states
that differ only in them step alike, to states that again differ only in them. -/
def Obligations.HiddenRegistersNeverShow : Prop :=
  ∀ s t : State, s.Indist t → s.val = t.val →
    (∀ s', step s = .next s' → ∃ t', step t = .next t' ∧ s'.Indist t' ∧ s'.val = t'.val) ∧
    (∀ f, step s = .fault f → step t = .fault f) ∧ ∀ r, step s = .refused r → step t = .refused r

/-- The value of VAL before its first write never shows either (10_state.md R44, 93 U1; the named value of log 1): two
states that differ only in it and in the hidden registers step alike, to states that again differ only so. The host's
replies, STATUS, BUF and VAL once written come out the same. -/
def Obligations.UnwrittenValNeverShows : Prop :=
  ∀ s t : State, s.Indist t →
    (∀ s', step s = .next s' → ∃ t', step t = .next t' ∧ s'.Indist t') ∧
    (∀ f, step s = .fault f → step t = .fault f) ∧ ∀ r, step s = .refused r → step t = .refused r
end

