-- ==== Sys2Proof/Laws/State.lean ====
section
/-! SUPPORT. One lemma per field per named update of State: what the update makes of the field. -/

namespace Sys2Proof.Machine

/-- VAL once written (10_state.md R44). -/
theorem valRead_written {s : State} (h : s.valWritten = true) : valRead s = some s.val := by simp [valRead, h]

/-- VAL before it is written (10_state.md R44). -/
theorem valRead_unwritten {s : State} (h : s.valWritten = false) : valRead s = none := by simp [valRead, h]

@[simp] theorem writeVal_bufBytes (v : Value) (s : State) : (writeVal v s).bufBytes = s.bufBytes := rfl
@[simp] theorem writeVal_val (v : Value) (s : State) : (writeVal v s).val = v := rfl
@[simp] theorem writeVal_phase (v : Value) (s : State) : (writeVal v s).phase = s.phase := rfl
@[simp] theorem writeVal_cmdl (v : Value) (s : State) : (writeVal v s).cmdl = s.cmdl := rfl
@[simp] theorem writeVal_done (v : Value) (s : State) : (writeVal v s).done = s.done := rfl
@[simp] theorem writeVal_ovr (v : Value) (s : State) : (writeVal v s).ovr = s.ovr := rfl
@[simp] theorem writeVal_err (v : Value) (s : State) : (writeVal v s).err = s.err := rfl
@[simp] theorem writeVal_rlen (v : Value) (s : State) : (writeVal v s).rlen = s.rlen := rfl
@[simp] theorem writeVal_epos (v : Value) (s : State) : (writeVal v s).epos = s.epos := rfl
@[simp] theorem writeVal_ebyte (v : Value) (s : State) : (writeVal v s).ebyte = s.ebyte := rfl
@[simp] theorem writeVal_q (v : Value) (s : State) : (writeVal v s).q = s.q := rfl
@[simp] theorem writeVal_dig (v : Value) (s : State) : (writeVal v s).dig = s.dig := rfl
@[simp] theorem writeVal_cnt (v : Value) (s : State) : (writeVal v s).cnt = s.cnt := rfl
@[simp] theorem writeVal_j (v : Value) (s : State) : (writeVal v s).j = s.j := rfl
@[simp] theorem writeVal_acc (v : Value) (s : State) : (writeVal v s).acc = s.acc := rfl
@[simp] theorem writeVal_idx (v : Value) (s : State) : (writeVal v s).idx = s.idx := rfl
@[simp] theorem writeVal_buf (v : Value) (s : State) : (writeVal v s).buf = s.buf := rfl
@[simp] theorem writeVal_valWritten (v : Value) (s : State) : (writeVal v s).valWritten = true := rfl
@[simp] theorem writeVal_turns (v : Value) (s : State) : (writeVal v s).turns = s.turns := rfl
@[simp] theorem writeVal_hostOps (v : Value) (s : State) : (writeVal v s).hostOps = s.hostOps := rfl
@[simp] theorem writeVal_replies (v : Value) (s : State) : (writeVal v s).replies = s.replies := rfl
@[simp] theorem writeVal_freeDraws (v : Value) (s : State) : (writeVal v s).freeDraws = s.freeDraws := rfl

@[simp] theorem finish_bufBytes (e : ErrCode) (r p b : BitVec 8) (s : State) : (finish e r p b s).bufBytes = s.bufBytes := rfl
@[simp] theorem finish_val (e : ErrCode) (r p b : BitVec 8) (s : State) : (finish e r p b s).val = s.val := rfl
@[simp] theorem finish_phase (e : ErrCode) (r p b : BitVec 8) (s : State) : (finish e r p b s).phase = .idle := rfl
@[simp] theorem finish_cmdl (e : ErrCode) (r p b : BitVec 8) (s : State) : (finish e r p b s).cmdl = s.cmdl := rfl
@[simp] theorem finish_done (e : ErrCode) (r p b : BitVec 8) (s : State) : (finish e r p b s).done = true := rfl
@[simp] theorem finish_ovr (e : ErrCode) (r p b : BitVec 8) (s : State) : (finish e r p b s).ovr = s.ovr := rfl
@[simp] theorem finish_err (e : ErrCode) (r p b : BitVec 8) (s : State) : (finish e r p b s).err = errNumber e := rfl
@[simp] theorem finish_rlen (e : ErrCode) (r p b : BitVec 8) (s : State) : (finish e r p b s).rlen = r := rfl
@[simp] theorem finish_epos (e : ErrCode) (r p b : BitVec 8) (s : State) : (finish e r p b s).epos = p := rfl
@[simp] theorem finish_ebyte (e : ErrCode) (r p b : BitVec 8) (s : State) : (finish e r p b s).ebyte = b := rfl
@[simp] theorem finish_q (e : ErrCode) (r p b : BitVec 8) (s : State) : (finish e r p b s).q = s.q := rfl
@[simp] theorem finish_dig (e : ErrCode) (r p b : BitVec 8) (s : State) : (finish e r p b s).dig = s.dig := rfl
@[simp] theorem finish_cnt (e : ErrCode) (r p b : BitVec 8) (s : State) : (finish e r p b s).cnt = s.cnt := rfl
@[simp] theorem finish_j (e : ErrCode) (r p b : BitVec 8) (s : State) : (finish e r p b s).j = s.j := rfl
@[simp] theorem finish_acc (e : ErrCode) (r p b : BitVec 8) (s : State) : (finish e r p b s).acc = s.acc := rfl
@[simp] theorem finish_idx (e : ErrCode) (r p b : BitVec 8) (s : State) : (finish e r p b s).idx = s.idx := rfl
@[simp] theorem finish_buf (e : ErrCode) (r p b : BitVec 8) (s : State) : (finish e r p b s).buf = s.buf := rfl
@[simp] theorem finish_valWritten (e : ErrCode) (r p b : BitVec 8) (s : State) : (finish e r p b s).valWritten = s.valWritten := rfl
@[simp] theorem finish_turns (e : ErrCode) (r p b : BitVec 8) (s : State) : (finish e r p b s).turns = s.turns := rfl
@[simp] theorem finish_hostOps (e : ErrCode) (r p b : BitVec 8) (s : State) : (finish e r p b s).hostOps = s.hostOps := rfl
@[simp] theorem finish_replies (e : ErrCode) (r p b : BitVec 8) (s : State) : (finish e r p b s).replies = s.replies := rfl
@[simp] theorem finish_freeDraws (e : ErrCode) (r p b : BitVec 8) (s : State) : (finish e r p b s).freeDraws = s.freeDraws := rfl

@[simp] theorem raiseErr_bufBytes (e : ErrCode) (p b : BitVec 8) (s : State) : (raiseErr e p b s).bufBytes = s.bufBytes := rfl
@[simp] theorem raiseErr_val (e : ErrCode) (p b : BitVec 8) (s : State) : (raiseErr e p b s).val = s.val := rfl
@[simp] theorem raiseErr_phase (e : ErrCode) (p b : BitVec 8) (s : State) : (raiseErr e p b s).phase = .idle := rfl
@[simp] theorem raiseErr_cmdl (e : ErrCode) (p b : BitVec 8) (s : State) : (raiseErr e p b s).cmdl = s.cmdl := rfl
@[simp] theorem raiseErr_done (e : ErrCode) (p b : BitVec 8) (s : State) : (raiseErr e p b s).done = true := rfl
@[simp] theorem raiseErr_ovr (e : ErrCode) (p b : BitVec 8) (s : State) : (raiseErr e p b s).ovr = s.ovr := rfl
@[simp] theorem raiseErr_err (e : ErrCode) (p b : BitVec 8) (s : State) : (raiseErr e p b s).err = errNumber e := rfl
@[simp] theorem raiseErr_rlen (e : ErrCode) (p b : BitVec 8) (s : State) : (raiseErr e p b s).rlen = 0 := rfl
@[simp] theorem raiseErr_epos (e : ErrCode) (p b : BitVec 8) (s : State) : (raiseErr e p b s).epos = p := rfl
@[simp] theorem raiseErr_ebyte (e : ErrCode) (p b : BitVec 8) (s : State) : (raiseErr e p b s).ebyte = b := rfl
@[simp] theorem raiseErr_q (e : ErrCode) (p b : BitVec 8) (s : State) : (raiseErr e p b s).q = s.q := rfl
@[simp] theorem raiseErr_dig (e : ErrCode) (p b : BitVec 8) (s : State) : (raiseErr e p b s).dig = s.dig := rfl
@[simp] theorem raiseErr_cnt (e : ErrCode) (p b : BitVec 8) (s : State) : (raiseErr e p b s).cnt = s.cnt := rfl
@[simp] theorem raiseErr_j (e : ErrCode) (p b : BitVec 8) (s : State) : (raiseErr e p b s).j = s.j := rfl
@[simp] theorem raiseErr_acc (e : ErrCode) (p b : BitVec 8) (s : State) : (raiseErr e p b s).acc = s.acc := rfl
@[simp] theorem raiseErr_idx (e : ErrCode) (p b : BitVec 8) (s : State) : (raiseErr e p b s).idx = s.idx := rfl
@[simp] theorem raiseErr_buf (e : ErrCode) (p b : BitVec 8) (s : State) : (raiseErr e p b s).buf = s.buf := rfl
@[simp] theorem raiseErr_valWritten (e : ErrCode) (p b : BitVec 8) (s : State) : (raiseErr e p b s).valWritten = s.valWritten := rfl
@[simp] theorem raiseErr_turns (e : ErrCode) (p b : BitVec 8) (s : State) : (raiseErr e p b s).turns = s.turns := rfl
@[simp] theorem raiseErr_hostOps (e : ErrCode) (p b : BitVec 8) (s : State) : (raiseErr e p b s).hostOps = s.hostOps := rfl
@[simp] theorem raiseErr_replies (e : ErrCode) (p b : BitVec 8) (s : State) : (raiseErr e p b s).replies = s.replies := rfl
@[simp] theorem raiseErr_freeDraws (e : ErrCode) (p b : BitVec 8) (s : State) : (raiseErr e p b s).freeDraws = s.freeDraws := rfl

@[simp] theorem accept_bufBytes (w : Word) (s : State) : (accept w s).bufBytes = s.bufBytes := rfl
@[simp] theorem accept_val (w : Word) (s : State) : (accept w s).val = s.val := rfl
@[simp] theorem accept_phase (w : Word) (s : State) : (accept w s).phase = .dispatch := rfl
@[simp] theorem accept_cmdl (w : Word) (s : State) : (accept w s).cmdl = w := rfl
@[simp] theorem accept_done (w : Word) (s : State) : (accept w s).done = false := rfl
@[simp] theorem accept_ovr (w : Word) (s : State) : (accept w s).ovr = false := rfl
@[simp] theorem accept_err (w : Word) (s : State) : (accept w s).err = 0 := rfl
@[simp] theorem accept_rlen (w : Word) (s : State) : (accept w s).rlen = 0 := rfl
@[simp] theorem accept_epos (w : Word) (s : State) : (accept w s).epos = 0 := rfl
@[simp] theorem accept_ebyte (w : Word) (s : State) : (accept w s).ebyte = 0 := rfl
@[simp] theorem accept_q (w : Word) (s : State) : (accept w s).q = s.q := rfl
@[simp] theorem accept_dig (w : Word) (s : State) : (accept w s).dig = s.dig := rfl
@[simp] theorem accept_cnt (w : Word) (s : State) : (accept w s).cnt = s.cnt := rfl
@[simp] theorem accept_j (w : Word) (s : State) : (accept w s).j = s.j := rfl
@[simp] theorem accept_acc (w : Word) (s : State) : (accept w s).acc = s.acc := rfl
@[simp] theorem accept_idx (w : Word) (s : State) : (accept w s).idx = s.idx := rfl
@[simp] theorem accept_buf (w : Word) (s : State) : (accept w s).buf = s.buf := rfl
@[simp] theorem accept_valWritten (w : Word) (s : State) : (accept w s).valWritten = s.valWritten := rfl
@[simp] theorem accept_turns (w : Word) (s : State) : (accept w s).turns = s.turns := rfl
@[simp] theorem accept_hostOps (w : Word) (s : State) : (accept w s).hostOps = s.hostOps := rfl
@[simp] theorem accept_replies (w : Word) (s : State) : (accept w s).replies = s.replies := rfl
@[simp] theorem accept_freeDraws (w : Word) (s : State) : (accept w s).freeDraws = s.freeDraws := rfl

@[simp] theorem overrun_bufBytes (s : State) : (overrun s).bufBytes = s.bufBytes := rfl
@[simp] theorem overrun_val (s : State) : (overrun s).val = s.val := rfl
@[simp] theorem overrun_phase (s : State) : (overrun s).phase = s.phase := rfl
@[simp] theorem overrun_cmdl (s : State) : (overrun s).cmdl = s.cmdl := rfl
@[simp] theorem overrun_done (s : State) : (overrun s).done = s.done := rfl
@[simp] theorem overrun_ovr (s : State) : (overrun s).ovr = true := rfl
@[simp] theorem overrun_err (s : State) : (overrun s).err = s.err := rfl
@[simp] theorem overrun_rlen (s : State) : (overrun s).rlen = s.rlen := rfl
@[simp] theorem overrun_epos (s : State) : (overrun s).epos = s.epos := rfl
@[simp] theorem overrun_ebyte (s : State) : (overrun s).ebyte = s.ebyte := rfl
@[simp] theorem overrun_q (s : State) : (overrun s).q = s.q := rfl
@[simp] theorem overrun_dig (s : State) : (overrun s).dig = s.dig := rfl
@[simp] theorem overrun_cnt (s : State) : (overrun s).cnt = s.cnt := rfl
@[simp] theorem overrun_j (s : State) : (overrun s).j = s.j := rfl
@[simp] theorem overrun_acc (s : State) : (overrun s).acc = s.acc := rfl
@[simp] theorem overrun_idx (s : State) : (overrun s).idx = s.idx := rfl
@[simp] theorem overrun_buf (s : State) : (overrun s).buf = s.buf := rfl
@[simp] theorem overrun_valWritten (s : State) : (overrun s).valWritten = s.valWritten := rfl
@[simp] theorem overrun_turns (s : State) : (overrun s).turns = s.turns := rfl
@[simp] theorem overrun_hostOps (s : State) : (overrun s).hostOps = s.hostOps := rfl
@[simp] theorem overrun_replies (s : State) : (overrun s).replies = s.replies := rfl
@[simp] theorem overrun_freeDraws (s : State) : (overrun s).freeDraws = s.freeDraws := rfl

@[simp] theorem leaveDivmod_bufBytes (ds : List Digit) (s : State) : (leaveDivmod ds s).bufBytes = s.bufBytes := rfl
@[simp] theorem leaveDivmod_val (ds : List Digit) (s : State) : (leaveDivmod ds s).val = s.val := rfl
@[simp] theorem leaveDivmod_phase (ds : List Digit) (s : State) : (leaveDivmod ds s).phase = s.phase := rfl
@[simp] theorem leaveDivmod_cmdl (ds : List Digit) (s : State) : (leaveDivmod ds s).cmdl = s.cmdl := rfl
@[simp] theorem leaveDivmod_done (ds : List Digit) (s : State) : (leaveDivmod ds s).done = s.done := rfl
@[simp] theorem leaveDivmod_ovr (ds : List Digit) (s : State) : (leaveDivmod ds s).ovr = s.ovr := rfl
@[simp] theorem leaveDivmod_err (ds : List Digit) (s : State) : (leaveDivmod ds s).err = s.err := rfl
@[simp] theorem leaveDivmod_rlen (ds : List Digit) (s : State) : (leaveDivmod ds s).rlen = s.rlen := rfl
@[simp] theorem leaveDivmod_epos (ds : List Digit) (s : State) : (leaveDivmod ds s).epos = s.epos := rfl
@[simp] theorem leaveDivmod_ebyte (ds : List Digit) (s : State) : (leaveDivmod ds s).ebyte = s.ebyte := rfl
@[simp] theorem leaveDivmod_q (ds : List Digit) (s : State) : (leaveDivmod ds s).q = 0 := rfl
@[simp] theorem leaveDivmod_dig (ds : List Digit) (s : State) : (leaveDivmod ds s).dig = storeDigits 0 ds s.dig := rfl
@[simp] theorem leaveDivmod_cnt (ds : List Digit) (s : State) : (leaveDivmod ds s).cnt = BitVec.ofNat 5 ds.length := rfl
@[simp] theorem leaveDivmod_j (ds : List Digit) (s : State) : (leaveDivmod ds s).j = s.j := rfl
@[simp] theorem leaveDivmod_acc (ds : List Digit) (s : State) : (leaveDivmod ds s).acc = s.acc := rfl
@[simp] theorem leaveDivmod_idx (ds : List Digit) (s : State) : (leaveDivmod ds s).idx = s.idx := rfl
@[simp] theorem leaveDivmod_buf (ds : List Digit) (s : State) : (leaveDivmod ds s).buf = s.buf := rfl
@[simp] theorem leaveDivmod_valWritten (ds : List Digit) (s : State) : (leaveDivmod ds s).valWritten = s.valWritten := rfl
@[simp] theorem leaveDivmod_turns (ds : List Digit) (s : State) : (leaveDivmod ds s).turns = s.turns := rfl
@[simp] theorem leaveDivmod_hostOps (ds : List Digit) (s : State) : (leaveDivmod ds s).hostOps = s.hostOps := rfl
@[simp] theorem leaveDivmod_replies (ds : List Digit) (s : State) : (leaveDivmod ds s).replies = s.replies := rfl
@[simp] theorem leaveDivmod_freeDraws (ds : List Digit) (s : State) : (leaveDivmod ds s).freeDraws = s.freeDraws := rfl

@[simp] theorem leaveText_bufBytes (ds : List Digit) (s : State) : (leaveText ds s).bufBytes = s.bufBytes := rfl
@[simp] theorem leaveText_val (ds : List Digit) (s : State) : (leaveText ds s).val = s.val := rfl
@[simp] theorem leaveText_phase (ds : List Digit) (s : State) : (leaveText ds s).phase = s.phase := rfl
@[simp] theorem leaveText_cmdl (ds : List Digit) (s : State) : (leaveText ds s).cmdl = s.cmdl := rfl
@[simp] theorem leaveText_done (ds : List Digit) (s : State) : (leaveText ds s).done = s.done := rfl
@[simp] theorem leaveText_ovr (ds : List Digit) (s : State) : (leaveText ds s).ovr = s.ovr := rfl
@[simp] theorem leaveText_err (ds : List Digit) (s : State) : (leaveText ds s).err = s.err := rfl
@[simp] theorem leaveText_rlen (ds : List Digit) (s : State) : (leaveText ds s).rlen = s.rlen := rfl
@[simp] theorem leaveText_epos (ds : List Digit) (s : State) : (leaveText ds s).epos = s.epos := rfl
@[simp] theorem leaveText_ebyte (ds : List Digit) (s : State) : (leaveText ds s).ebyte = s.ebyte := rfl
@[simp] theorem leaveText_q (ds : List Digit) (s : State) : (leaveText ds s).q = s.q := rfl
@[simp] theorem leaveText_dig (ds : List Digit) (s : State) : (leaveText ds s).dig = s.dig := rfl
@[simp] theorem leaveText_cnt (ds : List Digit) (s : State) : (leaveText ds s).cnt = s.cnt := rfl
@[simp] theorem leaveText_j (ds : List Digit) (s : State) : (leaveText ds s).j = BitVec.ofNat 5 ds.length := rfl
@[simp] theorem leaveText_acc (ds : List Digit) (s : State) : (leaveText ds s).acc = s.acc := rfl
@[simp] theorem leaveText_idx (ds : List Digit) (s : State) : (leaveText ds s).idx = s.idx := rfl
@[simp] theorem leaveText_buf (ds : List Digit) (s : State) : (leaveText ds s).buf = writeText 0 ds s.buf := rfl
@[simp] theorem leaveText_valWritten (ds : List Digit) (s : State) : (leaveText ds s).valWritten = s.valWritten := rfl
@[simp] theorem leaveText_turns (ds : List Digit) (s : State) : (leaveText ds s).turns = s.turns := rfl
@[simp] theorem leaveText_hostOps (ds : List Digit) (s : State) : (leaveText ds s).hostOps = s.hostOps := rfl
@[simp] theorem leaveText_replies (ds : List Digit) (s : State) : (leaveText ds s).replies = s.replies := rfl
@[simp] theorem leaveText_freeDraws (ds : List Digit) (s : State) : (leaveText ds s).freeDraws = s.freeDraws := rfl

@[simp] theorem leaveHorner_bufBytes (a i : Nat) (s : State) : (leaveHorner a i s).bufBytes = s.bufBytes := rfl
@[simp] theorem leaveHorner_val (a i : Nat) (s : State) : (leaveHorner a i s).val = s.val := rfl
@[simp] theorem leaveHorner_phase (a i : Nat) (s : State) : (leaveHorner a i s).phase = s.phase := rfl
@[simp] theorem leaveHorner_cmdl (a i : Nat) (s : State) : (leaveHorner a i s).cmdl = s.cmdl := rfl
@[simp] theorem leaveHorner_done (a i : Nat) (s : State) : (leaveHorner a i s).done = s.done := rfl
@[simp] theorem leaveHorner_ovr (a i : Nat) (s : State) : (leaveHorner a i s).ovr = s.ovr := rfl
@[simp] theorem leaveHorner_err (a i : Nat) (s : State) : (leaveHorner a i s).err = s.err := rfl
@[simp] theorem leaveHorner_rlen (a i : Nat) (s : State) : (leaveHorner a i s).rlen = s.rlen := rfl
@[simp] theorem leaveHorner_epos (a i : Nat) (s : State) : (leaveHorner a i s).epos = s.epos := rfl
@[simp] theorem leaveHorner_ebyte (a i : Nat) (s : State) : (leaveHorner a i s).ebyte = s.ebyte := rfl
@[simp] theorem leaveHorner_q (a i : Nat) (s : State) : (leaveHorner a i s).q = s.q := rfl
@[simp] theorem leaveHorner_dig (a i : Nat) (s : State) : (leaveHorner a i s).dig = s.dig := rfl
@[simp] theorem leaveHorner_cnt (a i : Nat) (s : State) : (leaveHorner a i s).cnt = s.cnt := rfl
@[simp] theorem leaveHorner_j (a i : Nat) (s : State) : (leaveHorner a i s).j = s.j := rfl
@[simp] theorem leaveHorner_acc (a i : Nat) (s : State) : (leaveHorner a i s).acc = BitVec.ofNat 128 a := rfl
@[simp] theorem leaveHorner_idx (a i : Nat) (s : State) : (leaveHorner a i s).idx = BitVec.ofNat 8 i := rfl
@[simp] theorem leaveHorner_buf (a i : Nat) (s : State) : (leaveHorner a i s).buf = s.buf := rfl
@[simp] theorem leaveHorner_valWritten (a i : Nat) (s : State) : (leaveHorner a i s).valWritten = s.valWritten := rfl
@[simp] theorem leaveHorner_turns (a i : Nat) (s : State) : (leaveHorner a i s).turns = s.turns := rfl
@[simp] theorem leaveHorner_hostOps (a i : Nat) (s : State) : (leaveHorner a i s).hostOps = s.hostOps := rfl
@[simp] theorem leaveHorner_replies (a i : Nat) (s : State) : (leaveHorner a i s).replies = s.replies := rfl
@[simp] theorem leaveHorner_freeDraws (a i : Nat) (s : State) : (leaveHorner a i s).freeDraws = s.freeDraws := rfl

@[simp] theorem reply_bufBytes (w : Word) (s : State) : (reply w s).bufBytes = s.bufBytes := rfl
@[simp] theorem reply_val (w : Word) (s : State) : (reply w s).val = s.val := rfl
@[simp] theorem reply_phase (w : Word) (s : State) : (reply w s).phase = s.phase := rfl
@[simp] theorem reply_cmdl (w : Word) (s : State) : (reply w s).cmdl = s.cmdl := rfl
@[simp] theorem reply_done (w : Word) (s : State) : (reply w s).done = s.done := rfl
@[simp] theorem reply_ovr (w : Word) (s : State) : (reply w s).ovr = s.ovr := rfl
@[simp] theorem reply_err (w : Word) (s : State) : (reply w s).err = s.err := rfl
@[simp] theorem reply_rlen (w : Word) (s : State) : (reply w s).rlen = s.rlen := rfl
@[simp] theorem reply_epos (w : Word) (s : State) : (reply w s).epos = s.epos := rfl
@[simp] theorem reply_ebyte (w : Word) (s : State) : (reply w s).ebyte = s.ebyte := rfl
@[simp] theorem reply_q (w : Word) (s : State) : (reply w s).q = s.q := rfl
@[simp] theorem reply_dig (w : Word) (s : State) : (reply w s).dig = s.dig := rfl
@[simp] theorem reply_cnt (w : Word) (s : State) : (reply w s).cnt = s.cnt := rfl
@[simp] theorem reply_j (w : Word) (s : State) : (reply w s).j = s.j := rfl
@[simp] theorem reply_acc (w : Word) (s : State) : (reply w s).acc = s.acc := rfl
@[simp] theorem reply_idx (w : Word) (s : State) : (reply w s).idx = s.idx := rfl
@[simp] theorem reply_buf (w : Word) (s : State) : (reply w s).buf = s.buf := rfl
@[simp] theorem reply_valWritten (w : Word) (s : State) : (reply w s).valWritten = s.valWritten := rfl
@[simp] theorem reply_turns (w : Word) (s : State) : (reply w s).turns = s.turns := rfl
@[simp] theorem reply_hostOps (w : Word) (s : State) : (reply w s).hostOps = s.hostOps := rfl
@[simp] theorem reply_replies (w : Word) (s : State) : (reply w s).replies = w :: s.replies := rfl
@[simp] theorem reply_freeDraws (w : Word) (s : State) : (reply w s).freeDraws = s.freeDraws := rfl

@[simp] theorem replyFree_bufBytes (s : State) : (replyFree s).bufBytes = s.bufBytes := rfl
@[simp] theorem replyFree_val (s : State) : (replyFree s).val = s.val := rfl
@[simp] theorem replyFree_phase (s : State) : (replyFree s).phase = s.phase := rfl
@[simp] theorem replyFree_cmdl (s : State) : (replyFree s).cmdl = s.cmdl := rfl
@[simp] theorem replyFree_done (s : State) : (replyFree s).done = s.done := rfl
@[simp] theorem replyFree_ovr (s : State) : (replyFree s).ovr = s.ovr := rfl
@[simp] theorem replyFree_err (s : State) : (replyFree s).err = s.err := rfl
@[simp] theorem replyFree_rlen (s : State) : (replyFree s).rlen = s.rlen := rfl
@[simp] theorem replyFree_epos (s : State) : (replyFree s).epos = s.epos := rfl
@[simp] theorem replyFree_ebyte (s : State) : (replyFree s).ebyte = s.ebyte := rfl
@[simp] theorem replyFree_q (s : State) : (replyFree s).q = s.q := rfl
@[simp] theorem replyFree_dig (s : State) : (replyFree s).dig = s.dig := rfl
@[simp] theorem replyFree_cnt (s : State) : (replyFree s).cnt = s.cnt := rfl
@[simp] theorem replyFree_j (s : State) : (replyFree s).j = s.j := rfl
@[simp] theorem replyFree_acc (s : State) : (replyFree s).acc = s.acc := rfl
@[simp] theorem replyFree_idx (s : State) : (replyFree s).idx = s.idx := rfl
@[simp] theorem replyFree_buf (s : State) : (replyFree s).buf = s.buf := rfl
@[simp] theorem replyFree_valWritten (s : State) : (replyFree s).valWritten = s.valWritten := rfl
@[simp] theorem replyFree_turns (s : State) : (replyFree s).turns = s.turns := rfl
@[simp] theorem replyFree_hostOps (s : State) : (replyFree s).hostOps = s.hostOps := rfl
@[simp] theorem replyFree_replies (s : State) : (replyFree s).replies = (Config.freeByte s.freeDraws).setWidth 32 :: s.replies := rfl
@[simp] theorem replyFree_freeDraws (s : State) : (replyFree s).freeDraws = s.freeDraws + 1 := rfl

@[simp] theorem resetBlock_bufBytes (s : State) : (resetBlock s).bufBytes = s.bufBytes := rfl
@[simp] theorem resetBlock_val (s : State) : (resetBlock s).val = Config.valAtReset := rfl
@[simp] theorem resetBlock_phase (s : State) : (resetBlock s).phase = .idle := rfl
@[simp] theorem resetBlock_cmdl (s : State) : (resetBlock s).cmdl = Config.cmdlAtReset := rfl
@[simp] theorem resetBlock_done (s : State) : (resetBlock s).done = false := rfl
@[simp] theorem resetBlock_ovr (s : State) : (resetBlock s).ovr = false := rfl
@[simp] theorem resetBlock_err (s : State) : (resetBlock s).err = 0 := rfl
@[simp] theorem resetBlock_rlen (s : State) : (resetBlock s).rlen = 0 := rfl
@[simp] theorem resetBlock_epos (s : State) : (resetBlock s).epos = 0 := rfl
@[simp] theorem resetBlock_ebyte (s : State) : (resetBlock s).ebyte = 0 := rfl
@[simp] theorem resetBlock_q (s : State) : (resetBlock s).q = Config.datapathAtReset := rfl
@[simp] theorem resetBlock_dig (s : State) : (resetBlock s).dig = Vector.replicate 22 Config.digitAtReset := rfl
@[simp] theorem resetBlock_cnt (s : State) : (resetBlock s).cnt = 0 := rfl
@[simp] theorem resetBlock_j (s : State) : (resetBlock s).j = 0 := rfl
@[simp] theorem resetBlock_acc (s : State) : (resetBlock s).acc = Config.datapathAtReset := rfl
@[simp] theorem resetBlock_idx (s : State) : (resetBlock s).idx = 0 := rfl
@[simp] theorem resetBlock_buf (s : State) : (resetBlock s).buf = [] := rfl
@[simp] theorem resetBlock_valWritten (s : State) : (resetBlock s).valWritten = false := rfl
@[simp] theorem resetBlock_turns (s : State) : (resetBlock s).turns = s.turns := rfl
@[simp] theorem resetBlock_hostOps (s : State) : (resetBlock s).hostOps = s.hostOps := rfl
@[simp] theorem resetBlock_replies (s : State) : (resetBlock s).replies = s.replies := rfl
@[simp] theorem resetBlock_freeDraws (s : State) : (resetBlock s).freeDraws = s.freeDraws := rfl

@[simp] theorem loadCommand_bufBytes (w : Word) (s : State) : (loadCommand w s).bufBytes = s.bufBytes := rfl
@[simp] theorem loadCommand_val (w : Word) (s : State) : (loadCommand w s).val = s.val := rfl
@[simp] theorem loadCommand_phase (w : Word) (s : State) : (loadCommand w s).phase = .dispatch := rfl
@[simp] theorem loadCommand_cmdl (w : Word) (s : State) : (loadCommand w s).cmdl = w := rfl
@[simp] theorem loadCommand_done (w : Word) (s : State) : (loadCommand w s).done = false := rfl
@[simp] theorem loadCommand_ovr (w : Word) (s : State) : (loadCommand w s).ovr = false := rfl
@[simp] theorem loadCommand_err (w : Word) (s : State) : (loadCommand w s).err = 0 := rfl
@[simp] theorem loadCommand_rlen (w : Word) (s : State) : (loadCommand w s).rlen = 0 := rfl
@[simp] theorem loadCommand_epos (w : Word) (s : State) : (loadCommand w s).epos = 0 := rfl
@[simp] theorem loadCommand_ebyte (w : Word) (s : State) : (loadCommand w s).ebyte = 0 := rfl
@[simp] theorem loadCommand_q (w : Word) (s : State) : (loadCommand w s).q = s.q := rfl
@[simp] theorem loadCommand_dig (w : Word) (s : State) : (loadCommand w s).dig = s.dig := rfl
@[simp] theorem loadCommand_cnt (w : Word) (s : State) : (loadCommand w s).cnt = s.cnt := rfl
@[simp] theorem loadCommand_j (w : Word) (s : State) : (loadCommand w s).j = s.j := rfl
@[simp] theorem loadCommand_acc (w : Word) (s : State) : (loadCommand w s).acc = s.acc := rfl
@[simp] theorem loadCommand_idx (w : Word) (s : State) : (loadCommand w s).idx = s.idx := rfl
@[simp] theorem loadCommand_buf (w : Word) (s : State) : (loadCommand w s).buf = s.buf := rfl
@[simp] theorem loadCommand_valWritten (w : Word) (s : State) : (loadCommand w s).valWritten = s.valWritten := rfl
@[simp] theorem loadCommand_turns (w : Word) (s : State) : (loadCommand w s).turns = .command :: s.turns := rfl
@[simp] theorem loadCommand_hostOps (w : Word) (s : State) : (loadCommand w s).hostOps = s.hostOps := rfl
@[simp] theorem loadCommand_replies (w : Word) (s : State) : (loadCommand w s).replies = s.replies := rfl
@[simp] theorem loadCommand_freeDraws (w : Word) (s : State) : (loadCommand w s).freeDraws = s.freeDraws := rfl

end Sys2Proof.Machine
end

