-- ==== Sys2Proof/Laws/Buffer.lean ====
section
/-! SUPPORT. The laws of BUF: read after write, and that every operation on it keeps its canonical form. -/

namespace Sys2Proof.Machine

@[simp] theorem bufRead_nil (i : Nat) : bufRead [] i = none := rfl

/-- Reading BUF after a write: the written byte there, the old contents elsewhere. -/
theorem bufRead_bufWrite (m : Memory) (i k : Nat) (b : Byte) :
    bufRead (bufWrite m i b) k = if k = i then some b else bufRead m k := by
  induction m with
  | nil => simp [bufWrite, bufRead, eq_comm]
  | cons c m ih =>
    obtain ⟨a, x⟩ := c
    simp only [bufWrite]
    split
    · simp only [bufRead]
      grind
    · split
      · simp only [bufRead]
        grind
      · simp only [bufRead, ih]
        grind

@[simp] theorem bufRead_bufWrite_same (m : Memory) (i : Nat) (b : Byte) : bufRead (bufWrite m i b) i = some b := by
  simp [bufRead_bufWrite]

theorem bufRead_bufWrite_other {m : Memory} {i k : Nat} {b : Byte} (h : k ≠ i) :
    bufRead (bufWrite m i b) k = bufRead m k := by
  simp [bufRead_bufWrite, h]

theorem memRising_mono {lo lo' : Nat} {m : Memory} (h : lo' ≤ lo) (hm : memRising lo m = true) :
    memRising lo' m = true := by
  cases m with
  | nil => rfl
  | cons c m =>
    simp only [memRising, Bool.and_eq_true, decide_eq_true_eq] at hm ⊢
    exact ⟨by omega, hm.2⟩

theorem memRising_bufWrite {lo i : Nat} {m : Memory} {b : Byte} (hi : lo ≤ i) (hm : memRising lo m = true) :
    memRising lo (bufWrite m i b) = true := by
  induction m generalizing lo with
  | nil => simp [bufWrite, memRising, hi]
  | cons c m ih =>
    obtain ⟨a, x⟩ := c
    simp only [memRising, Bool.and_eq_true, decide_eq_true_eq] at hm
    simp only [bufWrite]
    split
    · simp only [memRising, Bool.and_eq_true, decide_eq_true_eq]
      exact ⟨hi, by omega, hm.2⟩
    · split
      · simp only [memRising, Bool.and_eq_true, decide_eq_true_eq]
        exact ⟨hi, by subst_vars; exact hm.2⟩
      · simp only [memRising, Bool.and_eq_true, decide_eq_true_eq]
        exact ⟨hm.1, ih (by omega) hm.2⟩

theorem all_below_bufWrite {n i : Nat} {m : Memory} {b : Byte} (hi : i < n)
    (hm : m.all (fun c => decide (c.1 < n)) = true) :
    (bufWrite m i b).all (fun c => decide (c.1 < n)) = true := by
  induction m with
  | nil => simp [bufWrite, hi]
  | cons c m ih =>
    obtain ⟨a, x⟩ := c
    simp only [List.all_cons, Bool.and_eq_true, decide_eq_true_eq] at hm
    simp only [bufWrite]
    split
    · simp only [List.all_cons, Bool.and_eq_true, decide_eq_true_eq]
      exact ⟨hi, hm.1, hm.2⟩
    · split
      · simp only [List.all_cons, Bool.and_eq_true, decide_eq_true_eq]
        exact ⟨hi, hm.2⟩
      · simp only [List.all_cons, Bool.and_eq_true, decide_eq_true_eq]
        exact ⟨hm.1, ih hm.2⟩

@[simp] theorem Memory.wf_nil (n : Nat) : Memory.wf n [] = true := rfl

/-- A write inside BUF keeps the canonical form. -/
theorem Memory.wf_bufWrite {n i : Nat} {m : Memory} {b : Byte} (hi : i < n) (hm : Memory.wf n m = true) :
    Memory.wf n (bufWrite m i b) = true := by
  simp only [Memory.wf, Bool.and_eq_true] at hm ⊢
  exact ⟨memRising_bufWrite (by omega) hm.1, all_below_bufWrite hi hm.2⟩

/-- A 16-byte write (of any size) inside BUF keeps the canonical form. -/
theorem Memory.wf_memWrite {n k i : Nat} {m : Memory} {v : Value} (hi : i + k ≤ n) (hm : Memory.wf n m = true) :
    Memory.wf n (memWrite m i k v) = true := by
  induction k generalizing i m with
  | zero => exact hm
  | succ k ih => exact ih (by omega) (Memory.wf_bufWrite (by omega) hm)

/-- A text inside BUF keeps the canonical form. -/
theorem Memory.wf_writeText {n i : Nat} {ds : List Digit} {m : Memory} (hi : i + ds.length ≤ n)
    (hm : Memory.wf n m = true) : Memory.wf n (writeText i ds m) = true := by
  induction ds generalizing i m with
  | nil => exact hm
  | cons d ds ih =>
    simp only [List.length_cons] at hi
    exact ih (by omega) (Memory.wf_bufWrite (by omega) hm)

theorem bufRead_eq_none_of_lt {lo i : Nat} {m : Memory} (h : i < lo) (hm : memRising lo m = true) :
    bufRead m i = none := by
  induction m generalizing lo with
  | nil => rfl
  | cons c m ih =>
    obtain ⟨a, b⟩ := c
    simp only [memRising, Bool.and_eq_true, decide_eq_true_eq] at hm
    simp only [bufRead]
    rw [if_neg (by omega)]
    exact ih (by omega) hm.2

/-- In the canonical form equal contents are equal data. -/
theorem memRising_ext {lo : Nat} {m m' : Memory} (hm : memRising lo m = true) (hm' : memRising lo m' = true)
    (h : ∀ i, bufRead m i = bufRead m' i) : m = m' := by
  induction m generalizing lo m' with
  | nil =>
    cases m' with
    | nil => rfl
    | cons c' m' => simpa [bufRead] using h c'.1
  | cons c m ih =>
    obtain ⟨a, b⟩ := c
    cases m' with
    | nil => simpa [bufRead] using h a
    | cons c' m' =>
      obtain ⟨a', b'⟩ := c'
      simp only [memRising, Bool.and_eq_true, decide_eq_true_eq] at hm hm'
      have hlt : ∀ {x y : Nat} {z : Memory}, x < y + 1 → memRising (y + 1) z = true → bufRead z x = none :=
        fun hx hz => bufRead_eq_none_of_lt hx hz
      have haa : a = a' := by
        by_contra hne
        rcases Nat.lt_or_gt_of_ne hne with hl | hl
        · have := h a
          simp only [bufRead, if_true] at this
          rw [if_neg (by omega), hlt (by omega) hm'.2] at this
          cases this
        · have := h a'
          simp only [bufRead, if_true] at this
          rw [if_neg (by omega), hlt (by omega) hm.2] at this
          cases this
      subst haa
      have hbb : b = b' := by simpa [bufRead] using h a
      subst hbb
      congr 1
      refine ih hm.2 hm'.2 fun i => ?_
      by_cases hi : a = i
      · subst hi
        rw [hlt (by omega) hm.2, hlt (by omega) hm'.2]
      · simpa [bufRead, hi] using h i

/-- The byte of a value that MemWrite puts at offset k of n (20_memory.md R55). -/
theorem bufRead_memWrite (n i : Nat) (m : Memory) (v : Value) (k : Nat) :
    bufRead (memWrite m i n v) k =
      if i ≤ k ∧ k < i + n then some (v.extractLsb' (8 * (i + n - 1 - k)) 8) else bufRead m k := by
  induction n generalizing i m with
  | zero => simp [memWrite]
  | succ n ih =>
    simp only [memWrite, ih, bufRead_bufWrite]
    by_cases hk : k = i
    · subst hk
      rw [if_neg (by omega), if_pos rfl, if_pos (by omega)]
      congr 3
      omega
    · by_cases h : i + 1 ≤ k ∧ k < i + 1 + n
      · rw [if_pos h, if_pos (by omega)]
        congr 3
        omega
      · rw [if_neg h, if_neg hk, if_neg (by omega)]

/-- The text that writeText puts into BUF (41_encoder.md R103). -/
theorem bufRead_writeText (ds : List Digit) (i : Nat) (m : Memory) (k : Nat) :
    bufRead (writeText i ds m) k =
      if h : i ≤ k ∧ k < i + ds.length then some (alpha (ds[k - i]'(by omega))) else bufRead m k := by
  induction ds generalizing i m with
  | nil => simp [writeText]
  | cons d ds ih =>
    simp only [writeText, ih, bufRead_bufWrite, List.length_cons]
    by_cases hk : k = i
    · subst hk
      rw [dif_neg (by omega), if_pos rfl, dif_pos (by omega)]
      simp
    · by_cases h : i + 1 ≤ k ∧ k < i + 1 + ds.length
      · rw [dif_pos h, dif_pos (by omega)]
        obtain ⟨e, he⟩ : ∃ e, k = i + 1 + e := ⟨k - (i + 1), by omega⟩
        subst he
        have h1 : i + 1 + e - (i + 1) = e := by omega
        have h2 : i + 1 + e - i = e + 1 := by omega
        simp [h1, h2]
      · rw [dif_neg h, if_neg hk, dif_neg (by omega)]

end Sys2Proof.Machine
end

