-- ==== Sys2Proof/Laws/Digits.lean ====
section
/-! SUPPORT. The laws of the alphabet, of the digit sequence and of its value. -/

namespace Sys2Proof.Machine

/-- REV[ALPHA[d]] = d (10_state.md R36). -/
@[simp] theorem rev_alpha (d : Digit) : rev (alpha d) = some d := by
  revert d; decide

@[simp] theorem lowDigit_val (v : Nat) : (lowDigit v).val = v % 62 := rfl

@[simp] theorem horner_nil (acc : Nat) : horner acc [] = acc := rfl

theorem horner_append (acc : Nat) (ds es : List Digit) : horner acc (ds ++ es) = horner (horner acc ds) es := by
  induction ds generalizing acc with
  | nil => rfl
  | cons d ds ih => exact ih _

/-- The value onto `acc` is that of `acc` moved up by the digits' count, and the digits' own. -/
theorem horner_eq (acc : Nat) (ds : List Digit) : horner acc ds = acc * 62 ^ ds.length + horner 0 ds := by
  induction ds generalizing acc with
  | nil => simp [horner]
  | cons d ds ih =>
    rw [horner, ih, horner, ih (0 * 62 + d.val), List.length_cons, pow_succ]
    ring

theorem horner_lt (ds : List Digit) : horner 0 ds < 62 ^ ds.length := by
  induction ds with
  | nil => simp
  | cons d ds ih =>
    rw [horner, horner_eq, List.length_cons, pow_succ]
    have := d.isLt
    nlinarith [show 0 < 62 ^ ds.length by positivity]

theorem le_horner (acc : Nat) (ds : List Digit) : acc ≤ horner acc ds := by
  rw [horner_eq]
  exact Nat.le_add_right_of_le (Nat.le_mul_of_pos_right _ (by positivity))

@[simp] theorem digitsLow_zero (v : Nat) : digitsLow 0 v = [] := rfl

theorem digitsLow_succ (fuel v : Nat) :
    digitsLow (fuel + 1) v = lowDigit v :: (if v / 62 = 0 then [] else digitsLow fuel (v / 62)) := rfl

theorem digitsLow_length_le (fuel v : Nat) : (digitsLow fuel v).length ≤ fuel := by
  induction fuel generalizing v with
  | zero => simp
  | succ fuel ih =>
    rw [digitsLow_succ]
    split
    · simp
    · simpa using ih (v / 62)

theorem digitsLow_length_pos (fuel v : Nat) : 0 < (digitsLow (fuel + 1) v).length := by
  simp [digitsLow_succ]

/-- Digit k is the digit of weight 62^k (10_state.md R38). -/
theorem digitsLow_getElem (fuel v k : Nat) (h : k < (digitsLow fuel v).length) :
    (digitsLow fuel v)[k] = digitAt v k := by
  induction fuel generalizing v k with
  | zero => simp at h
  | succ fuel ih =>
    cases k with
    | zero => simp [digitsLow_succ, digitAt]
    | succ k =>
      have h0 : v / 62 ≠ 0 := by
        intro h0
        simp [digitsLow_succ, h0] at h
      have h' : k < (digitsLow fuel (v / 62)).length := by simpa [digitsLow_succ, h0] using h
      have : (digitsLow (fuel + 1) v)[k + 1] = (digitsLow fuel (v / 62))[k] := by
        simp [digitsLow_succ, h0]
      rw [this, ih (v / 62) k h', digitAt, digitAt, pow_succ', Nat.div_div_eq_div_mul]

/-- With enough fuel, more fuel changes nothing. -/
theorem digitsLow_fuel {fuel v : Nat} (hv : v < 62 ^ fuel) (hf : 0 < fuel) (e : Nat) :
    digitsLow (fuel + e) v = digitsLow fuel v := by
  induction fuel generalizing v with
  | zero => omega
  | succ fuel ih =>
    rw [Nat.succ_add, digitsLow_succ, digitsLow_succ]
    split
    · rfl
    · rename_i h0
      have hv' : v / 62 < 62 ^ fuel := by
        rw [Nat.div_lt_iff_lt_mul (by decide), ← pow_succ]
        exact hv
      rw [ih hv' (by
        rcases Nat.eq_zero_or_pos fuel with hz | hz
        · subst hz; omega
        · exact hz)]

/-- The digits of v number k exactly as the bounds of 41_encoder.md R108 say. -/
theorem digitsLow_length_le_iff {fuel v k : Nat} (hv : v < 62 ^ fuel) (hf : 0 < fuel) (hk : 0 < k) :
    (digitsLow fuel v).length ≤ k ↔ v < 62 ^ k := by
  induction fuel generalizing v k with
  | zero => omega
  | succ fuel ih =>
    obtain ⟨k, rfl⟩ : ∃ n, k = n + 1 := ⟨k - 1, by omega⟩
    rw [digitsLow_succ]
    have hdiv : v < 62 ^ (k + 1) ↔ v / 62 < 62 ^ k := by
      rw [Nat.div_lt_iff_lt_mul (by decide), ← pow_succ]
    split
    · rename_i h0
      simp only [List.length_cons, List.length_nil]
      rw [hdiv, h0]
      simp
    · rename_i h0
      have hv' : v / 62 < 62 ^ fuel := by
        rw [Nat.div_lt_iff_lt_mul (by decide), ← pow_succ]
        exact hv
      have hf' : 0 < fuel := by
        rcases Nat.eq_zero_or_pos fuel with hz | hz
        · subst hz; omega
        · exact hz
      rw [hdiv, List.length_cons]
      rcases Nat.eq_zero_or_pos k with hz | hz
      · subst hz
        obtain ⟨f, rfl⟩ : ∃ n, fuel = n + 1 := ⟨fuel - 1, by omega⟩
        have := digitsLow_length_pos f (v / 62)
        constructor
        · omega
        · intro h
          simp only [pow_zero] at h
          omega
      · rw [← ih hv' hf' hz]
        omega

theorem value_lt (v : Value) : v.toNat < 62 ^ 22 := lt_trans v.isLt (by norm_num)

/-- The value of the digits of v is v (41_encoder.md R110). -/
theorem horner_digitsLow {fuel v : Nat} (hv : v < 62 ^ fuel) (hf : 0 < fuel) :
    horner 0 (digitsLow fuel v).reverse = v := by
  induction fuel generalizing v with
  | zero => omega
  | succ fuel ih =>
    rw [digitsLow_succ]
    split
    · simp [horner]
      omega
    · rename_i h0
      have hv' : v / 62 < 62 ^ fuel := by
        rw [Nat.div_lt_iff_lt_mul (by decide), ← pow_succ]
        exact hv
      have hf' : 0 < fuel := by
        rcases Nat.eq_zero_or_pos fuel with hz | hz
        · subst hz; omega
        · exact hz
      rw [List.reverse_cons, horner_append, ih hv' hf']
      simp [horner]
      omega

theorem horner_digits {v : Nat} (hv : v < 62 ^ 22) : horner 0 (digits v) = v :=
  horner_digitsLow hv (by decide)

theorem digits_length_le (v : Nat) : (digits v).length ≤ 22 := by
  simpa [digits, Config.maxDigits] using digitsLow_length_le 22 v

theorem digits_length_pos (v : Nat) : 0 < (digits v).length := by
  simpa [digits, Config.maxDigits] using digitsLow_length_pos 21 v

/-- The digits, most significant first, are those of falling weight. -/
theorem digits_getElem (v k : Nat) (h : k < (digits v).length) :
    (digits v)[k] = digitAt v ((digits v).length - 1 - k) := by
  have hl : (digits v).length = (digitsLow Config.maxDigits v).length := by simp [digits]
  have : (digits v)[k] = (digitsLow Config.maxDigits v)[(digits v).length - 1 - k]'(by omega) := by
    simp [digits, List.getElem_reverse]
  rw [this, digitsLow_getElem]

/-- The first digit is not 0 but for v < 62 (41_encoder.md R101). -/
theorem digits_head_ne_zero {v : Nat} (hv : v < 62 ^ 22) (h : 0 < v) :
    (digits v)[0]'(digits_length_pos v) ≠ 0 := by
  have hp := digits_length_pos v
  rw [digits_getElem]
  intro h0
  have h1 : v / 62 ^ ((digits v).length - 1) % 62 = 0 := by
    simpa [digitAt, lowDigit, Fin.ext_iff] using h0
  have hl : (digits v).length = (digitsLow 22 v).length := by simp [digits, Config.maxDigits]
  have hlt : v < 62 ^ (digits v).length := by
    rw [hl]
    exact (digitsLow_length_le_iff hv (by decide) (by omega)).1 le_rfl
  have hge : 62 ^ ((digits v).length - 1) ≤ v := by
    rcases Nat.eq_or_lt_of_le (show 1 ≤ (digits v).length by omega) with he | he
    · simp [← he]; omega
    · by_contra hc
      have := (digitsLow_length_le_iff hv (by decide) (k := (digits v).length - 1) (by omega)).2 (by omega)
      omega
  have h2 : v / 62 ^ ((digits v).length - 1) < 62 := by
    rw [Nat.div_lt_iff_lt_mul (by positivity), ← pow_succ']
    rwa [show (digits v).length - 1 + 1 = (digits v).length by omega]
  have h3 : 0 < v / 62 ^ ((digits v).length - 1) := Nat.div_pos hge (by positivity)
  omega

/-- DIG after the digits ds went in at i. -/
theorem storeDigits_getElem (ds : List Digit) (i : Nat) (dig : Vector Digit 22) (k : Nat) (hk : k < 22) :
    (storeDigits i ds dig)[k] = if h : i ≤ k ∧ k < i + ds.length then ds[k - i]'(by omega) else dig[k] := by
  induction ds generalizing i dig with
  | nil => simp [storeDigits]
  | cons d ds ih =>
    simp only [storeDigits, ih, List.length_cons]
    by_cases hki : k = i
    · subst hki
      rw [dif_neg (by omega), dif_pos (by omega)]
      simp
    · by_cases h : i + 1 ≤ k ∧ k < i + 1 + ds.length
      · rw [dif_pos h, dif_pos (by omega)]
        obtain ⟨e, rfl⟩ : ∃ e, k = i + 1 + e := ⟨k - (i + 1), by omega⟩
        have h1 : i + 1 + e - (i + 1) = e := by omega
        have h2 : i + 1 + e - i = e + 1 := by omega
        simp [h1, h2]
      · rw [dif_neg h, dif_neg (by omega), Vector.getElem_setIfInBounds]
        simp [Ne.symm hki]

end Sys2Proof.Machine
end

