-- ==== Sys2Proof/Laws/Encoder.lean ====
section
/-! SUPPORT. What ENC does, said once, as a command (41_encoder.md R100 to R105) and as its ENC_WRITE step (R107). -/

namespace Sys2Proof.Machine

/-- The digit count of v is at most k exactly when v is below 62^k (41_encoder.md R108). -/
theorem digits_length_le_iff {v k : Nat} (hv : v < 62 ^ 22) (hk : 0 < k) : (digits v).length ≤ k ↔ v < 62 ^ k := by
  have := digitsLow_length_le_iff hv (by decide) hk
  simpa [digits, Config.maxDigits] using this

/-- The digit count fits the RLEN field (10_state.md R30). -/
theorem digits_length_byte {v : Nat} : (BitVec.ofNat 8 (digits v).length).toNat = (digits v).length := by
  have := digits_length_le v
  simp; omega

/-- ENC with enough capacity (41_encoder.md R103). -/
theorem exec_enc_fits {s : State} {len : BitVec 8} (hw : s.valWritten = true) (h : len.toNat ≤ s.bufBytes)
    (hk : (digits s.val.toNat).length ≤ len.toNat) :
    exec (.enc len) s = .next (finish .none (BitVec.ofNat 8 (digits s.val.toNat).length) 0 0
      (leaveText (digits s.val.toNat) (leaveDivmod (digits s.val.toNat).reverse s))) := by
  simp only [exec, execEnc, valRead_written hw]
  rw [if_neg (by omega), if_neg (by omega)]

/-- ENC with too little capacity (41_encoder.md R102). -/
theorem exec_enc_capacity {s : State} {len : BitVec 8} (hw : s.valWritten = true) (h : len.toNat ≤ s.bufBytes)
    (hk : len.toNat < (digits s.val.toNat).length) :
    exec (.enc len) s =
      .next (raiseErr .encodeCapacity 0 0 (leaveDivmod (digits s.val.toNat).reverse s)) := by
  simp only [exec, execEnc, valRead_written hw]
  rw [if_neg (by omega), if_pos (by omega)]

/-- ENC with LEN over BUF_BYTES (30_encoding.md R87). -/
theorem exec_enc_illegal {s : State} {len : BitVec 8} (h : s.bufBytes < len.toNat) :
   exec (.enc len) s = .next (raiseErr .illegalCmd 0 0 s) := by
  simp only [exec, execEnc]
  rw [if_pos (by omega)]

/-- ENC of a VAL never written (10_state.md R44). -/
theorem exec_enc_unwritten {s : State} {len : BitVec 8} (hw : s.valWritten = false) (h : len.toNat ≤ s.bufBytes) :
    exec (.enc len) s = .fault .unwrittenVal := by
  simp only [exec, execEnc, valRead_unwritten hw]
  rw [if_neg (by omega)]

/-- Everything ENC can do when it completes. -/
theorem exec_enc_cases {s t : State} {len : BitVec 8} (h : exec (.enc len) s = .next t) :
    (s.bufBytes < len.toNat ∧ t = raiseErr .illegalCmd 0 0 s) ∨
    (s.valWritten = true ∧ len.toNat ≤ s.bufBytes ∧ len.toNat < (digits s.val.toNat).length ∧
      t = raiseErr .encodeCapacity 0 0 (leaveDivmod (digits s.val.toNat).reverse s)) ∨
    (s.valWritten = true ∧ len.toNat ≤ s.bufBytes ∧ (digits s.val.toNat).length ≤ len.toNat ∧
      t = finish .none (BitVec.ofNat 8 (digits s.val.toNat).length) 0 0
        (leaveText (digits s.val.toNat) (leaveDivmod (digits s.val.toNat).reverse s))) := by
  by_cases h1 : len.toNat ≤ s.bufBytes
  · cases hw : s.valWritten with
    | false => rw [exec_enc_unwritten hw h1] at h; cases h
    | true =>
      by_cases h2 : (digits s.val.toNat).length ≤ len.toNat
      · rw [exec_enc_fits hw h1 h2] at h; cases h; exact .inr (.inr ⟨rfl, h1, h2, rfl⟩)
      · rw [exec_enc_capacity hw h1 (by omega)] at h; cases h; exact .inr (.inl ⟨rfl, h1, by omega, rfl⟩)
  · rw [exec_enc_illegal (by omega)] at h; cases h; exact .inl ⟨by omega, rfl⟩

/-- Everything ENC's dispatch can do when it goes on (30_encoding.md R88). -/
theorem dispatchEnc_cases {s t : State} {len : BitVec 8} (h : dispatchEnc len s = .next t) :
    (s.bufBytes < len.toNat ∧ t = raiseErr .illegalCmd 0 0 s) ∨
    (s.valWritten = true ∧ len.toNat ≤ s.bufBytes ∧ t = { s with q := s.val, cnt := 0, phase := .encDiv }) := by
  unfold dispatchEnc at h
  by_cases hl : len.toNat > s.bufBytes
  · rw [if_pos hl] at h; cases h; exact .inl ⟨hl, rfl⟩
  · rw [if_neg hl] at h
    by_cases hw : s.valWritten = true
    · rw [valRead_written hw] at h; cases h; exact .inr ⟨hw, by omega, rfl⟩
    · rw [valRead_unwritten (by simpa using hw)] at h; cases h

/-- One more digit stored. -/
theorem storeDigits_snoc (ds : List Digit) (i : Nat) (d : Digit) (dig : Vector Digit 22) :
    storeDigits i (ds ++ [d]) dig = (storeDigits i ds dig).setIfInBounds (i + ds.length) d := by
  induction ds generalizing i dig with
  | nil => simp [storeDigits]
  | cons x xs ih => simp only [List.cons_append, storeDigits, ih, List.length_cons]; congr 1; omega

/-- One more character written. -/
theorem writeText_snoc (ds : List Digit) (i : Nat) (d : Digit) (m : Memory) :
    writeText i (ds ++ [d]) m = bufWrite (writeText i ds m) (i + ds.length) (alpha d) := by
  induction ds generalizing i m with
  | nil => simp [writeText]
  | cons x xs ih => simp only [List.cons_append, writeText, ih, List.length_cons]; congr 1; omega

/-- An ENC_WRITE step with its counters in range (41_encoder.md R107). -/
theorem encWriteStep_eq {s : State} (h1 : s.j.toNat < s.cnt.toNat) (h2 : s.cnt.toNat ≤ 22)
    (h3 : s.j.toNat < s.bufBytes) :
    encWriteStep s =
      (let s1 := { s with
        buf := bufWrite s.buf s.j.toNat (alpha (s.dig[s.cnt.toNat - 1 - s.j.toNat]'(by omega))), j := s.j + 1 }
      if s1.j = s1.cnt then .next (finish .none (BitVec.ofNat 8 s.cnt.toNat) 0 0 s1) else .next s1) := by
  unfold encWriteStep
  rw [dif_pos ⟨h1, h2, h3⟩]

end Sys2Proof.Machine
end

