-- ==== Sys2Proof/Laws/Adapters.lean ====
section
/-! SUPPORT. What LDB and STB do, said once (43_adapters.md R160 to R162), and MemRead (20_memory.md R55). -/

namespace Sys2Proof.Machine

/-- MemRead over written bytes: their big-endian value. -/
theorem memRead_ok {m : Memory} {n i acc : Nat} (h : ∀ k, k < n → (bufRead m (i + k)).isSome) :
    ∃ v, memRead m i n acc = .ok v ∧ v < (acc + 1) * 256 ^ n ∧ acc * 256 ^ n ≤ v ∧
      ∀ k, k < n → bufRead m (i + k) = some (BitVec.ofNat 8 (v / 256 ^ (n - 1 - k))) := by
  induction n generalizing i acc with
  | zero => exact ⟨acc, rfl, by simp, by simp, by omega⟩
  | succ n ih =>
    have h0 := h 0 (by omega)
    rw [Nat.add_zero, Option.isSome_iff_exists] at h0
    obtain ⟨b, hb⟩ := h0
    obtain ⟨v, hv, hlt, hle, hk⟩ := ih (i := i + 1) (acc := acc * 256 + b.toNat) (fun k hk => by
      have := h (k+1) (by omega); rwa [show i + (k+1) = i + 1 + k by omega] at this)
    have hbl := b.isLt
    refine ⟨v, by simp only [memRead, hb]; exact hv, ?_, ?_, ?_⟩
    · rw [pow_succ]
      calc v < (acc * 256 + b.toNat + 1) * 256 ^ n := hlt
        _ ≤ ((acc + 1) * 256) * 256 ^ n := Nat.mul_le_mul_right _ (by omega)
        _ = _ := by ring
    · rw [pow_succ]
      calc acc * (256 ^ n * 256) = (acc * 256) * 256 ^ n := by ring
        _ ≤ (acc * 256 + b.toNat) * 256 ^ n := Nat.mul_le_mul_right _ (by omega)
        _ ≤ v := hle
    · intro k hkn
      cases k with
      | zero =>
        rw [Nat.add_zero, hb]
        congr 1
        have : v / 256 ^ n = acc * 256 + b.toNat := by
          apply Nat.div_eq_of_lt_le
          · exact hle
          · exact hlt
        rw [show n + 1 - 1 - 0 = n by omega, this]
        apply BitVec.eq_of_toNat_eq; simp; omega
      | succ k =>
        rw [show i + (k + 1) = i + 1 + k by omega, hk k (by omega)]
        rw [show n + 1 - 1 - (k + 1) = n - 1 - k by omega]

/-- MemRead stops at the first unwritten byte. -/
theorem memRead_error {m : Memory} {n i acc j : Nat} (hj : j < n) (h : ∀ k, k < j → (bufRead m (i + k)).isSome)
    (hn : bufRead m (i + j) = none) : memRead m i n acc = .error (i + j) := by
  induction n generalizing i acc j with
  | zero => omega
  | succ n ih =>
    cases j with
    | zero => rw [Nat.add_zero] at hn; simp [memRead, hn]
    | succ j =>
      have h0 := h 0 (by omega)
      rw [Nat.add_zero, Option.isSome_iff_exists] at h0
      obtain ⟨b, hb⟩ := h0
      simp only [memRead, hb]
      rw [ih (by omega : j < n)]
      · congr 1; omega
      · intro k hk; have := h (k+1) (by omega); rwa [show i + (k+1) = i + 1 + k by omega] at this
      · rw [show i + 1 + j = i + (j+1) by omega]; exact hn

/-- The 16-byte read of LDB, byte by byte. -/
theorem memRead16 {m : Memory} (h : ∀ k, k < 16 → (bufRead m k).isSome) :
    ∃ v, memRead m 0 16 0 = .ok v ∧ ∀ k, k < 16 → bufRead m k = some ((BitVec.ofNat 128 v).extractLsb' (8 * (15 - k)) 8) := by
  obtain ⟨v, hv, hlt, -, hk⟩ := memRead_ok (m := m) (n := 16) (i := 0) (acc := 0) (by simpa using h)
  refine ⟨v, hv, fun k hk' => ?_⟩
  have := hk k hk'
  rw [Nat.zero_add] at this
  rw [this]; congr 1
  apply BitVec.eq_of_toNat_eq
  simp only [BitVec.extractLsb'_toNat, BitVec.toNat_ofNat]
  rw [Nat.mod_eq_of_lt (a := v) (by simpa using hlt), Nat.shiftRight_eq_div_pow, show (256 : Nat) = 2 ^ 8
      from rfl, ← pow_mul]

/-- The 16-byte read finds every byte written, or stops at one that is not. -/
theorem memRead_written_or_error {m : Memory} : (∃ i, i < 16 ∧ bufRead m i = none ∧ memRead m 0 16 0 = .error i) ∨
    ∀ k, k < 16 → (bufRead m k).isSome := by
  by_cases h : ∀ k, k < 16 → (bufRead m k).isSome
  · exact .inr h
  · left
    simp only [not_forall] at h
    classical
    have hf := Nat.find_spec (p := fun k => ∃ (_ : k < 16), ¬ (bufRead m k).isSome = true) h
    obtain ⟨h1, h2⟩ := hf
    have h3 : bufRead m (Nat.find h) = none := by simpa using h2
    refine ⟨_, h1, h3, ?_⟩
    have := memRead_error (m := m) (i := 0) (acc := 0) h1 (fun k hk => by
      have := Nat.find_min h hk
      simp only [not_exists, not_not] at this
      rw [Nat.zero_add]; exact this (by omega)) (by rwa [Nat.zero_add])
    rwa [Nat.zero_add] at this

/-- A Value is its 16 bytes. -/
theorem value_ext_bytes {v w : Value}
    (h : ∀ k, k < 16 → v.extractLsb' (8 * (15 - k)) 8 = w.extractLsb' (8 * (15 - k)) 8) : v = w := by
  apply BitVec.eq_of_getLsbD_eq
  intro i hi
  have := congrArg (fun x => x.getLsbD (i % 8)) (h (15 - i / 8) (by omega))
  simp only [BitVec.getLsbD_extractLsb'] at this
  have e : 8 * (15 - (15 - i/8)) + i % 8 = i := by omega
  rw [e] at this
  simpa [show i % 8 < 8 by omega] using this

/-- Everything LDB can do. -/
theorem exec_ldb_cases {s t : State} {len : BitVec 8} (h : exec (.ldb len) s = .next t) :
   (len ≠ 16 ∧ t = raiseErr .invalidInput 0 0 s) ∨ (len = 16 ∧ ∃ v, memRead s.buf 0 16 0 = .ok v ∧
      t = finish .none 0 0 0 (writeVal (BitVec.ofNat 128 v) s)) := by
  simp only [exec, execLdb] at h
  split at h
  · cases h; exact .inl ⟨by assumption, rfl⟩
  · cases hm : memRead s.buf 0 16 0 with
    | error i => simp [hm] at h
    | ok v => simp only [hm] at h; cases h; exact .inr ⟨by simp_all, v, rfl, rfl⟩

/-- STB of a written VAL (43_adapters.md R162). -/
theorem exec_stb_written {s : State} (hw : s.valWritten = true) : exec .stb s = .next { s with
      phase := .idle, done := true, err := 0, rlen := 16, epos := 0, ebyte := 0, buf := memWrite s.buf 0 16 s.val } := by
  simp only [exec, execStb, valRead_written hw]
  rfl

/-- STB of a VAL never written (10_state.md R44). -/
theorem exec_stb_unwritten {s : State} (hw : s.valWritten = false) : exec .stb s = .fault .unwrittenVal := by
  simp only [exec, execStb, valRead_unwritten hw]

/-- Everything STB can do when it completes. -/
theorem exec_stb_cases {s t : State} (h : exec .stb s = .next t) : s.valWritten = true ∧ t = { s with
      phase := .idle, done := true, err := 0, rlen := 16, epos := 0, ebyte := 0, buf := memWrite s.buf 0 16 s.val } := by
  by_cases hw : s.valWritten = true
  · rw [exec_stb_written hw] at h; cases h; exact ⟨hw, rfl⟩
  · rw [exec_stb_unwritten (by simpa using hw)] at h; cases h

end Sys2Proof.Machine
end

