-- ==== Sys2Proof/Laws/Decoder.lean ====
section
/-! SUPPORT. What the decoder's loop does, said once (42_decoder.md R130 to R134). -/

namespace Sys2Proof.Machine

@[simp] theorem bufDigits_zero (m : Memory) (i : Nat) : bufDigits m i 0 = some [] := rfl

theorem bufDigits_succ {m : Memory} {i n : Nat} {b : Byte} {d : Digit} (hb : bufRead m i = some b) (hd : rev b = some d) :
    bufDigits m i (n + 1) = (bufDigits m (i + 1) n).map (d :: ·) := by
  simp [bufDigits, hb, hd]

/-- A digit string in BUF starts with a digit in BUF. -/
theorem bufDigits_succ_some {m : Memory} {i n : Nat} {ds : List Digit} (h : bufDigits m i (n + 1) = some ds) :
    ∃ b d es, bufRead m i = some b ∧ rev b = some d ∧ bufDigits m (i + 1) n = some es ∧ ds = d :: es := by
  rw [bufDigits] at h
  split at h
  · cases h
  · rename_i b hb
    split at h
    · cases h
    · rename_i d hd
      cases he : bufDigits m (i + 1) n with
      | none => simp [he] at h
      | some es =>
        simp only [he, Option.map_some, Option.some.injEq] at h
        exact ⟨b, d, es, hb, hd, rfl, h.symm⟩

theorem bufDigits_length {m : Memory} {i n : Nat} {ds : List Digit} (h : bufDigits m i n = some ds) : ds.length = n := by
  induction n generalizing i ds with
  | zero => simp only [bufDigits_zero, Option.some.injEq] at h; simp [← h]
  | succ n ih =>
    obtain ⟨b, d, es, -, -, he, rfl⟩ := bufDigits_succ_some h
    simp [ih he]

/-- A digit string in BUF, character by character. -/
theorem bufDigits_eq_some_iff {m : Memory} {i n : Nat} {ds : List Digit} :
    bufDigits m i n = some ds ↔
      ds.length = n ∧ ∀ k (h : k < ds.length), ∃ b, bufRead m (i + k) = some b ∧ rev b = some ds[k] := by
  induction n generalizing i ds with
  | zero =>
    simp only [bufDigits_zero, Option.some.injEq, List.length_eq_zero_iff]
    constructor
    · rintro rfl; simp
    · rintro ⟨rfl, -⟩; rfl
  | succ n ih =>
    constructor
    · intro h
      obtain ⟨b, d, es, hb, hd, he, rfl⟩ := bufDigits_succ_some h
      obtain ⟨hl, hes⟩ := ih.1 he
      refine ⟨by simp [hl], fun k hk => ?_⟩
      cases k with
      | zero => exact ⟨b, hb, hd⟩
      | succ k =>
        obtain ⟨b', hb', hd'⟩ := hes k (by simpa using hk)
        exact ⟨b', by rw [← hb']; congr 1; omega, by simpa using hd'⟩
    · rintro ⟨hl, hds⟩
      cases ds with
      | nil => simp at hl
      | cons d es =>
        obtain ⟨b, hb, hd⟩ := hds 0 (by simp)
        rw [Nat.add_zero] at hb
        rw [bufDigits_succ hb hd, ih.2 ⟨by simpa using hl, fun k hk => ?_⟩]
        · rfl
        · obtain ⟨b', hb', hd'⟩ := hds (k + 1) (by simpa using hk)
          exact ⟨b', by rw [← hb']; congr 1; omega, by simpa using hd'⟩

/-- The loop passes a valid text whose value stays in range. -/
theorem decLoop_prefix {m : Memory} {i a acc : Nat} {ds : List Digit} (b : Nat) (h : bufDigits m i a = some ds)
    (hv : horner acc ds ≤ Config.valueMax) : decLoop m (a + b) i acc = decLoop m b (i + a) (horner acc ds) := by
  induction a generalizing i acc ds with
  | zero =>
    simp only [bufDigits_zero, Option.some.injEq] at h
    subst h
    simp
  | succ a ih =>
    obtain ⟨x, d, es, hx, hd, he, rfl⟩ := bufDigits_succ_some h
    rw [horner] at hv
    have hle := le_horner (acc * 62 + d.val) es
    rw [show a + 1 + b = (a + b) + 1 by omega]
    simp only [decLoop, hx, hd]
    rw [if_neg (by omega), ih he hv, horner, show i + 1 + a = i + (a + 1) by omega]

/-- What the loop's result says of BUF: the digits before the place it ended, their value, and why it ended there. -/
def DecResult.Explains (m : Memory) (n i acc : Nat) : DecResult → Prop
  | .decoded v => ∃ ds, bufDigits m i n = some ds ∧ v = horner acc ds ∧ v ≤ Config.valueMax
  | .invalidChar k b v => k < i + n ∧ i ≤ k ∧ ∃ ds, bufDigits m i (k - i) = some ds ∧ v = horner acc ds ∧
      v ≤ Config.valueMax ∧ bufRead m k = some b ∧ rev b = none
  | .overflow k b v => k < i + n ∧ i ≤ k ∧ ∃ ds d, bufDigits m i (k - i) = some ds ∧ v = horner acc ds ∧
      v ≤ Config.valueMax ∧ bufRead m k = some b ∧ rev b = some d ∧ v * 62 + d.val > Config.valueMax
  | .unwritten k => k < i + n ∧ i ≤ k ∧ ∃ ds, bufDigits m i (k - i) = some ds ∧ horner acc ds ≤ Config.valueMax ∧
      bufRead m k = none

theorem decLoop_explains (m : Memory) (n i acc : Nat) (ha : acc ≤ Config.valueMax) :
    (decLoop m n i acc).Explains m n i acc := by
  induction n generalizing i acc with
  | zero => exact ⟨[], rfl, rfl, ha⟩
  | succ n ih =>
    rw [decLoop]
    split
    · rename_i hb
      exact ⟨by omega, by omega, [], by simp, by simpa using ha, hb⟩
    · rename_i b hb
      split
      · rename_i hd
        exact ⟨by omega, by omega, [], by simp, rfl, ha, hb, hd⟩
      · rename_i d hd
        split
        · rename_i ho
          exact ⟨by omega, by omega, [], d, by simp, rfl, ha, hb, hd, ho⟩
        · rename_i ho
          have hih := ih (i + 1) (acc * 62 + d.val) (by omega)
          have hstep : ∀ k, i + 1 ≤ k → ∀ ds, bufDigits m (i + 1) (k - (i + 1)) = some ds →
              bufDigits m i (k - i) = some (d :: ds) := by
            intro k hk ds hds
            rw [show k - i = (k - (i + 1)) + 1 by omega, bufDigits_succ hb hd, hds]
            rfl
          revert hih
          cases decLoop m n (i + 1) (acc * 62 + d.val) with
          | decoded v =>
            rintro ⟨ds, hds, hv, hm⟩
            exact ⟨d :: ds, by rw [bufDigits_succ hb hd, hds]; rfl, hv, hm⟩
          | invalidChar k b' v =>
            rintro ⟨h1, h2, ds, hds, hv, hr⟩
            exact ⟨by omega, by omega, d :: ds, hstep k h2 ds hds, hv, hr⟩
          | overflow k b' v =>
            rintro ⟨h1, h2, ds, d', hds, hv, hr⟩
            exact ⟨by omega, by omega, d :: ds, d', hstep k h2 ds hds, hv, hr⟩
          | unwritten k =>
            rintro ⟨h1, h2, ds, hds, hv, hr⟩
            exact ⟨by omega, by omega, d :: ds, hstep k h2 ds hds, hv, hr⟩

theorem decLoop_decoded {m : Memory} {n i acc : Nat} {ds : List Digit} (h : bufDigits m i n = some ds)
    (hv : horner acc ds ≤ Config.valueMax) : decLoop m n i acc = .decoded (horner acc ds) := by
  simpa [decLoop] using decLoop_prefix 0 h hv

theorem decLoop_invalidChar {m : Memory} {n i acc k : Nat} {ds : List Digit} {b : Byte} (hk : k < n)
    (h : bufDigits m i k = some ds) (hv : horner acc ds ≤ Config.valueMax) (hb : bufRead m (i + k) = some b)
    (hd : rev b = none) : decLoop m n i acc = .invalidChar (i + k) b (horner acc ds) := by
  obtain ⟨e, rfl⟩ : ∃ e, n = k + (e + 1) := ⟨n - k - 1, by omega⟩
  rw [decLoop_prefix (e + 1) h hv]
  simp [decLoop, hb, hd]

theorem decLoop_overflow {m : Memory} {n i acc k : Nat} {ds : List Digit} {b : Byte} {d : Digit} (hk : k < n)
    (h : bufDigits m i k = some ds) (hv : horner acc ds ≤ Config.valueMax) (hb : bufRead m (i + k) = some b)
    (hd : rev b = some d) (ho : horner acc ds * 62 + d.val > Config.valueMax) :
    decLoop m n i acc = .overflow (i + k) b (horner acc ds) := by
  obtain ⟨e, rfl⟩ : ∃ e, n = k + (e + 1) := ⟨n - k - 1, by omega⟩
  rw [decLoop_prefix (e + 1) h hv]
  simp only [decLoop, hb, hd]
  rw [if_pos ho]

theorem decLoop_unwritten {m : Memory} {n i acc k : Nat} {ds : List Digit} (hk : k < n)
    (h : bufDigits m i k = some ds) (hv : horner acc ds ≤ Config.valueMax) (hb : bufRead m (i + k) = none) :
    decLoop m n i acc = .unwritten (i + k) := by
  obtain ⟨e, rfl⟩ : ∃ e, n = k + (e + 1) := ⟨n - k - 1, by omega⟩
  rw [decLoop_prefix (e + 1) h hv]
  simp [decLoop, hb]

end Sys2Proof.Machine
end

