-- ==== Sys2Proof/Laws/DecCommand.lean ====
section
/-! SUPPORT. What DEC does, said once, as a command (42_decoder.md R130 to R138). -/

namespace Sys2Proof.Machine

/-- A LEN that is not 0, as a number. -/
theorem length_ne_zero {len : BitVec 8} : len ≠ 0 ↔ len.toNat ≠ 0 := by
  rw [ne_eq, ← BitVec.toNat_inj]; rfl

/-- An index below LEN fits the EPOS field (10_state.md R31). -/
theorem index_byte {i : Nat} {len : BitVec 8} (h : i < len.toNat) : (BitVec.ofNat 8 i).toNat = i := by
  simp; omega

/-- DEC past its checks of LEN is its loop. -/
theorem exec_dec_runs {s : State} {len : BitVec 8} (h0 : len ≠ 0) (h : len.toNat ≤ s.bufBytes) :
    exec (.dec len) s = endDec len (decLoop s.buf len.toNat 0 0) s := by
  simp only [exec, execDec]
  rw [if_neg (by omega), if_neg h0]

/-- Everything DEC can do when it completes. -/
theorem exec_dec_cases {s t : State} {len : BitVec 8} (h : exec (.dec len) s = .next t) :
    (s.bufBytes < len.toNat ∧ t = raiseErr .illegalCmd 0 0 s) ∨
    (len.toNat ≤ s.bufBytes ∧ len = 0 ∧ t = raiseErr .decodeEmpty 0 0 s) ∨
    (len ≠ 0 ∧ len.toNat ≤ s.bufBytes ∧
     ((∃ i b acc, decLoop s.buf len.toNat 0 0 = .invalidChar i b acc ∧
        t = raiseErr .decodeInvalidChar (BitVec.ofNat 8 i) b (leaveHorner acc i s)) ∨
      (∃ i b acc, decLoop s.buf len.toNat 0 0 = .overflow i b acc ∧
        t = raiseErr .decodeOverflow (BitVec.ofNat 8 i) b (leaveHorner acc i s)) ∨
     (∃ acc, decLoop s.buf len.toNat 0 0 = .decoded acc ∧ t = finish .none 0 0 0 (writeVal (BitVec.ofNat 128 acc)
         (leaveHorner acc len.toNat s))))) := by
  simp only [exec, execDec] at h
  split at h
  · cases h; left; exact ⟨by assumption, rfl⟩
  · split at h
    · cases h; right; left; exact ⟨by omega, by assumption, rfl⟩
    · right; right
      refine ⟨by assumption, by omega, ?_⟩
      cases hd : decLoop s.buf len.toNat 0 0 with
      | unwritten i => simp [hd, endDec] at h
      | invalidChar i b acc => simp only [hd, endDec] at h; cases h; exact .inl ⟨_, _, _, rfl, rfl⟩
      | overflow i b acc => simp only [hd, endDec] at h; cases h; exact .inr (.inl ⟨_, _, _, rfl, rfl⟩)
      | decoded acc => simp only [hd, endDec] at h; cases h; exact .inr (.inr ⟨_, rfl, rfl⟩)

/-- A digit string depends on its own bytes only. -/
theorem bufDigits_congr {m m' : Memory} {i n : Nat} (h : ∀ k, k < n → bufRead m' (i + k) = bufRead m (i + k)) :
    bufDigits m' i n = bufDigits m i n := by
  induction n generalizing i with
  | zero => rfl
  | succ n ih =>
    have h0 := h 0 (by omega)
    rw [Nat.add_zero] at h0
    have := ih (i := i + 1) (fun k hk => by have := h (k+1) (by omega); rwa [show i + (k+1) =
        i + 1 + k by omega] at this)
    simp only [bufDigits, h0, this]

/-- The loop depends on its own bytes only. -/
theorem decLoop_congr {m m' : Memory} {n i acc : Nat} (h : ∀ k, k < n → bufRead m' (i + k) = bufRead m (i + k)) :
    decLoop m' n i acc = decLoop m n i acc := by
  induction n generalizing i acc with
  | zero => rfl
  | succ n ih =>
    have h0 := h 0 (by omega)
    rw [Nat.add_zero] at h0
    have := fun a => ih (i := i + 1) (acc := a) (fun k hk => by have := h (k+1) (by omega); rwa [show i + (k+1) =
        i + 1 + k by omega] at this)
    simp only [decLoop, h0, this]

/-- One more digit read. -/
theorem bufDigits_snoc {m : Memory} {i n : Nat} {ds : List Digit} {b : Byte} {d : Digit}
    (h : bufDigits m i n = some ds) (hb : bufRead m (i + n) = some b) (hr : rev b = some d) :
    bufDigits m i (n + 1) = some (ds ++ [d]) := by
  rw [bufDigits_eq_some_iff] at h ⊢
  refine ⟨by simp [h.1], fun k hk => ?_⟩
  simp at hk
  by_cases hkn : k < ds.length
  · obtain ⟨b', h1, h2⟩ := h.2 k hkn
    exact ⟨b', h1, by rw [List.getElem_append_left hkn]; exact h2⟩
  · have : k = ds.length := by omega
    subst this
    refine ⟨b, by rw [h.1]; exact hb, by simpa using hr⟩

end Sys2Proof.Machine
end

