-- ==== Sys2Proof/Laws/PerInstr.lean ====
section
/-! SUPPORT. Statements per constructor of Instr: the fields of every encoded command (30_encoding.md R81 to R85, R92). -/

namespace Sys2Proof.Laws.EncodedFields

/-- An encoded command has its reserved fields 0, its OP and its LEN in place, and is the word that the host syntax writes
(30_encoding.md R81, R84, R92). -/
def Statement (i : Instr) : Prop :=
  rsvHiField (encode i) = 0 ∧ rsvLoField (encode i) = 0 ∧ opField (encode i) = i.opcode ∧
    lenField (encode i) = i.length ∧ encode i = i.opcode.setWidth 32 ||| (i.length.setWidth 32 <<< 8)

theorem enc (len : BitVec 8) : Statement (.enc len) := by
  revert len; unfold Statement; decide

theorem dec (len : BitVec 8) : Statement (.dec len) := by
  revert len; unfold Statement; decide

theorem ldb (len : BitVec 8) : Statement (.ldb len) := by
  revert len; unfold Statement; decide

theorem stb : Statement .stb := by
  unfold Statement; decide

end Sys2Proof.Laws.EncodedFields
end

