-- ==== Sys2Proof/Laws/Decode.lean ====
section
/-! SUPPORT. What the decoder answers, said once. -/

namespace Sys2Proof

/-- The decoder as an if-chain over the OP field (30_encoding.md R82, R87). -/
theorem decode_eq_ite (w : Word) : decode w =
    if rsvHiField w ≠ 0 ∨ rsvLoField w ≠ 0 then .error .reservedBits
    else if opField w = 1 then .ok (.enc (lenField w))
    else if opField w = 2 then .ok (.dec (lenField w))
    else if opField w = 3 then .ok (.ldb (lenField w))
    else if opField w = 4 then (if lenField w = 0 then .ok .stb else .error .stbLength)
    else .error .undefinedOpcode := by
  unfold decode
  split
  · rfl
  · generalize lenField w = l
    generalize opField w = o
    have h16 : ∀ o : BitVec 4, o = 0 ∨ o = 1 ∨ o = 2 ∨ o = 3 ∨ o = 4 ∨ o = 5 ∨ o = 6 ∨ o = 7 ∨ o = 8 ∨ o = 9 ∨ o = 10 ∨
        o = 11 ∨ o = 12 ∨ o = 13 ∨ o = 14 ∨ o = 15 := by decide
    rcases h16 o with rfl | rfl | rfl | rfl | rfl | rfl | rfl | rfl | rfl | rfl | rfl | rfl | rfl | rfl | rfl | rfl <;> simp

/-- What a word that decodes to a command holds in its fields. -/
theorem fields_of_decode {w : Word} {i : Instr} (h : decode w = .ok i) :
    rsvHiField w = 0 ∧ rsvLoField w = 0 ∧ opField w = i.opcode ∧ lenField w = i.length := by
  rw [decode_eq_ite] at h
  by_cases hr : rsvHiField w ≠ 0 ∨ rsvLoField w ≠ 0
  · rw [if_pos hr] at h; cases h
  · rw [if_neg hr] at h
    rw [not_or, not_not, not_not] at hr
    refine ⟨hr.1, hr.2, ?_⟩
    split at h
    · rename_i ho; cases h; exact ⟨ho, rfl⟩
    · split at h
      · rename_i ho; cases h; exact ⟨ho, rfl⟩
      · split at h
        · rename_i ho; cases h; exact ⟨ho, rfl⟩
        · split at h
          · rename_i ho
            split at h
            · rename_i hl; cases h; exact ⟨ho, hl⟩
            · cases h
          · cases h

/-- The LEN field of the word of a running command is the command's. -/
theorem lenField_of_decode {w : Word} {i : Instr} (h : decode w = .ok i) : lenField w = i.length :=
  (fields_of_decode h).2.2.2

end Sys2Proof
end

