-- ==== Sys2Proof/Laws/Engine.lean ====
section
/-! SUPPORT. What an engine step can do, said once, and runs of engine steps (30_encoding.md R89). -/

namespace Sys2Proof.Machine

/-- A run of a + b engine steps is a run of a, then of b. -/
theorem engineRun_add (a b : Nat) (s : State) : engineRun (a + b) s =
    match engineRun a s with | .next t => engineRun b t | .fault r => .fault r | .refused r => .refused r := by
  induction a generalizing s with
  | zero => simp [engineRun]
  | succ a ih =>
    rw [show a + 1 + b = (a + b) + 1 by omega]
    simp only [engineRun]
    cases engineStep s with
    | next t => simp only []; exact ih t
    | fault r => rfl
    | refused r => rfl

/-- The last step of a run. -/
theorem engineRun_succ {a : Nat} {s t : State} (h : engineRun a s = .next t) : engineRun (a + 1) s = engineStep t := by
  rw [engineRun_add, h]
  simp only [engineRun]
  cases engineStep t <;> rfl

/-- The first step of a run. -/
theorem engineRun_step {n : Nat} {s t : State} (h : engineStep s = .next t) : engineRun (n + 1) s = engineRun n t := by
  simp only [engineRun, h]

/-- While IDLE the engine does nothing. -/
theorem engineRun_idle (n : Nat) {s : State} (h : s.phase = .idle) : engineRun n s = .next s := by
  induction n with
  | zero => rfl
  | succ n ih => simp only [engineRun, engineStep, h]; exact ih

/-- What no engine step changes. -/
theorem engineStep_frame {s t : State} (h : engineStep s = .next t) :
    t.turns = s.turns ∧ t.hostOps = s.hostOps ∧ t.bufBytes = s.bufBytes ∧ t.replies = s.replies ∧ t.freeDraws = s.freeDraws ∧ t.ovr = s.ovr := by
  unfold engineStep at h
  split at h
  · cases h; simp
  · simp only [dispatchStep] at h
    split at h
    · cases h; exact ⟨rfl, rfl, rfl, rfl, rfl, rfl⟩
    · rename_i i _
      cases i with
      | enc len =>
        rcases dispatchEnc_cases (show dispatchEnc len s = .next t from h) with ⟨-, rfl⟩ | ⟨-, -, rfl⟩ <;>
          exact ⟨rfl, rfl, rfl, rfl, rfl, rfl⟩
      | dec len =>
        simp only [dispatchInstr, dispatchDec] at h; split at h
        · cases h; exact ⟨rfl, rfl, rfl, rfl, rfl, rfl⟩
        · split at h <;> cases h <;> exact ⟨rfl, rfl, rfl, rfl, rfl, rfl⟩
      | ldb len =>
        rcases exec_ldb_cases (show exec (.ldb len) s = .next t from h) with ⟨_, rfl⟩ | ⟨_, v, _,
            rfl⟩ <;> exact ⟨rfl, rfl, rfl, rfl, rfl, rfl⟩
      | stb =>
        obtain ⟨-, rfl⟩ := exec_stb_cases (show exec .stb s = .next t from h)
        exact ⟨rfl, rfl, rfl, rfl, rfl, rfl⟩
  · simp only [encDivStep] at h
    split at h
    · split at h
      · split at h <;> cases h <;> exact ⟨rfl, rfl, rfl, rfl, rfl, rfl⟩
      · cases h; exact ⟨rfl, rfl, rfl, rfl, rfl, rfl⟩
    · cases h
  · simp only [encWriteStep] at h
    split at h
    · split at h <;> cases h <;> exact ⟨rfl, rfl, rfl, rfl, rfl, rfl⟩
    · cases h
  · simp only [decAccStep] at h
    split at h
    · split at h
      · cases h
      · split at h
        · cases h; exact ⟨rfl, rfl, rfl, rfl, rfl, rfl⟩
        · split at h
          · cases h; exact ⟨rfl, rfl, rfl, rfl, rfl, rfl⟩
          · split at h <;> cases h <;> exact ⟨rfl, rfl, rfl, rfl, rfl, rfl⟩
    · cases h

/-- What an engine step that leaves the block busy does not change. -/
theorem engineStep_busy_frame {s t : State} (h : engineStep s = .next t) (hb : busy t = true) :
    t.done = s.done ∧ t.err = s.err ∧ t.rlen = s.rlen ∧ t.epos = s.epos ∧ t.ebyte = s.ebyte ∧ busy s = true := by
  have hf : ∀ e r p b u, busy (finish e r p b u) = true → False := by intros; simp_all [busy, finish]
  have hf' : ∀ e p b u, busy (raiseErr e p b u) = true → False := by intros; simp_all [busy, finish, raiseErr]
  unfold engineStep at h
  split at h
  · cases h; exact ⟨rfl, rfl, rfl, rfl, rfl, hb⟩
  · rename_i hp
    have hbs : busy s = true := by simp [busy, hp]
    simp only [dispatchStep] at h
    split at h
    · cases h; exact (hf' _ _ _ _ hb).elim
    · rename_i i _
      cases i with
      | enc len =>
        rcases dispatchEnc_cases (show dispatchEnc len s = .next t from h) with ⟨-, rfl⟩ | ⟨-, -, rfl⟩
        · exact (hf' _ _ _ _ hb).elim
        · exact ⟨rfl, rfl, rfl, rfl, rfl, hbs⟩
      | dec len =>
        simp only [dispatchInstr, dispatchDec] at h; split at h
        · cases h; exact (hf' _ _ _ _ hb).elim
        · split at h <;> cases h; exact (hf' _ _ _ _ hb).elim; exact ⟨rfl, rfl, rfl, rfl, rfl, hbs⟩
      | ldb len =>
        rcases exec_ldb_cases (show exec (.ldb len) s = .next t from h) with ⟨_, rfl⟩ | ⟨_, v, _, rfl⟩
        · exact (hf' _ _ _ _ hb).elim
        · exact (hf _ _ _ _ _ hb).elim
      | stb =>
        obtain ⟨-, rfl⟩ := exec_stb_cases (show exec .stb s = .next t from h)
        exact absurd hb (by simp [busy])
  · rename_i hp
    have hbs : busy s = true := by simp [busy, hp]
    simp only [encDivStep] at h
    split at h
    · split at h
      · split at h <;> cases h; exact (hf' _ _ _ _ hb).elim; exact ⟨rfl, rfl, rfl, rfl, rfl, hbs⟩
      · cases h; exact ⟨rfl, rfl, rfl, rfl, rfl, hbs⟩
    · cases h
  · rename_i hp
    have hbs : busy s = true := by simp [busy, hp]
    simp only [encWriteStep] at h
    split at h
    · split at h <;> cases h; exact (hf _ _ _ _ _ hb).elim; exact ⟨rfl, rfl, rfl, rfl, rfl, hbs⟩
    · cases h
  · rename_i hp
    have hbs : busy s = true := by simp [busy, hp]
    simp only [decAccStep] at h
    split at h
    · split at h
      · cases h
      · split at h
        · cases h; exact (hf' _ _ _ _ hb).elim
        · split at h
          · cases h; exact (hf' _ _ _ _ hb).elim
          · split at h <;> cases h; exact (hf _ _ _ _ _ hb).elim; exact ⟨rfl, rfl, rfl, rfl, rfl, hbs⟩
    · cases h

/-- An engine step from IDLE does nothing, and one that reaches IDLE completes the command. -/
theorem engineStep_phase {s t : State} (h : engineStep s = .next t) :
    (s.phase = .idle → t = s) ∧ (s.phase ≠ .idle → t.phase = .idle → t.done = true) := by
  unfold engineStep at h
  split at h
  · rename_i hp; cases h; exact ⟨fun _ => rfl, fun h => absurd hp h⟩
  · rename_i hp
    refine ⟨fun h => absurd (hp.symm.trans h) (by decide), fun _ ht => ?_⟩
    simp only [dispatchStep] at h
    split at h
    · cases h; rfl
    · rename_i i hd
      cases i with
      | enc len =>
        rcases dispatchEnc_cases (show dispatchEnc len s = .next t from h) with ⟨-, rfl⟩ | ⟨-, -, rfl⟩
        · rfl
        · cases ht
      | dec len =>
        simp only [dispatchInstr, dispatchDec] at h; split at h
        · cases h; rfl
        · split at h <;> cases h <;> first | rfl | cases ht
      | ldb len =>
        rcases exec_ldb_cases (show exec (.ldb len) s = .next t from h) with ⟨_, rfl⟩ | ⟨_, v, _, rfl⟩ <;> rfl
      | stb => obtain ⟨-, rfl⟩ := exec_stb_cases (show exec .stb s = .next t from h); rfl
  · rename_i hp
    refine ⟨fun h => absurd (hp.symm.trans h) (by decide), fun hne ht => ?_⟩
    simp only [encDivStep] at h
    split at h
    · split at h
      · split at h <;> cases h <;> first | rfl | cases ht
      · cases h; exact absurd ht hne
    · cases h
  · rename_i hp
    refine ⟨fun h => absurd (hp.symm.trans h) (by decide), fun hne ht => ?_⟩
    simp only [encWriteStep] at h
    split at h
    · split at h <;> cases h <;> first | rfl | exact absurd ht hne
    · cases h
  · rename_i hp
    refine ⟨fun h => absurd (hp.symm.trans h) (by decide), fun hne ht => ?_⟩
    simp only [decAccStep] at h
    split at h
    · split at h
      · cases h
      · split at h
        · cases h; rfl
        · split at h
          · cases h; rfl
          · split at h <;> cases h <;> first | rfl | exact absurd ht hne
    · cases h

end Sys2Proof.Machine
end

