-- ==== Sys2Proof/Laws/Flags.lean ====
section
/-! SUPPORT. The STATUS word as a number (10_state.md R25). -/

namespace Sys2Proof.Machine

/-- The STATUS word, field by field. -/
theorem statusWord_toNat (s : State) : (statusWord s).toNat =
    s.ebyte.toNat * 2 ^ 24 + s.epos.toNat * 2 ^ 16 + s.rlen.toNat * 2 ^ 8 + s.err.toNat * 16 +
      (if s.ovr then 4 else 0) + (if s.done then 2 else 0) + (if busy s then 1 else 0) := by
  unfold statusWord
  simp only [BitVec.toNat_append, Nat.shiftLeft_eq]
  have h1 := s.ebyte.isLt; have h2 := s.epos.isLt; have h3 := s.rlen.isLt; have h4 := s.err.isLt
  have e : ∀ b : Bool, (BitVec.ofBool b).toNat = if b then 1 else 0 := by decide
  simp only [e]
  have or_eq : ∀ a b n, b < 2^n → a * 2^n ||| b = a * 2^n + b := by
    intro a b n hb
    rw [Nat.mul_comm]; exact (Nat.two_pow_add_eq_or_of_lt hb a).symm
  rw [or_eq _ _ 8 h2, or_eq _ _ 8 h3]
  rw [or_eq (BitVec.toNat 0#1) _ 1 (by split <;> omega), or_eq _ _ 1 (by split <;> omega),
      or_eq _ _ 1 (by split <;> omega)]
  rw [or_eq s.err.toNat _ _ (by simp; split <;> split <;> split <;> omega)]
  rw [or_eq _ _ (4+(1+1+1+1)) (by simp; split <;> split <;> split <;> omega)]
  simp
  split <;> split <;> split <;> omega

end Sys2Proof.Machine
end

