-- ==== Sys2Proof/Laws/Step.lean ====
section
/-! SUPPORT. What a step is, and which accesses reach CMD and BUF (20_memory.md R52, R54). -/

namespace Sys2Proof.Machine

/-- An access reaches a BUF byte only as a byte access at its offset. -/
theorem hostTarget_buf {n : Nat} {w : AccessWidth} {off : BitVec 12} {i : Nat}
    (h : hostTarget n w off = some (.buf i)) : w = .byte ∧ off.toNat = 0x100 + i ∧ i < n := by
  unfold hostTarget at h
  split at h
  · split at h
    · cases h
    · split at h <;> cases h
  · split at h
    · split at h
      · rename_i h1 hr hw; simp only [Option.some.injEq, Target.buf.injEq] at h; exact ⟨hw, by omega, by omega⟩
      · cases h
    · split at h <;> cases h

/-- An access reaches CMD only as the word at offset 0. -/
theorem hostTarget_cmd {n : Nat} {w : AccessWidth} {off : BitVec 12} (h : hostTarget n w off = some .cmd) :
    w = .word ∧ off = 0 := by
  unfold hostTarget at h
  split at h
  · split at h
    · rename_i hh; exact ⟨hh.1, BitVec.eq_of_toNat_eq hh.2⟩
    · split at h <;> cases h
  · split at h
    · split at h <;> cases h
    · split at h <;> cases h

/-- A step is the turn that State names, taken off the list. -/
theorem step_eq_takeTurn (s : State) : step s = takeTurn (turnOf s) { s with turns := s.turns.tail } := by
  unfold step nextTurn turnOf
  cases h : s.turns with
  | nil => rw [show ({ s with turns := [].tail } : State) = s by rw [List.tail_nil, ← h]]
  | cons t ts => rfl

end Sys2Proof.Machine
end

