-- ==== Sys2Proof/Tests/Slice0.lean ====
section
/-! SUPPORT. The model's own tests, with results from 95_test_vectors.md and 30_encoding.md, and a witness for the hypotheses of every statement that has some. -/

namespace Sys2Proof.Tests

open Sys2Proof.Machine

/-! ### Helpers -/

/-- The bytes bs listed from index i on. -/
def cells : Nat → List Byte → Memory
  | _, [] => []
  | i, b :: bs => (i, b) :: cells (i + 1) bs

/-- The reset state with the bytes bs in BUF. -/
def holdingBytes (bs : List Byte) : State := { State.reset with buf := cells 0 bs }

/-- The reset state with v written to VAL. -/
def holdingVal (v : Value) : State := writeVal v State.reset

/-- What f shows of the next state. -/
def shows {α : Type} (o : Host.Outcome State Fault Refusal) (f : State → α) : Option α :=
  match o with
  | .next t => some (f t)
  | .fault _ => none
  | .refused _ => none

/-- The fault a step stops with. -/
def faultOf (o : Host.Outcome State Fault Refusal) : Option Fault :=
  match o with
  | .next _ => none
  | .fault f => some f
  | .refused _ => none

/-- "31CnfRQGzIq5PTVq2bs1E" (95_test_vectors.md P1). -/
def textS1 : List Byte :=
  [0x33, 0x31, 0x43, 0x6E, 0x66, 0x52, 0x51, 0x47, 0x7A, 0x49, 0x71] ++
  [0x35, 0x50, 0x54, 0x56, 0x71, 0x32, 0x62, 0x73, 0x31, 0x45]

/-- The bytes of UUID S1 (95_test_vectors.md A1). -/
def bytesS1 : List Byte :=
  [0x01, 0x99, 0xA4, 0x19, 0xE4, 0x8C, 0x71, 0x07] ++ [0x93, 0x3D, 0x2A, 0xE9, 0x4D, 0xF8, 0xEA, 0xDC]

/-- "7n42DGM5Tflk9n8mt7Fhc": the first 21 characters of 2^128 - 1 (95_test_vectors.md DC17). -/
def textMax21 : List Byte :=
  [0x37, 0x6E, 0x34, 0x32, 0x44, 0x47, 0x4D, 0x35, 0x54, 0x66, 0x6C] ++
  [0x6B, 0x39, 0x6E, 0x38, 0x6D, 0x74, 0x37, 0x46, 0x68, 0x63]

/-! ### WellFormed: the checks refuse -/

theorem test_wellFormed_enc_33_of_32 : Instr.wellFormed 32 (.enc 33) = false := by decide
theorem test_wellFormed_dec_33_of_32 : Instr.wellFormed 32 (.dec 33) = false := by decide
theorem test_wellFormed_enc_32_of_32 : Instr.wellFormed 32 (.enc 32) = true := by decide
theorem test_classify_enc_33 : classify 32 0x00002101 = .error .lenOverCapacity := by decide
theorem test_classify_dec_33 : classify 32 0x00002102 = .error .lenOverCapacity := by decide

/-! ### Decode: words written out from 30_encoding.md R81 -/

theorem test_decode_enc_22 : decode 0b00000000000000000001011000000001 = .ok (.enc 22) := by decide
theorem test_decode_dec_21 : decode 0b00000000000000000001010100000010 = .ok (.dec 21) := by decide
theorem test_decode_ldb_16 : decode 0b00000000000000000001000000000011 = .ok (.ldb 16) := by decide
theorem test_decode_stb : decode 0b00000000000000000000000000000100 = .ok .stb := by decide
theorem test_decode_op_5 : decode 0x00000005 = .error .undefinedOpcode := by decide
theorem test_decode_rsvLo : decode 0x00001611 = .error .reservedBits := by decide
theorem test_decode_rsvHi : decode 0x00010001 = .error .reservedBits := by decide
theorem test_decode_stb_len : decode 0x00000104 = .error .stbLength := by decide

/-- The bytes at the edges of the three ranges of 10_state.md R36. -/
theorem test_rev_edges :
    [0x2F, 0x30, 0x39, 0x3A, 0x40, 0x41, 0x5A, 0x5B, 0x60, 0x61, 0x7A, 0x7B].map rev =
      [none, some 0, some 9, none, none, some 10, some 35, none, none, some 36, some 61, none] := by decide

/-! ### The commands: 95_test_vectors.md -/

/-- E19. -/
theorem test_enc_E19 :
    shows (exec (.enc 22) (holdingVal 0x0199A419E48C7107933D2AE94DF8EADC)) (fun t => (t.buf, statusWord t)) =
      some (cells 0 textS1, 0x00001502) := by decide

/-- E21. -/
theorem test_enc_E21 :
    shows (exec (.enc 21) (holdingVal 0xFFFFFFFFFFFFFFFFFFFFFFFFFFFFFFFF)) (fun t => (t.buf, statusWord t)) =
      some ([], 0x00000022) := by decide

/-- DC17. -/
theorem test_dec_DC17 :
    shows (exec (.dec 22) (holdingBytes (textMax21 ++ [0x37]))) (fun t => (t.val, statusWord t)) =
      some (0xFFFFFFFFFFFFFFFFFFFFFFFFFFFFFFFF, 0x00000002) := by decide

/-- DC23. -/
theorem test_dec_DC23 :
    shows (exec (.dec 22) (holdingBytes (textMax21 ++ [0x38]))) (fun t => (t.valWritten, statusWord t)) =
      some (false, 0x38150042) := by decide

/-- A1. -/
theorem test_ldb_A1 :
    shows (exec (.ldb 16) (holdingBytes bytesS1)) (fun t => (t.val, statusWord t)) =
      some (0x0199A419E48C7107933D2AE94DF8EADC, 0x00000002) := by decide

/-- A15. -/
theorem test_ldb_A15 : faultOf (exec (.ldb 16) (holdingBytes (bytesS1.take 15))) = some (.unwrittenRead 15) := by decide

/-- A12. -/
theorem test_stb_A12 :
    shows (exec .stb (holdingVal 3843)) (fun t => (bufRead t.buf 13, bufRead t.buf 14, bufRead t.buf 15, statusWord t)) =
      some (some 0x00, some 0x0F, some 0x03, 0x00001002) := by decide

/-- A10. -/
theorem test_stb_A10 :
    shows (exec .stb (holdingVal 0x0199A419E4827E85838E40CA7F5AC9D3)) (fun t => (bufRead t.buf 0, bufRead t.buf 4)) =
      some (some 0x01, some 0xE4) := by decide

/-! ### Dispatch, the host and reset: 95_test_vectors.md §5 -/

/-- H5: the reserved bits are checked before LDB's length. -/
theorem test_dispatch_H5 : shows (engineStep (accept 0x80001003 State.reset)) statusWord = some 0x00000062 := by decide

/-- H12. -/
theorem test_host_H12 :
    shows (hostStep (opLb 5) { State.reset with buf := [(5, 0x41)] }) (fun t => t.replies) = some [0x41] := by decide

/-- H9 and H10, at the first offset past BUF. -/
theorem test_host_H9 : shows (hostStep (.read .byte 0x120) State.reset) (fun t => t.replies) = some [0] := by decide

/-- H6. -/
theorem test_reset_H6 : shows (hostStep opRs State.reset) (fun t => t.replies) = some [0] := by decide

/-! ### Witnesses: concrete states and operands that meet all the hypotheses of a statement together -/

/-- The command word w latched, DISPATCH next. -/
def latched (w : Word) (s : State) : State := accept w s

/-- The reset state in the middle of ENC 22 of v, with no digit produced yet. -/
def dividing (v : Value) : State := { accept 0x00001601 (holdingVal v) with q := v, cnt := 0, phase := .encDiv }

/-- The reset state in the middle of ENC 22 of 1, its one digit not written yet. -/
def writingOne : State := { accept 0x00001601 (holdingVal 1) with
  dig := storeDigits 0 [1] State.reset.dig, cnt := 1, j := 0, phase := .encWrite }

/-- The reset state in the middle of DEC of the bytes bs, none read yet. -/
def decoding (bs : List Byte) : State := { accept 0x00000202 (holdingBytes bs) with phase := .decAcc, acc := 0, idx := 0 }

/-- The next turn is the host's transaction op. -/
def hostNext (op : HostOp) (s : State) : State := { s with turns := [.host], hostOps := [op] }

/-- One state for each condition of R87, and a legal word. -/
theorem witness_IllegalWordsCompleteWithIllegalCmd :
    ((latched 0x00010001 State.reset).phase = .dispatch ∧ classify 32 0x00010001 = .error .reservedBits) ∧
    classify 32 0x00000011 = .error .reservedBits ∧ classify 32 0x00000000 = .error .undefinedOpcode ∧
    classify 32 0x00000005 = .error .undefinedOpcode ∧ classify 32 0x00002101 = .error .lenOverCapacity ∧
    classify 32 0x00000104 = .error .stbLength ∧ classify 32 0x00002001 = .ok (.enc 32) := by decide

/-- One state for each clause: the command turn in DISPATCH and past it, a word for withFetchWord, an engine turn named and
by default, a host turn named and by default, a host with nothing left, and engine turns while IDLE. -/
theorem witness_StepRunsTheLatchedCommand :
    ({ latched 0x00000004 State.reset with turns := [.command] } : State).phase = .dispatch ∧
    decode 0x00000004 = .ok .stb ∧ ({ dividing 1 with turns := [.command] } : State).phase ≠ .dispatch ∧
    decode (BitVec.ofNat 32 (0x1601 % 2 ^ 16)) = .ok (.enc 22) ∧
    ({ State.reset with turns := [.engine] } : State).turns = .engine :: [] ∧
    ((latched 0x00000004 State.reset).turns = [] ∧ (latched 0x00000004 State.reset).phase ≠ .idle) ∧
    ((hostNext opRs (dividing 1)).turns = .host :: [] ∧ (hostNext opRs (dividing 1)).hostOps = opRs :: []) ∧
    (({ State.reset with hostOps := [opRs] } : State).turns = [] ∧
      ({ State.reset with hostOps := [opRs] } : State).phase = .idle) ∧
    (({ State.reset with turns := [.host] } : State).turns = .host :: [] ∧ State.reset.hostOps = []) ∧
    ({ State.reset with turns := [.command] } : State).turns = .command :: [] ∧ State.reset.phase = .idle := by decide

/-- R65: an idle host turn by default carries out the host's next transaction. -/
theorem test_step_host_in_program_order :
    shows (step { State.reset with hostOps := [opSb 0 0x41, opLb 0] }) (fun t => (t.buf, t.hostOps)) =
      some ([(0, 0x41)], [opLb 0]) := by decide

/-- R66: an engine turn while IDLE leaves STATUS as it was. -/
theorem test_step_idle_engine_turn :
    shows (step { State.reset with turns := [.engine] }) (fun t => (statusWord t, t.turns)) = some (0, []) := by decide

theorem witness_DispatchStepFollowsItsIfChain :
    (latched 0x00001601 State.reset).phase = .dispatch ∧ (latched 0x00000002 State.reset).phase = .dispatch ∧
    (latched 0x00000F03 State.reset).phase = .dispatch ∧ (latched 0x00001601 (holdingVal 61)).phase = .dispatch ∧
    (latched 0x00000004 (holdingVal 61)).valWritten = true := by decide

/-- The bounds of the two clauses are 61 and 62. -/
theorem witness_DigitsFollowTheRecursion :
    (digits 61).map (·.val) = [61] ∧ digits 62 = digits 1 ++ [lowDigit 0] ∧ digits 0 = [0] ∧
    digits (2 ^ 128 - 1) = digits ((2 ^ 128 - 1) / 62) ++ [7] := by decide

/-- The bounds of R108: 0, 61, 62, 62^21 - 1, 62^21, 2^128 - 1. -/
theorem witness_DigitCountIsTheLeastFittingPower :
    (digits 0).length = 1 ∧ (digits 61).length = 1 ∧ (digits 62).length = 2 ∧ (digits (62 ^ 21 - 1)).length = 21 ∧
    (digits (62 ^ 21)).length = 22 ∧ (digits (2 ^ 128 - 1)).length = 22 := by decide

theorem witness_EncWritesTheDigitsOfVal :
    (holdingVal 61).valWritten = true ∧
    (holdingVal 0xFFFFFFFFFFFFFFFFFFFFFFFFFFFFFFFF).valWritten = true ∧ (32 : BitVec 8).toNat ≤ (holdingVal 61).bufBytes ∧ (digits (holdingVal 61).val.toNat).length ≤ (1 : BitVec 8).toNat ∧
    (digits (holdingVal 0xFFFFFFFFFFFFFFFFFFFFFFFFFFFFFFFF).val.toNat).length ≤ (22 : BitVec 8).toNat := by decide

theorem witness_EncChecksCapacityBeforeWriting :
    (holdingVal 0).valWritten = true ∧ (21 : BitVec 8).toNat ≤ (holdingVal 0).bufBytes ∧
    (21 : BitVec 8).toNat < (digits (holdingVal 0xFFFFFFFFFFFFFFFFFFFFFFFFFFFFFFFF).val.toNat).length ∧
    (0 : BitVec 8).toNat = 0 ∧ (holdingVal 0x20DB5AE453A9690B6BF0D0B753DFFFFF).val.toNat < 62 ^ 21 ∧
    22 ≤ (22 : BitVec 8).toNat ∧ (22 : BitVec 8).toNat ≤ (holdingVal 0).bufBytes := by decide

theorem witness_EncReportsInStatus :
    ((holdingVal 61).valWritten = true ∧ (holdingVal 62).valWritten = true) ∧ (1 : BitVec 8).toNat ≤ (holdingVal 61).bufBytes ∧ (digits (holdingVal 61).val.toNat).length ≤ (1 : BitVec 8).toNat ∧
    (1 : BitVec 8).toNat < (digits (holdingVal 62).val.toNat).length := by decide

/-- A legal and an illegal LEN, and a VAL never written with an illegal LEN. -/
theorem witness_EncLeavesValForStb :
    (shows (exec (.enc 22) (holdingVal 61)) (fun t => t.val) = some 61 ∧ (holdingVal 61).valWritten = true) ∧
    shows (exec (.enc 33) (holdingVal 61)) (fun t => t.val) = some 61 ∧
    shows (exec (.enc 33) State.reset) (fun t => t.valWritten) = some false := by decide

theorem witness_StbStoresSixteenBigEndianBytes : (holdingVal 1).valWritten = true := by decide

theorem witness_DecOfEncReturnsVal :
    shows (exec (.enc 2) (holdingVal 3843)) (fun t => t.err) = some 0 ∧
    horner 0 [0, 0, 7] = (7 : Value).toNat ∧ ([0, 0, 7] : List Digit) ≠ [] := by decide

/-- One state for each clause: more digits to come, the last digit with and without the capacity for it. -/
theorem witness_EncDivStepDividesBy62 :
    ((dividing 62).cnt.toNat < 22 ∧ (dividing 62).phase = .encDiv ∧ (dividing 62).q.toNat / 62 ≠ 0) ∧
    ((dividing 61).q.toNat / 62 = 0 ∧ (dividing 61).cnt.toNat + 1 ≤ (lenField (dividing 61).cmdl).toNat) ∧
    (lenField { dividing 61 with cmdl := 0x00000001 }.cmdl).toNat < (dividing 61).cnt.toNat + 1 := by decide

/-- One state for each clause: the last character, and one before it. -/
theorem witness_EncWriteStepWritesInReverse :
    (writingOne.phase = .encWrite ∧ writingOne.cnt.toNat ≤ 22 ∧ writingOne.j.toNat < writingOne.bufBytes ∧
      writingOne.j.toNat + 1 = writingOne.cnt.toNat) ∧
    ({ writingOne with cnt := 22 } : State).j.toNat + 1 ≠ ({ writingOne with cnt := 22 } : State).cnt.toNat := by decide

theorem witness_DecLoadsTheValueOfItsText :
    (2 : BitVec 8) ≠ 0 ∧ (2 : BitVec 8).toNat ≤ (holdingBytes [0x7A, 0x7A]).bufBytes ∧
    bufDigits (holdingBytes [0x7A, 0x7A]).buf 0 (2 : BitVec 8).toNat = some [61, 61] ∧
    horner 0 [61, 61] ≤ 2 ^ 128 - 1 := by decide

/-- DC31: "ab-cd". -/
theorem witness_DecStopsAtAnInvalidChar :
    (5 : BitVec 8).toNat ≤ (holdingBytes [0x61, 0x62, 0x2D, 0x63, 0x64]).bufBytes ∧ 2 < (5 : BitVec 8).toNat ∧
    bufDigits (holdingBytes [0x61, 0x62, 0x2D, 0x63, 0x64]).buf 0 2 = some [36, 37] ∧ horner 0 [36, 37] ≤ 2 ^ 128 - 1 ∧
    bufRead (holdingBytes [0x61, 0x62, 0x2D, 0x63, 0x64]).buf 2 = some 0x2D ∧ rev 0x2D = none := by decide

/-- DC23: one over the greatest value. -/
theorem witness_DecStopsAtTheOverflow :
    (22 : BitVec 8).toNat ≤ (holdingBytes (textMax21 ++ [0x38])).bufBytes ∧ 21 < (22 : BitVec 8).toNat ∧
    bufDigits (holdingBytes (textMax21 ++ [0x38])).buf 0 21 = some ((digits (2 ^ 128 - 1)).take 21) ∧
    horner 0 ((digits (2 ^ 128 - 1)).take 21) ≤ 2 ^ 128 - 1 ∧
    bufRead (holdingBytes (textMax21 ++ [0x38])).buf 21 = some 0x38 ∧ rev 0x38 = some 8 ∧
    horner 0 ((digits (2 ^ 128 - 1)).take 21) * 62 + 8 > 2 ^ 128 - 1 := by decide

/-- DC40: '-' written, BUF[1] never written. -/
theorem witness_DecReadsNothingAfterTheFailure :
    shows (exec (.dec 2) (holdingBytes [0x2D])) (fun t => (t.err, t.epos)) = some (3, 0) ∧
    bufRead (holdingBytes [0x2D, 0x41]).buf 0 = bufRead (holdingBytes [0x2D]).buf 0 := by decide

theorem witness_DecIgnoresLeadingZeroDigits :
    (1 : BitVec 8) ≠ 0 ∧ (3 : BitVec 8).toNat = 2 + (1 : BitVec 8).toNat ∧
    bufDigits (holdingBytes [0x37]).buf 0 1 = some [7] ∧
    bufDigits (holdingBytes [0x30, 0x30, 0x37]).buf 0 3 = some (List.replicate 2 0 ++ [7]) ∧
    shows (exec (.dec 1) (holdingBytes [0x37])) (fun t => t.err) = some 0 := by decide

/-- One text for each clause: 21, 22 in range, 22 over, and 23 significant digits. -/
theorem witness_DecOverflowsByValueNotLength :
    bufDigits (holdingBytes (List.replicate 21 0x7A)).buf 0 21 = some (List.replicate 0 0 ++ List.replicate 21 61) ∧
    bufDigits (holdingBytes (textMax21 ++ [0x37])).buf 0 22 = some (List.replicate 0 0 ++ digits (2 ^ 128 - 1)) ∧
    bufDigits (holdingBytes (List.replicate 22 0x7A)).buf 0 22 = some (List.replicate 0 0 ++ List.replicate 22 61) ∧
    horner 0 (List.replicate 22 61) > 2 ^ 128 - 1 ∧
    bufDigits (holdingBytes (0x30 :: List.replicate 23 0x7A)).buf 0 24 =
      some (List.replicate 1 0 ++ List.replicate 23 61) ∧
    (List.replicate 23 (61 : Digit)).head? ≠ some 0 := by decide

theorem witness_DecKeepsBufAndFailedVal :
    shows (exec (.dec 1) (holdingBytes [0x2D])) (fun t => t.err) = some 3 ∧
    shows (exec (.dec 1) (holdingBytes [0x7A])) (fun t => (t.err, t.val)) = some (0, 61) := by decide

/-- DC39: BUF[1] never written. -/
theorem witness_DecFaultsAtAnUnwrittenByte :
    faultOf (exec (.dec 2) (holdingBytes [0x31])) = some (.unwrittenRead 1) := by decide

/-- One state for each clause: an invalid byte, an overflow, one more digit, the last digit. -/
theorem witness_DecAccStepAccumulates :
    ((decoding [0x2D, 0x7A]).phase = .decAcc ∧
      (decoding [0x2D, 0x7A]).idx.toNat < (lenField (decoding [0x2D, 0x7A]).cmdl).toNat ∧
      (lenField (decoding [0x2D, 0x7A]).cmdl).toNat ≤ (decoding [0x2D, 0x7A]).bufBytes ∧
      bufRead (decoding [0x2D, 0x7A]).buf (decoding [0x2D, 0x7A]).idx.toNat = some 0x2D ∧ rev 0x2D = none) ∧
    (rev 0x7A = some 61 ∧ (2 ^ 128 - 1) * 62 + 61 > 2 ^ 128 - 1 ∧
      (decoding [0x7A, 0x7A]).acc.toNat * 62 + 61 ≤ 2 ^ 128 - 1) ∧
    shows (engineStep (decoding [0x7A, 0x7A])) (fun t => (t.idx, lenField t.cmdl)) = some (1, 2) ∧
    shows (engineStep { decoding [0x7A, 0x7A] with idx := 1 }) (fun t => (t.idx, lenField t.cmdl)) = some (2, 2) := by
  decide

/-- All 16 bytes written, and BUF[15] the first unwritten one. -/
theorem witness_LdbLoadsSixteenBigEndianBytes :
    (∀ k, k < 16 → (bufRead (holdingBytes bytesS1).buf k).isSome) ∧
    bufRead (holdingBytes (bytesS1.take 15)).buf 15 = none ∧
    ∀ k, k < 15 → (bufRead (holdingBytes (bytesS1.take 15)).buf k).isSome := by decide

theorem witness_LdbRejectsOtherLengths : (15 : BitVec 8) ≠ 16 ∧ (17 : BitVec 8) ≠ 16 ∧ (255 : BitVec 8) ≠ 16 := by decide

theorem witness_AdaptersAreInverse :
    shows (exec (.ldb 16) (holdingBytes bytesS1)) (fun t => t.err) = some 0 ∧
    shows (exec .stb (holdingVal 1)) (fun t => t.err) = some 0 := by decide

theorem witness_CommandsReportTheirOwnCodes :
    shows (exec (.enc 33) State.reset) (fun t => t.err) = some 6 ∧
    shows (exec (.dec 1) (holdingBytes [0x2D])) (fun t => (t.err, t.ebyte)) = some (3, 0x2D) ∧
    shows (exec (.ldb 15) State.reset) (fun t => t.err) = some 1 ∧
    shows (exec .stb (holdingVal 1)) (fun t => t.err) = some 0 := by decide

theorem witness_ErrorsLeaveValAndBuf :
    shows (exec (.enc 0) (holdingVal 0)) (fun t => t.err) = some 2 ∧
    shows (exec (.dec 0) State.reset) (fun t => t.err) = some 5 := by decide

theorem witness_FailedCommandsFailAgain :
    shows (exec (.dec 1) (holdingBytes [0x2D])) (fun t => (t.err, t.epos, t.ebyte)) = some (3, 0, 0x2D) := by decide

/-- E30, also with a LEN that would not fit; an illegal LEN is found before VAL is read. -/
theorem test_enc_E30 :
    faultOf (exec (.enc 22) State.reset) = some .unwrittenVal ∧ faultOf (exec (.enc 0) State.reset) = some .unwrittenVal ∧
    shows (exec (.enc 33) State.reset) (fun t => t.err) = some 6 := by decide

/-- A14, as a whole command and as the engine's dispatch step. -/
theorem test_stb_A14 :
    faultOf (exec .stb State.reset) = some .unwrittenVal ∧
    faultOf (engineStep (latched 0x00000004 State.reset)) = some .unwrittenVal := by decide

theorem witness_EngineRunEqualsWholeCommand : (latched 0x00001601 (holdingVal 61)).phase = .dispatch := by decide

/-- One latched word for each row of R218. -/
theorem witness_EngineStepCounts :
    (latched 0x00000000 State.reset).phase = .dispatch ∧
    shows (commandStep (latched 0x00000000 State.reset)) (fun t => t.err) = some 6 ∧
    shows (commandStep (latched 0x00001003 (holdingBytes bytesS1))) (fun t => t.err) = some 0 ∧
    shows (commandStep (latched 0x00000004 (holdingVal 1))) (fun t => t.err) = some 0 ∧
    shows (commandStep (latched 0x00000101 (holdingVal 61))) (fun t => t.err) = some 0 ∧
    shows (commandStep (latched 0x00000101 (holdingVal 62))) (fun t => t.err) = some 2 ∧
    shows (commandStep (latched 0x00000002 State.reset)) (fun t => t.err) = some 5 ∧
    shows (commandStep (latched 0x00000102 (holdingBytes [0x7A]))) (fun t => t.err) = some 0 ∧
    shows (commandStep (latched 0x00000102 (holdingBytes [0x2D]))) (fun t => (t.err, t.epos)) = some (3, 0) := by decide

theorem witness_BusyHostAndEngineStepsCommute :
    HostOp.read .word 0x004 ≠ .reset ∧ busy (dividing 62) = true ∧ shows (engineStep (dividing 62)) busy = some true ∧
    shows (hostStep (.read .word 0x004) (dividing 62)) (fun t => t.replies) = some [1] ∧
    shows (hostStep (.write .byte 0x100 0x41) (dividing 62)) (fun t => t.ovr) = some true := by decide

theorem witness_CmdWriteWhileIdleIsAccepted : busy State.reset = false := by decide

/-- The first and the last BUF byte. -/
theorem witness_WritesWhileBusyOnlySetOvr :
    busy (dividing 1) = true ∧ 0x100 ≤ (0x100 : BitVec 12).toNat ∧
    (0x100 : BitVec 12).toNat < 0x100 + (dividing 1).bufBytes ∧
    (0x11F : BitVec 12).toNat < 0x100 + (dividing 1).bufBytes := by decide

theorem witness_BufByteWrittenReadsBack :
    busy State.reset = false ∧ 31 < State.reset.bufBytes ∧ State.reset.bufBytes ≤ 255 ∧
    shows (hostStep (opSb 31 0x41) State.reset) (fun t => t.buf) = some [(31, 0x41)] := by decide

/-- Written and unwritten while idle, and busy. -/
theorem witness_BufReadByBusyState :
    (0 < (holdingBytes [0x41]).bufBytes ∧ (holdingBytes [0x41]).bufBytes ≤ 255 ∧ busy (holdingBytes [0x41]) = false ∧
      bufRead (holdingBytes [0x41]).buf 0 = some 0x41) ∧
    (31 < (holdingBytes [0x41]).bufBytes ∧ bufRead (holdingBytes [0x41]).buf 31 = none) ∧ busy (dividing 1) = true := by
  decide

/-- The first and last offset of each unmapped range, in both widths. -/
theorem witness_UnmappedOffsetsReadZero :
    (0x008 ≤ (0x008 : BitVec 12).toNat ∧ (0x008 : BitVec 12).toNat % 4 = 0) ∧ (0x0FF : BitVec 12).toNat ≤ 0x0FF ∧
    (0x100 + State.reset.bufBytes ≤ (0x120 : BitVec 12).toNat ∧ (0x120 : BitVec 12).toNat % 4 = 0) ∧
    0x100 + State.reset.bufBytes ≤ (0xFFF : BitVec 12).toNat := by decide

/-- R54: an access wider than 32 bits (log 22). -/
theorem test_wide_access_refused :
    step (hostNext (.write .other 0x000 0x00001003) State.reset) = .refused .hostAccessWidth := rfl

/-- H11, and the first and last byte of each range. -/
theorem witness_OtherAccessWidthsAreRefused :
    ((0x004 : BitVec 12).toNat < 0x008 ∧ ¬ (AccessWidth.byte = .word ∧ (0x004 : BitVec 12).toNat % 4 = 0)) ∧
    ((0x007 : BitVec 12).toNat < 0x008 ∧ ¬ (AccessWidth.word = .word ∧ (0x007 : BitVec 12).toNat % 4 = 0)) ∧
    (0x100 ≤ (0x100 : BitVec 12).toNat ∧ (0x100 : BitVec 12).toNat < 0x100 + State.reset.bufBytes ∧
      AccessWidth.word ≠ .byte) ∧
    (0x11F : BitVec 12).toNat < 0x100 + State.reset.bufBytes ∧
    ((0x008 ≤ (0x008 : BitVec 12).toNat ∧ (0x008 : BitVec 12).toNat ≤ 0x0FF) ∧
      ¬ (AccessWidth.half = .byte ∨ (AccessWidth.half = .word ∧ (0x008 : BitVec 12).toNat % 4 = 0))) ∧
    ((0x0FF : BitVec 12).toNat ≤ 0x0FF ∧
      ¬ (AccessWidth.word = .byte ∨ (AccessWidth.word = .word ∧ (0x0FF : BitVec 12).toNat % 4 = 0))) ∧
    (0x100 + State.reset.bufBytes ≤ (0x120 : BitVec 12).toNat ∧
      ¬ (AccessWidth.half = .byte ∨ (AccessWidth.half = .word ∧ (0x120 : BitVec 12).toNat % 4 = 0))) ∧
    (0x100 + State.reset.bufBytes ≤ (0xFFF : BitVec 12).toNat ∧
      ¬ (AccessWidth.word = .byte ∨ (AccessWidth.word = .word ∧ (0xFFF : BitVec 12).toNat % 4 = 0))) := by decide

theorem witness_SideEffectsOfTransactions :
    shows (hostStep (.read .byte 0x100) (holdingBytes [0x41])) (fun t => t.replies) = some [0x41] ∧
    (busy State.reset = false ∧ 31 < State.reset.bufBytes ∧ State.reset.bufBytes ≤ 255) ∧
    shows (hostStep (opSb 31 0x41) State.reset) (fun t => t.buf) = some [(31, 0x41)] ∧
    (busy (dividing 1) = true ∧ shows (hostStep (.write .word 0x000 4) (dividing 1)) (fun t => t.ovr) = some true) ∧
    shows (hostStep (.write .byte 0x11F 4) (dividing 1)) (fun t => t.ovr) = some true ∧
    shows (hostStep (.write .word 0x004 4) (dividing 1)) (fun t => t.ovr) = some false ∧
    shows (hostStep (.write .byte 0x120 4) (dividing 1)) (fun t => t.ovr) = some false := by decide

theorem witness_HostSyntaxReachesItsRegisters : 254 < 255 ∧ (BitVec.ofNat 12 (0x100 + 254)).toNat = 0x1FE := by decide

/-- A WAIT while busy and one while idle. -/
theorem witness_WaitEndsWhenStatusShowsIdle :
    ((hostNext .wait (dividing 1)).hostOps = .wait :: [] ∧ turnOf (hostNext .wait (dividing 1)) = .host ∧
      busy (hostNext .wait (dividing 1)) = true) ∧
    turnOf (hostNext .wait State.reset) = .host ∧ busy (hostNext .wait State.reset) = false := by decide

theorem witness_ResetMeetsTheInvariant : (23 ≤ 23 ∧ 23 ≤ 255) ∧ 255 ≤ 255 := by decide

/-- DISPATCH of any word from a state with these contents of BUF and VAL meets the invariant. -/
theorem latched_inv (w : Word) (s : State) (hs : 23 ≤ s.bufBytes ∧ s.bufBytes ≤ 255)
    (hm : Memory.wf s.bufBytes s.buf = true) : (latched w s).Inv where
  size := hs
  mem := hm
  errLegal := by show (0 : BitVec 4).toNat ≤ 6; decide
  rlenLegal := ⟨by show (0 : BitVec 8).toNat ≤ 22; decide, fun _ => rfl⟩
  detailLegal := ⟨by show (0 : BitVec 8).toNat < s.bufBytes; have : (0 : BitVec 8).toNat = 0 := rfl; omega, fun _ _ => ⟨rfl, rfl⟩⟩
  busyClear := fun _ => ⟨rfl, rfl, rfl, rfl, rfl⟩
  idleFresh := fun h => nomatch h
  encDiv := fun h => nomatch h
  encWrite := fun h => nomatch h
  decAcc := fun h => nomatch h

theorem witness_EveryCommandFinishes :
    (latched 0x00001601 (holdingVal 61)).Inv ∧ busy (latched 0x00001601 (holdingVal 61)) = true ∧
    (latched 0x00001601 (holdingVal 61)).turns = [] :=
  ⟨latched_inv _ _ (by decide) (by decide), by decide, by decide⟩

theorem witness_EncOfDecReturnsCanonicalText :
    (latched 0x00000102 (holdingBytes [0x7A])).Inv ∧
    shows (exec (.dec 1) (latched 0x00000102 (holdingBytes [0x7A]))) (fun t => t.err) = some 0 ∧
    bufDigits (holdingBytes [0x7A]).buf 0 1 = some [61] ∧
    bufDigits (holdingBytes [0x30, 0x30, 0x37]).buf 0 3 = some [0, 0, 7] :=
  ⟨latched_inv _ _ (by decide) (by decide), by decide, by decide, by decide⟩

/-- States of the invariant in the three working phases: the invariant is not empty there. -/
theorem dividing_inv : (dividing 62).Inv where
  size := by decide
  mem := by decide
  errLegal := by decide
  rlenLegal := by decide
  detailLegal := by decide
  busyClear := by decide
  idleFresh := fun h => nomatch h
  encDiv := fun _ => ⟨22, by decide, by decide, by decide, by decide, by decide, fun k _ hk => absurd hk (Nat.not_lt_zero k)⟩
  encWrite := fun h => nomatch h
  decAcc := fun h => nomatch h

theorem writingOne_inv : writingOne.Inv where
  size := by decide
  mem := by decide
  errLegal := by decide
  rlenLegal := by decide
  detailLegal := by decide
  busyClear := by decide
  idleFresh := fun h => nomatch h
  encDiv := fun h => nomatch h
  encWrite := fun _ => ⟨22, by decide, by decide, by decide, by decide, by decide, by decide, by decide⟩
  decAcc := fun h => nomatch h

theorem decoding_inv : (decoding [0x7A, 0x7A]).Inv where
  size := by decide
  mem := by decide
  errLegal := by decide
  rlenLegal := by decide
  detailLegal := by decide
  busyClear := by decide
  idleFresh := fun h => nomatch h
  encDiv := fun h => nomatch h
  encWrite := fun h => nomatch h
  decAcc := fun _ => ⟨2, [], by decide, by decide, by decide, by decide, by decide⟩

theorem witness_EveryStepKeepsTheInvariant :
    ((dividing 62).Inv ∧ shows (step (dividing 62)) (fun t => t.cnt) = some 1) ∧
    (writingOne.Inv ∧ shows (step writingOne) (fun t => t.phase) = some .idle) ∧
    ((decoding [0x7A, 0x7A]).Inv ∧ shows (step (decoding [0x7A, 0x7A])) (fun t => t.acc) = some 61) :=
  ⟨⟨dividing_inv, by decide⟩, ⟨writingOne_inv, by decide⟩, decoding_inv, by decide⟩

/-- Steps that fault at a BUF byte and at VAL, and a step that is refused, from states of the invariant. -/
theorem witness_OnlyUnwrittenReadsFault :
    ((latched 0x00000004 State.reset).Inv ∧ faultOf (step (latched 0x00000004 State.reset)) = some .unwrittenVal) ∧
    ((latched 0x00001003 State.reset).Inv ∧ faultOf (step (latched 0x00001003 State.reset)) = some (.unwrittenRead 0)) ∧
    (hostNext (.read .byte 0x004) (latched 0x00001003 State.reset)).Inv ∧
    step (hostNext (.read .byte 0x004) (latched 0x00001003 State.reset)) = .refused .hostAccessWidth :=
  ⟨⟨latched_inv _ _ (by decide) (by decide), by decide⟩, ⟨latched_inv _ _ (by decide) (by decide), by decide⟩,
    latched_inv 0x00001003 { State.reset with turns := [.host], hostOps := [.read .byte 0x004] } (by decide) (by decide), rfl⟩

theorem witness_ValChangesOnlyByDecAndLdb :
    (latched 0x00001003 (holdingBytes bytesS1)).Inv ∧
    (∃ t, step (latched 0x00001003 (holdingBytes bytesS1)) = .next t ∧ t.val ≠ (holdingBytes bytesS1).val) ∧
    ¬ HostActs (latched 0x00001003 (holdingBytes bytesS1)) .reset :=
  ⟨latched_inv _ _ (by decide) (by decide), ⟨_, rfl, by decide⟩, fun h => absurd h.1 (by decide)⟩

theorem witness_BufChangesOnlyByItsWriters :
    writingOne.Inv ∧ ∃ t, step writingOne = .next t ∧ bufRead t.buf 0 ≠ bufRead writingOne.buf 0 :=
  ⟨writingOne_inv, _, rfl, by decide⟩

/-- An acceptance and a completion. -/
theorem witness_PhaseLeavesAndEntersIdleByRule :
    (State.reset.phase = .idle ∧
      shows (step (hostNext (opCmd 0x00000004) State.reset)) (fun t => t.phase) = some .dispatch) ∧
    writingOne.phase ≠ .idle ∧ shows (step writingOne) (fun t => t.phase) = some .idle := by decide

/-- An overrun, and an acceptance that clears OVR. -/
theorem witness_StatusChangesOnlyByItsEvents :
    ((dividing 62).ovr = false ∧
      shows (step (hostNext (opCmd 0x00000004) (dividing 62))) (fun t => t.ovr) = some true) ∧
    shows (step (hostNext (opCmd 0x00000004) { State.reset with ovr := true, done := true })) (fun t => t.ovr) =
      some false := by decide

/-- Two states that differ in every hidden register, while IDLE. -/
def otherHidden : State :=
  { State.reset with cmdl := 7, q := 5, dig := storeDigits 0 [9] State.reset.dig, cnt := 3, j := 2, acc := 8, idx := 4 }

theorem witness_HiddenRegistersNeverShow :
    State.reset.Indist otherHidden ∧ State.reset.val = otherHidden.val ∧ State.reset ≠ otherHidden :=
  ⟨{ same := rfl, val := fun h => (nomatch h), cmdl := fun h => absurd rfl h, encDiv := fun h => (nomatch h),
     encWrite := fun h => (nomatch h), decAcc := fun h => (nomatch h) }, by decide, by decide⟩

/-- Two states that differ in the VAL that was never written, with a step that goes on, one that faults at the read of
VAL, and one that is refused. -/
theorem witness_UnwrittenValNeverShows :
    (∀ (s : State) (v : Value), s.valWritten = false → s.phase = .idle ∨ s.phase = .dispatch →
      s.Indist { s with val := v }) ∧
    shows (step (hostNext opRs State.reset)) (fun t => t.replies) = some [0] ∧
    faultOf (step (latched 0x00000004 State.reset)) = some .unwrittenVal ∧
    step (hostNext (.read .byte 0x004) State.reset) = .refused .hostAccessWidth := by
  refine ⟨fun s v hw hp => ?_, by decide, by decide, rfl⟩
  refine { same := rfl, val := fun h => absurd (hw.symm.trans h) (by decide), cmdl := fun _ => rfl, encDiv := fun h => ?_,
           encWrite := fun h => ?_, decAcc := fun h => ?_ } <;> rcases hp with hp | hp <;> exact absurd (hp.symm.trans h) (by decide)

end Sys2Proof.Tests
end

namespace Sys2Proof.Machine

/-- 10_state.md R25, 70_reset_and_hazards.md R212. -/
@[simp] theorem statusWord_resetOf (n : Nat) : statusWord (State.resetOf n) = 0 := by
  simp [statusWord, busy, State.resetOf]

/-- In IDLE with BUF empty and STATUS 0 the clauses about a running command speak of no phase the state is in; what is
left is that every field of STATUS is 0, and that BUF_BYTES is legal. -/
theorem inv_resetOf {n : Nat} (hmin : Config.bufBytesMin ≤ n) (hmax : n ≤ Config.bufBytesMax) :
    (State.resetOf n).Inv where
  size := ⟨hmin, hmax⟩
  mem := Memory.wf_nil n
  errLegal := Nat.zero_le 6
  rlenLegal := ⟨Nat.zero_le 22, fun _ => rfl⟩
  detailLegal := ⟨Nat.lt_of_lt_of_le (by decide : 0 < Config.bufBytesMin) hmin, fun _ _ => ⟨rfl, rfl⟩⟩
  busyClear := fun hbusy => absurd rfl hbusy
  idleFresh := fun _ _ => statusWord_resetOf n
  encDiv := fun hphase => nomatch hphase
  encWrite := fun hphase => nomatch hphase
  decAcc := fun hphase => nomatch hphase

/-- Settles O52: the default BUF_BYTES is one of the legal ones. -/
theorem resetMeetsTheInvariant : Obligations.ResetMeetsTheInvariant :=
  ⟨inv_resetOf (by decide) (by decide), fun _ hmin hmax => inv_resetOf hmin hmax⟩

end Sys2Proof.Machine

namespace Sys2Proof.Machine

/-! ### What a step can do

One lemma per function that takes a step: the cases its result can be in, with the guards of each case. -/

@[simp] theorem busy_eq_true_iff {s : State} : busy s = true ↔ s.phase ≠ .idle := by simp [busy]

@[simp] theorem busy_eq_false_iff {s : State} : busy s = false ↔ s.phase = .idle := by simp [busy]

/-- What a host operation that is neither faulted nor refused makes of the state (20_memory.md R58 to R64,
30_encoding.md R93, 70_reset_and_hazards.md R210). -/
inductive HostEffect (s : State) : HostOp → State → Prop where
  /-- A write to CMD or BUF while busy is dropped and sets OVR (20_memory.md R60). -/
  | overruns {width off w} (hbusy : s.phase ≠ .idle)
      (htarget : hostTarget s.bufBytes width off = some .cmd ∨ ∃ i, hostTarget s.bufBytes width off = some (.buf i)) :
      HostEffect s (.write width off w) (overrun s)
  | accepts {w} (hidle : s.phase = .idle) : HostEffect s (.write .word 0x000 w) (accept w s)
  | storesByte {off w i} (hidle : s.phase = .idle) (hoff : off.toNat = 0x100 + i) (hi : i < s.bufBytes) :
      HostEffect s (.write .byte off w) { s with buf := bufWrite s.buf i (w.setWidth 8) }
  | resets : HostEffect s .reset (resetBlock s)
  /-- Reads, WAIT and writes without a side effect: only the host's own side moves on. -/
  | observes {op} (hop : op ≠ .reset) (ops : List HostOp) (rs : List Word) (n : Nat) :
      HostEffect s op { s with hostOps := ops, replies := rs, freeDraws := n }

theorem hostWrite_effect {s t : State} {width : AccessWidth} {off : BitVec 12} {w : Word}
    (h : hostWrite width off w s = .next t) : HostEffect s (.write width off w) t := by
  have keeps : HostEffect s (.write width off w) s := .observes (by simp) s.hostOps s.replies s.freeDraws
  unfold hostWrite at h
  split at h
  · cases h
  · rename_i htarget
    split at h <;> rename_i hbusy <;> cases h
    · exact .overruns (busy_eq_true_iff.1 hbusy) (.inl htarget)
    · obtain ⟨rfl, rfl⟩ := hostTarget_cmd htarget
      exact .accepts (by simpa using hbusy)
  · cases h; exact keeps
  · rename_i i htarget
    split at h <;> rename_i hbusy <;> cases h
    · exact .overruns (busy_eq_true_iff.1 hbusy) (.inr ⟨i, htarget⟩)
    · obtain ⟨rfl, hoff, hi⟩ := hostTarget_buf htarget
      exact .storesByte (by simpa using hbusy) hoff hi
  · cases h; exact keeps

theorem hostRead_effect {s t : State} {width : AccessWidth} {off : BitVec 12}
    (h : hostRead width off s = .next t) : HostEffect s (.read width off) t := by
  have replies : ∀ w, HostEffect s (.read width off) (reply w s) :=
    fun w => .observes (by simp) s.hostOps (w :: s.replies) s.freeDraws
  unfold hostRead at h
  split at h
  · cases h
  · cases h; exact replies 0
  · cases h; exact replies _
  · split at h
    · cases h; exact .observes (by simp) s.hostOps _ (s.freeDraws + 1)
    · split at h <;> cases h
      exact replies _
  · cases h; exact replies 0

theorem hostStep_effect {s t : State} {op : HostOp} (h : hostStep op s = .next t) : HostEffect s op t := by
  cases op with
  | write width off w => exact hostWrite_effect h
  | read width off => exact hostRead_effect h
  | wait =>
    simp only [hostStep] at h
    split at h <;> cases h
    · exact .observes (by simp) _ s.replies s.freeDraws
    · exact .observes (by simp) s.hostOps _ s.freeDraws
  | reset => cases h; exact .resets

/-- A write to CMD or BUF while busy is an overrun (20_memory.md R60). -/
theorem hostStep_write_busy {s : State} {width : AccessWidth} {off : BitVec 12} {w : Word} (hbusy : busy s = true)
    (htarget : hostTarget s.bufBytes width off = some .cmd ∨ ∃ i, hostTarget s.bufBytes width off = some (.buf i)) :
    hostStep (.write width off w) s = .next (overrun s) := by
  obtain htarget | ⟨i, htarget⟩ := htarget <;> simp only [hostStep, hostWrite, htarget, hbusy, if_true]

/-- A step, by whose turn it is (20_memory.md R65, 30_encoding.md R89): the host's next operation, nothing where the host
has none left, one engine step, or from DISPATCH the whole command. -/
inductive StepEffect (s : State) : State → Prop where
  | host {op ops t} (hacts : HostActs s op)
      (heffect : HostEffect { s with turns := s.turns.tail, hostOps := ops } op t) : StepEffect s t
  | hostRests (hturn : turnOf s = .host) (hops : s.hostOps = []) : StepEffect s { s with turns := s.turns.tail }
  | engine {t} (hacts : EngineActs s) (hstep : engineStep { s with turns := s.turns.tail } = .next t) : StepEffect s t
  | command {t} (hacts : EngineActs s) (hphase : s.phase = .dispatch)
      (hstep : commandStep { s with turns := s.turns.tail } = .next t) : StepEffect s t

theorem step_effect {s t : State} (h : step s = .next t) : StepEffect s t := by
  rw [step_eq_takeTurn] at h
  cases hturn : turnOf s with
  | host =>
    rw [hturn, takeTurn, hostTurn] at h
    split at h
    · rename_i hops; cases h; exact .hostRests hturn hops
    · rename_i op ops hops
      exact .host ⟨hturn, by rw [show s.hostOps = op :: ops from hops]; rfl⟩ (hostStep_effect h)
  | engine =>
    rw [hturn] at h
    exact .engine (by simp [EngineActs, hturn]) h
  | command =>
    rw [hturn, takeTurn] at h
    have hacts : EngineActs s := by simp [EngineActs, hturn]
    split at h
    · exact .command hacts ‹_› h
    · exact .engine hacts h

/-- The host's turn, with its next operation. -/
theorem step_of_hostActs {s : State} {op : HostOp} (h : HostActs s op) :
    step s = hostStep op { s with turns := s.turns.tail, hostOps := s.hostOps.tail } := by
  obtain ⟨hturn, hhead⟩ := h
  obtain ⟨ops, hops⟩ := List.head?_eq_some_iff.1 hhead
  rw [step_eq_takeTurn, hturn]
  simp only [takeTurn, hostTurn, hops, List.tail_cons]

/-- At most one operation of the host is next. -/
theorem HostActs.unique {s : State} {op op' : HostOp} (h : HostActs s op) (h' : HostActs s op') : op = op' :=
  Option.some.inj (h.2.symm.trans h'.2)

/-- The host and the engine do not act in one step (20_memory.md R65). -/
theorem EngineActs.not_hostActs {s : State} {op : HostOp} (h : EngineActs s) : ¬ HostActs s op :=
  fun hhost => h hhost.1

/-- A whole command completes: DONE, IDLE, and OVR as it was (30_encoding.md R90). -/
theorem exec_completes {i : Instr} {s t : State} (h : exec i s = .next t) :
    t.done = true ∧ t.phase = .idle ∧ t.ovr = s.ovr := by
  cases i with
  | enc len => obtain ⟨-, rfl⟩ | ⟨-, -, -, rfl⟩ | ⟨-, -, -, rfl⟩ := exec_enc_cases h <;> exact ⟨rfl, rfl, rfl⟩
  | dec len =>
    obtain ⟨-, rfl⟩ | ⟨-, -, rfl⟩ | ⟨-, -, ⟨_, _, _, -, rfl⟩ | ⟨_, _, _, -, rfl⟩ | ⟨_, -, rfl⟩⟩ := exec_dec_cases h <;>
      exact ⟨rfl, rfl, rfl⟩
  | ldb len => obtain ⟨-, rfl⟩ | ⟨-, _, -, rfl⟩ := exec_ldb_cases h <;> exact ⟨rfl, rfl, rfl⟩
  | stb => obtain ⟨-, rfl⟩ := exec_stb_cases h; exact ⟨rfl, rfl, rfl⟩

/-- The whole latched command: an illegal word, or `exec` of what the word decodes to. -/
theorem commandStep_cases {s t : State} (h : commandStep s = .next t) :
    t = raiseErr .illegalCmd 0 0 s ∨ ∃ i, decode s.cmdl = .ok i ∧ exec i s = .next t := by
  unfold commandStep at h
  split at h
  · cases h; exact .inl rfl
  · exact .inr ⟨_, ‹_›, h⟩

theorem commandStep_completes {s t : State} (h : commandStep s = .next t) :
    t.done = true ∧ t.phase = .idle ∧ t.ovr = s.ovr := by
  obtain rfl | ⟨i, -, hexec⟩ := commandStep_cases h
  · exact ⟨rfl, rfl, rfl⟩
  · exact exec_completes hexec

/-- Everything DEC's dispatch can do (30_encoding.md R88). -/
theorem dispatchDec_cases {s t : State} {len : BitVec 8} (h : dispatchDec len s = .next t) :
    (exec (.dec len) s = .next t) ∨
    (len.toNat ≤ s.bufBytes ∧ len ≠ 0 ∧ t = { s with acc := 0, idx := 0, phase := .decAcc }) := by
  unfold dispatchDec at h
  simp only [exec, execDec]
  split at h
  · rename_i hlen; rw [if_pos hlen]; exact .inl h
  · rename_i hlen
    split at h
    · rename_i hzero; rw [if_neg hlen, if_pos hzero]; exact .inl h
    · cases h; exact .inr ⟨by omega, ‹_›, rfl⟩

/-- Everything the DISPATCH step can do: complete as the whole command does, or enter the phase of ENC or of DEC
(30_encoding.md R88). -/
theorem dispatchStep_cases {s t : State} (h : dispatchStep s = .next t) :
    commandStep s = .next t ∨
    (∃ len, decode s.cmdl = .ok (.enc len) ∧ len.toNat ≤ s.bufBytes ∧ s.valWritten = true ∧
      t = { s with q := s.val, cnt := 0, phase := .encDiv }) ∨
    (∃ len, decode s.cmdl = .ok (.dec len) ∧ len.toNat ≤ s.bufBytes ∧ len ≠ 0 ∧
      t = { s with acc := 0, idx := 0, phase := .decAcc }) := by
  unfold dispatchStep at h
  unfold commandStep
  split at h
  · exact .inl h
  · rename_i i _
    cases i with
    | enc len =>
      obtain ⟨hlen, rfl⟩ | ⟨hwritten, hlen, rfl⟩ := dispatchEnc_cases h
      · exact .inl (exec_enc_illegal hlen)
      · exact .inr (.inl ⟨len, ‹_›, hlen, hwritten, rfl⟩)
    | dec len =>
      obtain hexec | ⟨hlen, hzero, rfl⟩ := dispatchDec_cases h
      · exact .inl hexec
      · exact .inr (.inr ⟨len, ‹_›, hlen, hzero, rfl⟩)
    | ldb len => exact .inl h
    | stb => exact .inl h

/-- One round of the divmod loop: DIG[CNT], Q and CNT (41_encoder.md R106). -/
def State.divided (s : State) : State :=
  { s with dig := s.dig.setIfInBounds s.cnt.toNat (lowDigit s.q.toNat), q := s.q / 62#128, cnt := s.cnt + 1 }

/-- The character of digit d written at J (41_encoder.md R107). -/
def State.spelled (d : Digit) (s : State) : State :=
  { s with buf := bufWrite s.buf s.j.toNat (alpha d), j := s.j + 1 }

/-- The digit d taken into ACC (42_decoder.md R139). -/
def State.accumulated (d : Digit) (s : State) : State :=
  { s with acc := BitVec.ofNat 128 (s.acc.toNat * 62 + d.val), idx := s.idx + 1 }

/-- An ENC_DIV step with CNT in range (41_encoder.md R106). -/
theorem encDivStep_eq {s : State} (h : s.cnt.toNat < 22) : encDivStep s =
    if s.divided.q = 0 then
      if s.divided.cnt.toNat > (lenField s.cmdl).toNat then .next (raiseErr .encodeCapacity 0 0 s.divided)
      else .next { s.divided with j := 0, phase := .encWrite }
    else .next s.divided := by
  unfold encDivStep
  rw [if_pos h]
  rfl

theorem encDivStep_cases {s t : State} (h : encDivStep s = .next t) : s.cnt.toNat < 22 ∧
    ((s.divided.q = 0 ∧ t = raiseErr .encodeCapacity 0 0 s.divided) ∨
     (s.divided.q = 0 ∧ s.divided.cnt.toNat ≤ (lenField s.cmdl).toNat ∧
        t = { s.divided with j := 0, phase := .encWrite }) ∨
     (s.divided.q ≠ 0 ∧ t = s.divided)) := by
  by_cases hcnt : s.cnt.toNat < 22
  · refine ⟨hcnt, ?_⟩
    rw [encDivStep_eq hcnt] at h
    split at h
    · split at h <;> cases h
      · exact .inl ⟨‹_›, rfl⟩
      · exact .inr (.inl ⟨‹_›, by omega, rfl⟩)
    · cases h; exact .inr (.inr ⟨‹_›, rfl⟩)
  · rw [encDivStep, if_neg hcnt] at h; cases h

/-- An ENC_WRITE step with its counters in range (41_encoder.md R107). -/
theorem encWriteStep_spells {s : State} (hj : s.j.toNat < s.cnt.toNat) (hcnt : s.cnt.toNat ≤ 22)
    (hbuf : s.j.toNat < s.bufBytes) : encWriteStep s =
    if s.j + 1 = s.cnt then .next (finish .none (BitVec.ofNat 8 s.cnt.toNat) 0 0
      (s.spelled (s.dig[s.cnt.toNat - 1 - s.j.toNat]'(by omega))))
    else .next (s.spelled (s.dig[s.cnt.toNat - 1 - s.j.toNat]'(by omega))) :=
  encWriteStep_eq hj hcnt hbuf

theorem encWriteStep_cases {s t : State} (h : encWriteStep s = .next t) :
    ∃ (hj : s.j.toNat < s.cnt.toNat) (hcnt : s.cnt.toNat ≤ 22), s.j.toNat < s.bufBytes ∧
      ((s.j + 1 = s.cnt ∧ t = finish .none (BitVec.ofNat 8 s.cnt.toNat) 0 0
          (s.spelled (s.dig[s.cnt.toNat - 1 - s.j.toNat]'(by omega)))) ∨
       (s.j + 1 ≠ s.cnt ∧ t = s.spelled (s.dig[s.cnt.toNat - 1 - s.j.toNat]'(by omega)))) := by
  by_cases hrange : s.j.toNat < s.cnt.toNat ∧ s.cnt.toNat ≤ 22 ∧ s.j.toNat < s.bufBytes
  · obtain ⟨hj, hcnt, hbuf⟩ := hrange
    refine ⟨hj, hcnt, hbuf, ?_⟩
    rw [encWriteStep_spells hj hcnt hbuf] at h
    split at h <;> cases h
    · exact .inl ⟨‹_›, rfl⟩
    · exact .inr ⟨‹_›, rfl⟩
  · rw [encWriteStep, dif_neg hrange] at h; cases h

/-- DEC_ACC at a byte never written (10_state.md R44). -/
theorem decAccStep_unwritten {s : State} (hidx : s.idx.toNat < (lenField s.cmdl).toNat)
    (hlen : (lenField s.cmdl).toNat ≤ s.bufBytes) (hb : bufRead s.buf s.idx.toNat = none) :
    decAccStep s = .fault (.unwrittenRead s.idx.toNat) := by
  rw [decAccStep, if_pos ⟨hidx, hlen⟩]
  simp only [hb]

/-- DEC_ACC at a byte that is not in the alphabet (42_decoder.md R132). -/
theorem decAccStep_invalidChar {s : State} {b : Byte} (hidx : s.idx.toNat < (lenField s.cmdl).toNat)
    (hlen : (lenField s.cmdl).toNat ≤ s.bufBytes) (hb : bufRead s.buf s.idx.toNat = some b) (hd : rev b = none) :
    decAccStep s = .next (raiseErr .decodeInvalidChar s.idx b s) := by
  rw [decAccStep, if_pos ⟨hidx, hlen⟩]
  simp only [hb, hd]

/-- DEC_ACC at the character of a digit (42_decoder.md R139). -/
theorem decAccStep_digit {s : State} {b : Byte} {d : Digit} (hidx : s.idx.toNat < (lenField s.cmdl).toNat)
    (hlen : (lenField s.cmdl).toNat ≤ s.bufBytes) (hb : bufRead s.buf s.idx.toNat = some b) (hd : rev b = some d) :
    decAccStep s =
      if s.acc.toNat * 62 + d.val > Config.valueMax then .next (raiseErr .decodeOverflow s.idx b s)
      else if s.idx + 1 = lenField s.cmdl then
        .next (finish .none 0 0 0 (writeVal (s.accumulated d).acc (s.accumulated d)))
      else .next (s.accumulated d) := by
  rw [decAccStep, if_pos ⟨hidx, hlen⟩]
  simp only [hb, hd]
  rfl

theorem decAccStep_cases {s t : State} (h : decAccStep s = .next t) :
    s.idx.toNat < (lenField s.cmdl).toNat ∧ (lenField s.cmdl).toNat ≤ s.bufBytes ∧
      ∃ b, bufRead s.buf s.idx.toNat = some b ∧
        ((t = raiseErr .decodeInvalidChar s.idx b s) ∨ (t = raiseErr .decodeOverflow s.idx b s) ∨
         ∃ d, rev b = some d ∧ s.acc.toNat * 62 + d.val ≤ Config.valueMax ∧
          ((s.idx + 1 = lenField s.cmdl ∧
              t = finish .none 0 0 0 (writeVal (s.accumulated d).acc (s.accumulated d))) ∨
           (s.idx + 1 ≠ lenField s.cmdl ∧ t = s.accumulated d))) := by
  by_cases hrange : s.idx.toNat < (lenField s.cmdl).toNat ∧ (lenField s.cmdl).toNat ≤ s.bufBytes
  · obtain ⟨hidx, hlen⟩ := hrange
    refine ⟨hidx, hlen, ?_⟩
    cases hb : bufRead s.buf s.idx.toNat with
    | none => rw [decAccStep_unwritten hidx hlen hb] at h; cases h
    | some b =>
      refine ⟨b, rfl, ?_⟩
      cases hd : rev b with
      | none => rw [decAccStep_invalidChar hidx hlen hb hd] at h; cases h; exact .inl rfl
      | some d =>
        rw [decAccStep_digit hidx hlen hb hd] at h
        split at h
        · cases h; exact .inr (.inl rfl)
        · refine .inr (.inr ⟨d, rfl, by omega, ?_⟩)
          split at h <;> cases h
          · exact .inl ⟨‹_›, rfl⟩
          · exact .inr ⟨‹_›, rfl⟩
  · rw [decAccStep, if_neg hrange] at h; cases h

end Sys2Proof.Machine

namespace Sys2Proof.Machine

/-! ### The invariant (O53)

The clauses of `State.Inv` fall into two kinds of state: in IDLE only the result fields matter, while a command runs they
are clear and the phase's own clause matters. So each update is held to one of the two lemmas below. -/

/-- Completion meets the invariant, whatever the datapath holds: the code, RLEN and the detail must fit (60_exceptions.md
R183, R186). -/
theorem inv_finish {s : State} {e : ErrCode} {rlen epos ebyte : BitVec 8}
    (hsize : Config.bufBytesMin ≤ s.bufBytes ∧ s.bufBytes ≤ Config.bufBytesMax)
    (hmem : Memory.wf s.bufBytes s.buf = true)
    (hrlen : rlen.toNat ≤ 22) (hrlenErr : e ≠ .none → rlen = 0) (hepos : epos.toNat < s.bufBytes)
    (hdetail : e ≠ .decodeInvalidChar → e ≠ .decodeOverflow → epos = 0 ∧ ebyte = 0) :
    (finish e rlen epos ebyte s).Inv where
  size := hsize
  mem := hmem
  errLegal := by show (errNumber e).toNat ≤ 6; cases e <;> decide
  rlenLegal := ⟨hrlen, fun herr => hrlenErr fun hnone => herr (by rw [hnone]; rfl)⟩
  detailLegal := ⟨hepos, fun h3 h4 => hdetail (fun he => h3 (by rw [he]; rfl)) (fun he => h4 (by rw [he]; rfl))⟩
  busyClear := fun hbusy => absurd rfl hbusy
  idleFresh := fun _ hdone => nomatch hdone
  encDiv := fun hphase => nomatch hphase
  encWrite := fun hphase => nomatch hphase
  decAcc := fun hphase => nomatch hphase

section Completions
variable {s t : State} {i : Instr} {e : ErrCode} {rlen epos ebyte : BitVec 8}
  (hsize : Config.bufBytesMin ≤ s.bufBytes ∧ s.bufBytes ≤ Config.bufBytesMax)
  (hmem : Memory.wf s.bufBytes s.buf = true)
include hsize hmem

theorem inv_finish_none (hrlen : rlen.toNat ≤ 22) : (finish .none rlen 0 0 s).Inv :=
  inv_finish hsize hmem hrlen (fun h => absurd rfl h)
    (Nat.lt_of_lt_of_le (by decide : 0 < Config.bufBytesMin) hsize.1) fun _ _ => ⟨rfl, rfl⟩

theorem inv_raiseErr : (raiseErr e 0 0 s).Inv :=
  inv_finish hsize hmem (Nat.zero_le 22) (fun _ => rfl)
    (Nat.lt_of_lt_of_le (by decide : 0 < Config.bufBytesMin) hsize.1) fun _ _ => ⟨rfl, rfl⟩

/-- A decode error at an index of BUF (60_exceptions.md R186). -/
theorem inv_raiseErr_at (hepos : epos.toNat < s.bufBytes)
    (he : e = .decodeInvalidChar ∨ e = .decodeOverflow) : (raiseErr e epos ebyte s).Inv :=
  inv_finish hsize hmem (Nat.zero_le 22) (fun _ => rfl) hepos fun h3 h4 => (he.elim h3 h4).elim

/-- A whole command meets the invariant from any phase: it completes. -/
theorem inv_exec (h : exec i s = .next t) : t.Inv := by
  cases i with
  | enc len =>
    obtain ⟨-, rfl⟩ | ⟨-, -, -, rfl⟩ | ⟨-, hlen, hfits, rfl⟩ := exec_enc_cases h
    · exact inv_raiseErr hsize hmem
    · exact inv_raiseErr hsize hmem
    · have hroom : 0 + (digits s.val.toNat).length ≤ s.bufBytes := by omega
      refine inv_finish_none hsize (Memory.wf_writeText hroom hmem) ?_
      rw [digits_length_byte]
      exact digits_length_le _
  | dec len =>
    obtain ⟨-, rfl⟩ | ⟨-, -, rfl⟩ | ⟨-, hlen, hloop⟩ := exec_dec_cases h
    · exact inv_raiseErr hsize hmem
    · exact inv_raiseErr hsize hmem
    · have hexplains := decLoop_explains s.buf len.toNat 0 0 (Nat.zero_le _)
      obtain ⟨k, b, acc, hend, rfl⟩ | ⟨k, b, acc, hend, rfl⟩ | ⟨acc, -, rfl⟩ := hloop
      · rw [hend] at hexplains
        have hk : k < len.toNat := by have := hexplains.1; omega
        exact inv_raiseErr_at hsize hmem (by rw [index_byte hk]; exact Nat.lt_of_lt_of_le hk hlen) (.inl rfl)
      · rw [hend] at hexplains
        have hk : k < len.toNat := by have := hexplains.1; omega
        exact inv_raiseErr_at hsize hmem (by rw [index_byte hk]; exact Nat.lt_of_lt_of_le hk hlen) (.inr rfl)
      · exact inv_finish_none hsize hmem (Nat.zero_le 22)
  | ldb len =>
    obtain ⟨-, rfl⟩ | ⟨-, v, -, rfl⟩ := exec_ldb_cases h
    · exact inv_raiseErr hsize hmem
    · exact inv_finish_none hsize hmem (Nat.zero_le 22)
  | stb =>
    obtain ⟨-, rfl⟩ := exec_stb_cases h
    have hroom : 0 + 16 ≤ s.bufBytes := Nat.le_trans (by decide : 16 ≤ Config.bufBytesMin) hsize.1
    have hmem' : Memory.wf s.bufBytes (memWrite s.buf 0 16 s.val) = true := Memory.wf_memWrite hroom hmem
    show (finish .none 16 0 0 { s with buf := memWrite s.buf 0 16 s.val }).Inv
    exact inv_finish_none hsize hmem' (by decide)

theorem inv_commandStep (h : commandStep s = .next t) : t.Inv := by
  obtain rfl | ⟨i, -, hexec⟩ := commandStep_cases h
  · exact inv_raiseErr hsize hmem
  · exact inv_exec hsize hmem hexec

end Completions

/-- What `State.Inv` asks of a state in ENC_DIV (41_encoder.md R106). -/
abbrev DividesVal (t : State) : Prop :=
  ∃ len, decode t.cmdl = .ok (.enc len) ∧ len.toNat ≤ t.bufBytes ∧ t.cnt.toNat < 22 ∧
    t.q.toNat = t.val.toNat / 62 ^ t.cnt.toNat ∧ (t.cnt ≠ 0 → t.q ≠ 0) ∧
    ∀ k (h : k < 22), k < t.cnt.toNat → t.dig[k] = digitAt t.val.toNat k

/-- What `State.Inv` asks of a state in ENC_WRITE (41_encoder.md R107). -/
abbrev WritesText (t : State) : Prop :=
  ∃ len, decode t.cmdl = .ok (.enc len) ∧ len.toNat ≤ t.bufBytes ∧
    t.cnt.toNat = (digits t.val.toNat).length ∧ t.cnt.toNat ≤ len.toNat ∧ t.j.toNat < t.cnt.toNat ∧
    (∀ k (h : k < 22), k < t.cnt.toNat → t.dig[k] = digitAt t.val.toNat k) ∧
    ∀ i (h : i < (digits t.val.toNat).length), i < t.j.toNat → bufRead t.buf i = some (alpha (digits t.val.toNat)[i])

/-- What `State.Inv` asks of a state in DEC_ACC (42_decoder.md R139). -/
abbrev AccumulatesText (t : State) : Prop :=
  ∃ len ds, decode t.cmdl = .ok (.dec len) ∧ len.toNat ≤ t.bufBytes ∧
    t.idx.toNat < len.toNat ∧ bufDigits t.buf 0 t.idx.toNat = some ds ∧ horner 0 ds = t.acc.toNat

/-- A running command meets the invariant when the result fields are clear and its phase's clause holds. -/
theorem inv_of_busy {t : State} (hsize : Config.bufBytesMin ≤ t.bufBytes ∧ t.bufBytes ≤ Config.bufBytesMax)
    (hmem : Memory.wf t.bufBytes t.buf = true) (hphase : t.phase ≠ .idle)
    (hclear : t.done = false ∧ t.err = 0 ∧ t.rlen = 0 ∧ t.epos = 0 ∧ t.ebyte = 0)
    (hdiv : t.phase = .encDiv → DividesVal t) (hwrite : t.phase = .encWrite → WritesText t)
    (hacc : t.phase = .decAcc → AccumulatesText t) :
    t.Inv := by
  obtain ⟨hdone, herr, hrlen, hepos, hebyte⟩ := hclear
  exact {
    size := hsize
    mem := hmem
    errLegal := by rw [herr]; decide
    rlenLegal := by rw [hrlen]; exact ⟨Nat.zero_le 22, fun _ => rfl⟩
    detailLegal := by
      rw [hepos, hebyte]
      exact ⟨Nat.lt_of_lt_of_le (by decide : 0 < Config.bufBytesMin) hsize.1, fun _ _ => ⟨rfl, rfl⟩⟩
    busyClear := fun _ => ⟨hdone, herr, hrlen, hepos, hebyte⟩
    idleFresh := fun hidle => absurd hidle hphase
    encDiv := hdiv
    encWrite := hwrite
    decAcc := hacc }

/-- The invariant says nothing of the turns, of the host's operations or of its replies. -/
theorem State.Inv.withHostSide {s : State} (h : s.Inv) (turns : List Turn) (ops : List HostOp) (rs : List Word)
    (n : Nat) : State.Inv { s with turns := turns, hostOps := ops, replies := rs, freeDraws := n } where
  size := h.size
  mem := h.mem
  errLegal := h.errLegal
  rlenLegal := h.rlenLegal
  detailLegal := h.detailLegal
  busyClear := h.busyClear
  idleFresh := h.idleFresh
  encDiv := h.encDiv
  encWrite := h.encWrite
  decAcc := h.decAcc

theorem HostEffect.inv {s t : State} {op : HostOp} (h : HostEffect s op t) (hinv : s.Inv) : t.Inv := by
  cases h with
  | overruns hbusy _ =>
    exact inv_of_busy hinv.size hinv.mem hbusy (hinv.busyClear hbusy) hinv.encDiv hinv.encWrite hinv.decAcc
  | accepts _ =>
    exact inv_of_busy hinv.size hinv.mem (by simp) ⟨rfl, rfl, rfl, rfl, rfl⟩ (fun hphase => nomatch hphase)
      (fun hphase => nomatch hphase) (fun hphase => nomatch hphase)
  | @storesByte off w i hidle _ hi =>
    exact {
      size := hinv.size
      mem := Memory.wf_bufWrite hi hinv.mem
      errLegal := hinv.errLegal
      rlenLegal := hinv.rlenLegal
      detailLegal := hinv.detailLegal
      busyClear := hinv.busyClear
      idleFresh := hinv.idleFresh
      encDiv := fun hphase => nomatch hidle.symm.trans hphase
      encWrite := fun hphase => nomatch hidle.symm.trans hphase
      decAcc := fun hphase => nomatch hidle.symm.trans hphase }
  | resets =>
    exact (inv_resetOf hinv.size.1 hinv.size.2).withHostSide s.turns s.hostOps s.replies s.freeDraws
  | observes _ ops rs n => exact hinv.withHostSide s.turns ops rs n

/-- The divmod loop has run n + 1 rounds exactly when v has n + 1 digits (41_encoder.md R101, R108). -/
theorem digits_length_eq_succ {v n : Nat} (hv : v < 62 ^ 22) (hdone : v / 62 ^ (n + 1) = 0)
    (hgoes : n ≠ 0 → v / 62 ^ n ≠ 0) : (digits v).length = n + 1 := by
  have hle : (digits v).length ≤ n + 1 :=
    (digits_length_le_iff hv (by omega)).2 (by simpa [Nat.div_eq_zero_iff] using hdone)
  rcases Nat.eq_zero_or_pos n with rfl | hn
  · have := digits_length_pos v
    omega
  · have hnot : ¬ (digits v).length ≤ n := by
      rw [digits_length_le_iff hv hn]
      intro hlt
      exact hgoes (by omega) (Nat.div_eq_of_lt hlt)
    omega

theorem divided_cnt {s : State} (hcnt : s.cnt.toNat < 22) : s.divided.cnt.toNat = s.cnt.toNat + 1 :=
  BitVec.toNat_add_of_lt (y := 1) (show s.cnt.toNat + 1 < 2 ^ 5 by omega)

theorem divided_q {s : State} (hq : s.q.toNat = s.val.toNat / 62 ^ s.cnt.toNat) :
    s.divided.q.toNat = s.val.toNat / 62 ^ (s.cnt.toNat + 1) := by
  show (s.q / 62#128).toNat = _
  rw [BitVec.toNat_udiv, hq, pow_succ, ← Nat.div_div_eq_div_mul]
  rfl

theorem divided_dig {s : State} (hcnt : s.cnt.toNat < 22) (hq : s.q.toNat = s.val.toNat / 62 ^ s.cnt.toNat)
    (hdig : ∀ k (h : k < 22), k < s.cnt.toNat → s.dig[k] = digitAt s.val.toNat k) (k : Nat)
    (hk : k < 22) (hlt : k < s.divided.cnt.toNat) : s.divided.dig[k] = digitAt s.val.toNat k := by
  rw [divided_cnt hcnt] at hlt
  show (s.dig.setIfInBounds s.cnt.toNat (lowDigit s.q.toNat))[k] = _
  rw [Vector.getElem_setIfInBounds]
  split
  · rename_i heq
    rw [hq, heq, digitAt]
  · exact hdig k hk (by omega)

/-- ENC_DIV (41_encoder.md R106): the digit of weight 62^CNT is stored and Q goes on to the next weight; with Q = 0 all
digits stand in DIG. -/
theorem inv_encDivStep {s t : State} (hinv : s.Inv) (hphase : s.phase = .encDiv) (h : encDivStep s = .next t) :
    t.Inv := by
  have hbusy : s.phase ≠ .idle := by simp [hphase]
  obtain ⟨len, hdec, hlen, -, hq, hgoes, hdig⟩ := hinv.encDiv hphase
  obtain ⟨hcnt, ⟨-, rfl⟩ | ⟨hzero, hfits, rfl⟩ | ⟨hmore, rfl⟩⟩ := encDivStep_cases h
  · exact inv_raiseErr hinv.size hinv.mem
  · have hdone : s.val.toNat / 62 ^ (s.cnt.toNat + 1) = 0 := by rw [← divided_q hq, hzero]; rfl
    have hgoes' : s.cnt.toNat ≠ 0 → s.val.toNat / 62 ^ s.cnt.toNat ≠ 0 := fun hne => by
      rw [← hq]
      exact fun hq0 => hgoes (fun hc => hne (by rw [hc]; rfl)) (BitVec.eq_of_toNat_eq hq0)
    have hcount : s.divided.cnt.toNat = (digits s.val.toNat).length := by
      rw [divided_cnt hcnt, digits_length_eq_succ (value_lt s.val) hdone hgoes']
    have hpos : 0 < s.divided.cnt.toNat := by rw [divided_cnt hcnt]; omega
    rw [lenField_of_decode hdec] at hfits
    exact inv_of_busy hinv.size hinv.mem (by simp) (hinv.busyClear hbusy) (fun hp => nomatch hp)
      (fun _ => ⟨len, hdec, hlen, hcount, hfits, hpos, divided_dig hcnt hq hdig, fun _ _ hlt => nomatch hlt⟩)
      (fun hp => nomatch hp)
  · have hroom : s.divided.cnt.toNat < 22 := by
      rw [divided_cnt hcnt]
      by_contra hge
      refine hmore (BitVec.eq_of_toNat_eq ?_)
      rw [divided_q hq, show s.cnt.toNat + 1 = 22 by omega]
      exact Nat.div_eq_of_lt (value_lt s.val)
    have hq' : s.divided.q.toNat = s.val.toNat / 62 ^ s.divided.cnt.toNat := by
      rw [divided_cnt hcnt, divided_q hq]
    exact inv_of_busy hinv.size hinv.mem hbusy (hinv.busyClear hbusy)
      (fun _ => ⟨len, hdec, hlen, hroom, hq', fun _ => hmore, divided_dig hcnt hq hdig⟩)
      (fun hp => nomatch hphase.symm.trans hp) (fun hp => nomatch hphase.symm.trans hp)

/-- ENC_WRITE (41_encoder.md R107): character J of the text is written. -/
theorem inv_encWriteStep {s t : State} (hinv : s.Inv) (hphase : s.phase = .encWrite) (h : encWriteStep s = .next t) :
    t.Inv := by
  have hbusy : s.phase ≠ .idle := by simp [hphase]
  obtain ⟨len, hdec, hlen, hcount, hfits, -, hdig, htext⟩ := hinv.encWrite hphase
  obtain ⟨hj, hcnt, hroom, hcases⟩ := encWriteStep_cases h
  have hmem : ∀ d, Memory.wf s.bufBytes (bufWrite s.buf s.j.toNat (alpha d)) = true :=
    fun _ => Memory.wf_bufWrite hroom hinv.mem
  obtain ⟨-, rfl⟩ | ⟨hmore, rfl⟩ := hcases
  · exact inv_finish_none hinv.size (hmem _) (by rw [BitVec.toNat_ofNat]; omega)
  · have hj' : (s.j + 1).toNat = s.j.toNat + 1 :=
      BitVec.toNat_add_of_lt (y := 1) (show s.j.toNat + 1 < 2 ^ 5 by omega)
    have hlt : (s.j + 1).toNat < s.cnt.toNat := by
      have : (s.j + 1).toNat ≠ s.cnt.toNat := fun heq => hmore (BitVec.eq_of_toNat_eq heq)
      omega
    have htext' : ∀ i (hi : i < (digits s.val.toNat).length), i < (s.j + 1).toNat →
        bufRead (bufWrite s.buf s.j.toNat (alpha (s.dig[s.cnt.toNat - 1 - s.j.toNat]'(by omega)))) i =
          some (alpha (digits s.val.toNat)[i]) := by
      intro i hi hij
      rw [bufRead_bufWrite]
      split
      · rename_i heq
        subst heq
        rw [hdig _ _ (by omega), digits_getElem, hcount]
      · exact htext i hi (by omega)
    exact inv_of_busy hinv.size (hmem _) hbusy (hinv.busyClear hbusy) (fun hp => nomatch hphase.symm.trans hp)
      (fun _ => ⟨len, hdec, hlen, hcount, hfits, hlt, hdig, htext'⟩) (fun hp => nomatch hphase.symm.trans hp)

/-- DEC_ACC (42_decoder.md R139): one more character is read and its digit taken into ACC. -/
theorem inv_decAccStep {s t : State} (hinv : s.Inv) (hphase : s.phase = .decAcc) (h : decAccStep s = .next t) :
    t.Inv := by
  have hbusy : s.phase ≠ .idle := by simp [hphase]
  obtain ⟨len, ds, hdec, hlen, hidx, hds, hacc⟩ := hinv.decAcc hphase
  obtain ⟨hrange, hfits, b, hb, hcases⟩ := decAccStep_cases h
  have hinside : s.idx.toNat < s.bufBytes := by omega
  obtain rfl | rfl | ⟨d, hd, hmax, ⟨-, rfl⟩ | ⟨hmore, rfl⟩⟩ := hcases
  · exact inv_raiseErr_at hinv.size hinv.mem hinside (.inl rfl)
  · exact inv_raiseErr_at hinv.size hinv.mem hinside (.inr rfl)
  · exact inv_finish_none hinv.size hinv.mem (Nat.zero_le 22)
  · rw [lenField_of_decode hdec] at hmore
    have hidx' : (s.idx + 1).toNat = s.idx.toNat + 1 :=
      BitVec.toNat_add_of_lt (y := 1) (show s.idx.toNat + 1 < 2 ^ 8 by have := len.isLt; omega)
    have hlt : (s.idx + 1).toNat < len.toNat := by
      have : (s.idx + 1).toNat ≠ len.toNat := fun heq => hmore (BitVec.eq_of_toNat_eq heq)
      omega
    have hds' : bufDigits s.buf 0 (s.idx + 1).toNat = some (ds ++ [d]) := by
      rw [hidx']
      exact bufDigits_snoc hds (by rwa [Nat.zero_add]) hd
    have hacc' : horner 0 (ds ++ [d]) = (s.accumulated d).acc.toNat := by
      show _ = (BitVec.ofNat 128 (s.acc.toNat * 62 + d.val)).toNat
      rw [horner_append, hacc, BitVec.toNat_ofNat, Nat.mod_eq_of_lt (Nat.lt_of_le_of_lt hmax (by decide))]
      rfl
    exact inv_of_busy hinv.size hinv.mem hbusy (hinv.busyClear hbusy) (fun hp => nomatch hphase.symm.trans hp)
      (fun hp => nomatch hphase.symm.trans hp) (fun _ => ⟨len, ds ++ [d], hdec, hlen, hlt, hds', hacc'⟩)

/-- DISPATCH (30_encoding.md R88): completion as the whole command, or the first state of ENC_DIV or DEC_ACC. -/
theorem inv_dispatchStep {s t : State} (hinv : s.Inv) (hphase : s.phase = .dispatch) (h : dispatchStep s = .next t) :
    t.Inv := by
  have hclear := hinv.busyClear (by simp [hphase])
  obtain hcommand | ⟨len, hdec, hlen, -, rfl⟩ | ⟨len, hdec, hlen, hne, rfl⟩ := dispatchStep_cases h
  · exact inv_commandStep hinv.size hinv.mem hcommand
  · exact inv_of_busy hinv.size hinv.mem (by simp) hclear
      (fun _ => ⟨len, hdec, hlen, Nat.zero_lt_succ 21, by simp, fun h0 => absurd rfl h0, fun _ _ hlt => nomatch hlt⟩)
      (fun hp => nomatch hp) (fun hp => nomatch hp)
  · have hpos : 0 < len.toNat := Nat.pos_of_ne_zero (length_ne_zero.1 hne)
    exact inv_of_busy hinv.size hinv.mem (by simp) hclear (fun hp => nomatch hp) (fun hp => nomatch hp)
      (fun _ => ⟨len, [], hdec, hlen, hpos, rfl, rfl⟩)

theorem inv_engineStep {s t : State} (hinv : s.Inv) (h : engineStep s = .next t) : t.Inv := by
  unfold engineStep at h
  split at h
  · cases h; exact hinv
  · exact inv_dispatchStep hinv ‹_› h
  · exact inv_encDivStep hinv ‹_› h
  · exact inv_encWriteStep hinv ‹_› h
  · exact inv_decAccStep hinv ‹_› h

/-- Settles O53: by whose turn the step is, and for an engine step by its phase. -/
theorem everyStepKeepsTheInvariant : Obligations.EveryStepKeepsTheInvariant := by
  intro s t hinv hstep
  have hturn := hinv.withHostSide s.turns.tail s.hostOps s.replies s.freeDraws
  cases step_effect hstep with
  | @host op ops _ _ heffect => exact heffect.inv (hinv.withHostSide s.turns.tail ops s.replies s.freeDraws)
  | hostRests _ _ => exact hturn
  | engine _ hengine => exact inv_engineStep hturn hengine
  | command _ _ hcommand => exact inv_commandStep hturn.size hturn.mem hcommand

end Sys2Proof.Machine

namespace Sys2Proof.Machine

/-! ### Where a step stops (O54, O24, O34)

The faults of each command and of each phase, by the reads of 10_state.md R44. -/

/-- The fault `f` is the UnwrittenRead of something that state `s` never wrote (10_state.md R44). -/
def UnwrittenReadIn (s : State) (f : Fault) : Prop :=
  (f = .unwrittenVal ∧ s.valWritten = false) ∨ ∃ i, f = .unwrittenRead i ∧ i < s.bufBytes ∧ bufRead s.buf i = none

/-- ENC faults exactly where it reads a VAL never written, past the check of LEN (10_state.md R44). -/
theorem exec_enc_fault_iff {s : State} {len : BitVec 8} {f : Fault} :
    exec (.enc len) s = .fault f ↔ f = .unwrittenVal ∧ s.valWritten = false ∧ len.toNat ≤ s.bufBytes := by
  constructor
  · intro h
    rcases Nat.lt_or_ge s.bufBytes len.toNat with hlen | hlen
    · rw [exec_enc_illegal hlen] at h; cases h
    · cases hw : s.valWritten with
      | false => rw [exec_enc_unwritten hw hlen] at h; cases h; exact ⟨rfl, rfl, hlen⟩
      | true =>
        rcases Nat.lt_or_ge len.toNat (digits s.val.toNat).length with hk | hk
        · rw [exec_enc_capacity hw hlen hk] at h; cases h
        · rw [exec_enc_fits hw hlen hk] at h; cases h
  · rintro ⟨rfl, hw, hlen⟩
    exact exec_enc_unwritten hw hlen

/-- STB faults exactly where VAL was never written (10_state.md R44). -/
theorem exec_stb_fault_iff {s : State} {f : Fault} :
    exec .stb s = .fault f ↔ f = .unwrittenVal ∧ s.valWritten = false := by
  constructor
  · intro h
    cases hw : s.valWritten with
    | false => rw [exec_stb_unwritten hw] at h; cases h; exact ⟨rfl, rfl⟩
    | true => rw [exec_stb_written hw] at h; cases h
  · rintro ⟨rfl, hw⟩
    exact exec_stb_unwritten hw

/-- DEC faults exactly at a byte never written behind a text that it passes (10_state.md R44, 42_decoder.md R130). -/
theorem exec_dec_fault_iff {s : State} {len : BitVec 8} {f : Fault} :
    exec (.dec len) s = .fault f ↔ ∃ i, f = .unwrittenRead i ∧ len.toNat ≤ s.bufBytes ∧ i < len.toNat ∧
      bufRead s.buf i = none ∧ ∃ ds, bufDigits s.buf 0 i = some ds ∧ horner 0 ds ≤ Config.valueMax := by
  constructor
  · intro h
    simp only [exec, execDec] at h
    split at h
    · cases h
    · split at h
      · cases h
      · have hexplains := decLoop_explains s.buf len.toNat 0 0 (Nat.zero_le _)
        cases hend : decLoop s.buf len.toNat 0 0 with
        | decoded acc => rw [hend] at h; cases h
        | invalidChar i b acc => rw [hend] at h; cases h
        | overflow i b acc => rw [hend] at h; cases h
        | unwritten i =>
          rw [hend] at h hexplains
          cases h
          obtain ⟨hi, -, ds, hds, hv, hb⟩ := hexplains
          exact ⟨i, rfl, by omega, by omega, hb, ds, hds, hv⟩
  · rintro ⟨i, rfl, hlen, hi, hb, ds, hds, hv⟩
    rw [exec_dec_runs (length_ne_zero.2 (by omega)) hlen,
      decLoop_unwritten hi hds hv (by rwa [Nat.zero_add]), Nat.zero_add]
    rfl

/-- LDB faults at one of its 16 bytes (10_state.md R44). -/
theorem exec_ldb_fault {s : State} {len : BitVec 8} {f : Fault} (h : exec (.ldb len) s = .fault f) :
    ∃ i, f = .unwrittenRead i ∧ i < 16 ∧ bufRead s.buf i = none := by
  simp only [exec, execLdb] at h
  split at h
  · cases h
  · obtain ⟨i, hi, hb, hread⟩ | hwritten := memRead_written_or_error (m := s.buf)
    · rw [hread] at h; cases h; exact ⟨i, rfl, hi, hb⟩
    · obtain ⟨v, hread, -⟩ := memRead16 hwritten
      rw [hread] at h; cases h

theorem exec_fault {i : Instr} {s : State} {f : Fault} (hsize : Config.bufBytesMin ≤ s.bufBytes)
    (h : exec i s = .fault f) : UnwrittenReadIn s f := by
  cases i with
  | enc len => obtain ⟨rfl, hw, -⟩ := exec_enc_fault_iff.1 h; exact .inl ⟨rfl, hw⟩
  | dec len =>
    obtain ⟨k, rfl, hlen, hk, hb, -⟩ := exec_dec_fault_iff.1 h
    exact .inr ⟨k, rfl, by omega, hb⟩
  | ldb len =>
    obtain ⟨k, rfl, hk, hb⟩ := exec_ldb_fault h
    exact .inr ⟨k, rfl, Nat.lt_of_lt_of_le (Nat.lt_trans hk (by decide)) hsize, hb⟩
  | stb => exact .inl (exec_stb_fault_iff.1 h)

theorem commandStep_fault {s : State} {f : Fault} (h : commandStep s = .fault f) :
    ∃ i, decode s.cmdl = .ok i ∧ exec i s = .fault f := by
  unfold commandStep at h
  split at h
  · cases h
  · exact ⟨_, ‹_›, h⟩

/-- ENC's dispatch faults where the whole ENC does: both read VAL after the check of LEN. -/
theorem dispatchEnc_fault_iff {s : State} {len : BitVec 8} {f : Fault} :
    dispatchEnc len s = .fault f ↔ exec (.enc len) s = .fault f := by
  rw [exec_enc_fault_iff, dispatchEnc]
  by_cases hlen : len.toNat > s.bufBytes
  · simp [hlen]
  · cases hw : s.valWritten with
    | false => simp [hlen, valRead_unwritten hw, eq_comm]; omega
    | true => simp [hlen, valRead_written hw]

theorem dispatchDec_ne_fault {s : State} {len : BitVec 8} {f : Fault} : dispatchDec len s ≠ .fault f := by
  unfold dispatchDec
  split
  · simp
  · split <;> simp

/-- DISPATCH faults where the whole command does, but for DEC, which has its own phase (30_encoding.md R88). -/
theorem dispatchStep_fault_iff {s : State} {f : Fault} : dispatchStep s = .fault f ↔
    ∃ i, decode s.cmdl = .ok i ∧ (∀ len, i ≠ .dec len) ∧ exec i s = .fault f := by
  unfold dispatchStep
  cases hdec : decode s.cmdl with
  | error e => simp
  | ok i =>
    cases i with
    | enc len => simpa [dispatchInstr] using dispatchEnc_fault_iff
    | dec len => simpa [dispatchInstr] using dispatchDec_ne_fault
    | ldb len => simp [dispatchInstr, exec]
    | stb => simp [dispatchInstr, exec]

/-- ENC_DIV in its range never stops (41_encoder.md R106). -/
theorem encDivStep_ne_fault {s : State} {f : Fault} (hcnt : s.cnt.toNat < 22) : encDivStep s ≠ .fault f := by
  rw [encDivStep_eq hcnt]
  split
  · split <;> simp
  · simp

/-- ENC_WRITE in its range never stops (41_encoder.md R107). -/
theorem encWriteStep_ne_fault {s : State} {f : Fault} (hj : s.j.toNat < s.cnt.toNat) (hcnt : s.cnt.toNat ≤ 22)
    (hbuf : s.j.toNat < s.bufBytes) : encWriteStep s ≠ .fault f := by
  rw [encWriteStep_spells hj hcnt hbuf]
  split <;> simp

/-- DEC_ACC in its range stops only at a byte never written (10_state.md R44, 42_decoder.md R139). -/
theorem decAccStep_fault {s : State} {f : Fault} (hidx : s.idx.toNat < (lenField s.cmdl).toNat)
    (hlen : (lenField s.cmdl).toNat ≤ s.bufBytes) (h : decAccStep s = .fault f) :
    f = .unwrittenRead s.idx.toNat ∧ bufRead s.buf s.idx.toNat = none := by
  cases hb : bufRead s.buf s.idx.toNat with
  | none => rw [decAccStep_unwritten hidx hlen hb] at h; cases h; exact ⟨rfl, rfl⟩
  | some b =>
    cases hd : rev b with
    | none => rw [decAccStep_invalidChar hidx hlen hb hd] at h; cases h
    | some d =>
      rw [decAccStep_digit hidx hlen hb hd] at h
      split at h
      · cases h
      · split at h <;> cases h

/-- The invariant keeps the counters of every phase in range, so the fault of log 12 is never raised. -/
theorem engineStep_fault {s : State} {f : Fault} (hinv : s.Inv) (h : engineStep s = .fault f) :
    UnwrittenReadIn s f := by
  unfold engineStep at h
  split at h
  · cases h
  · obtain ⟨i, -, -, hexec⟩ := dispatchStep_fault_iff.1 h
    exact exec_fault hinv.size.1 hexec
  · rename_i hphase
    obtain ⟨_, -, -, hcnt, -⟩ := hinv.encDiv hphase
    exact absurd h (encDivStep_ne_fault hcnt)
  · rename_i hphase
    obtain ⟨len, -, hlen, hcount, hfits, hj, -⟩ := hinv.encWrite hphase
    have hcnt : s.cnt.toNat ≤ 22 := hcount ▸ digits_length_le _
    exact absurd h (encWriteStep_ne_fault hj hcnt (by omega))
  · rename_i hphase
    obtain ⟨len, -, hdec, hlen, hidx, -⟩ := hinv.decAcc hphase
    have hfield : lenField s.cmdl = len := lenField_of_decode hdec
    obtain ⟨rfl, hb⟩ := decAccStep_fault (by rwa [hfield]) (by rwa [hfield]) h
    exact .inr ⟨_, rfl, by omega, hb⟩

theorem hostWrite_ne_fault {s : State} {width : AccessWidth} {off : BitVec 12} {w : Word} {f : Fault} :
    hostWrite width off w s ≠ .fault f := by
  unfold hostWrite
  split
  · simp
  · split <;> simp
  · simp
  · split <;> simp
  · simp

/-- The host's only fault is the idle read of a BUF byte never written (10_state.md R44, 20_memory.md R59). -/
theorem hostStep_fault {s : State} {op : HostOp} {f : Fault} (h : hostStep op s = .fault f) : UnwrittenReadIn s f := by
  cases op with
  | write width off w => exact absurd h hostWrite_ne_fault
  | read width off =>
    simp only [hostStep, hostRead] at h
    split at h
    · cases h
    · cases h
    · cases h
    · rename_i i htarget
      split at h
      · cases h
      · split at h <;> cases h
        exact .inr ⟨i, rfl, (hostTarget_buf htarget).2.2, ‹_›⟩
    · cases h
  | wait => simp only [hostStep] at h; split at h <;> cases h
  | reset => cases h

/-- The host is refused only for an access outside 20_memory.md R54. -/
theorem hostStep_refused {s : State} {op : HostOp} {r : Refusal} (h : hostStep op s = .refused r) :
    r = .hostAccessWidth := by
  cases op with
  | write width off w =>
    simp only [hostStep, hostWrite] at h
    split at h
    · cases h; rfl
    · split at h <;> cases h
    · cases h
    · split at h <;> cases h
    · cases h
  | read width off =>
    simp only [hostStep, hostRead] at h
    split at h
    · cases h; rfl
    · cases h
    · cases h
    · split at h
      · cases h
      · split at h <;> cases h
    · cases h
  | wait => simp only [hostStep] at h; split at h <;> cases h
  | reset => cases h

theorem exec_ne_refused {i : Instr} {s : State} {r : Refusal} : exec i s ≠ .refused r := by
  cases i with
  | enc len =>
    simp only [exec, execEnc]
    split
    · simp
    · split
      · simp
      · split <;> simp
  | dec len =>
    simp only [exec, execDec]
    split
    · simp
    · split
      · simp
      · cases decLoop s.buf len.toNat 0 0 <;> simp [endDec]
  | ldb len =>
    simp only [exec, execLdb]
    split
    · simp
    · split <;> simp
  | stb =>
    simp only [exec, execStb]
    split <;> simp

theorem commandStep_ne_refused {s : State} {r : Refusal} : commandStep s ≠ .refused r := by
  unfold commandStep
  split
  · simp
  · exact exec_ne_refused

theorem dispatchStep_ne_refused {s : State} {r : Refusal} : dispatchStep s ≠ .refused r := by
  unfold dispatchStep
  split
  · simp
  · rename_i i _
    cases i with
    | enc len =>
      simp only [dispatchInstr, dispatchEnc]
      split
      · simp
      · split <;> simp
    | dec len =>
      simp only [dispatchInstr, dispatchDec]
      split
      · simp
      · split <;> simp
    | ldb len => exact exec_ne_refused (i := .ldb len)
    | stb => exact exec_ne_refused (i := .stb)

/-- The engine is never refused: the only refusal is the host's (20_memory.md R54). -/
theorem engineStep_ne_refused {s : State} {r : Refusal} : engineStep s ≠ .refused r := by
  unfold engineStep
  split
  · simp
  · exact dispatchStep_ne_refused
  · unfold encDivStep
    split
    · dsimp only
      split
      · split <;> simp
      · simp
    · simp
  · unfold encWriteStep
    split
    · dsimp only
      split <;> simp
    · simp
  · unfold decAccStep
    split
    · split
      · simp
      · split
        · simp
        · split
          · simp
          · dsimp only
            split <;> simp
    · simp

/-- A step that stops: on the host's turn in its operation, else in the engine. -/
theorem step_stops {s : State} {o : Host.Outcome State Fault Refusal} (hstep : step s = o) (hstop : ∀ t, o ≠ .next t) :
    (∃ op ops, hostStep op { s with turns := s.turns.tail, hostOps := ops } = o) ∨
    engineStep { s with turns := s.turns.tail } = o ∨ commandStep { s with turns := s.turns.tail } = o := by
  rw [step_eq_takeTurn] at hstep
  cases hturn : turnOf s with
  | host =>
    rw [hturn, takeTurn, hostTurn] at hstep
    split at hstep
    · exact absurd hstep.symm (hstop _)
    · exact .inl ⟨_, _, hstep⟩
  | engine => rw [hturn] at hstep; exact .inr (.inl hstep)
  | command =>
    rw [hturn, takeTurn] at hstep
    split at hstep
    · exact .inr (.inr hstep)
    · exact .inr (.inl hstep)

/-- Settles O54: the invariant keeps the counters in range, so what is left are the reads of R44 and the refusal of R54. -/
theorem onlyUnwrittenReadsFault : Obligations.OnlyUnwrittenReadsFault := by
  intro s hinv
  have hturn := hinv.withHostSide s.turns.tail s.hostOps s.replies s.freeDraws
  refine ⟨fun f hstep => ?_, fun r hstep => ?_⟩
  · obtain ⟨op, ops, hhost⟩ | hengine | hcommand := step_stops hstep (by simp)
    · have hfault := hostStep_fault hhost
      exact hfault
    · have hfault := engineStep_fault hturn hengine
      exact hfault
    · obtain ⟨i, -, hexec⟩ := commandStep_fault hcommand
      have hfault := exec_fault hturn.size.1 hexec
      exact hfault
  · obtain ⟨op, ops, hhost⟩ | hengine | hcommand := step_stops hstep (by simp)
    · exact hostStep_refused hhost
    · exact absurd hengine engineStep_ne_refused
    · exact absurd hcommand commandStep_ne_refused

/-- Settles O24: the loop's `unwritten` end is the only fault of DEC. -/
theorem decFaultsAtAnUnwrittenByte : Obligations.DecFaultsAtAnUnwrittenByte := by
  intro s len i
  rw [exec_dec_fault_iff]
  simp only [Fault.unwrittenRead.injEq]
  exact ⟨fun ⟨_, rfl, hdec⟩ => hdec, fun hdec => ⟨i, rfl, hdec⟩⟩

/-- A whole command faults at VAL exactly where it is ENC with a legal LEN, or STB, and VAL was never written. -/
theorem exec_unwrittenVal_iff {i : Instr} {s : State} : exec i s = .fault .unwrittenVal ↔
    s.valWritten = false ∧ ((∃ len, i = .enc len ∧ len.toNat ≤ s.bufBytes) ∨ i = .stb) := by
  cases i with
  | enc len => simp [exec_enc_fault_iff]
  | dec len => simp [exec_dec_fault_iff]
  | ldb len =>
    simp only [reduceCtorEq, false_and, exists_false, or_false, and_false, iff_false]
    intro h
    obtain ⟨_, hf, -⟩ := exec_ldb_fault h
    cases hf
  | stb => simp [exec_stb_fault_iff]

/-- Past DISPATCH the engine does not read VAL. -/
theorem engineStep_unwrittenVal_phase {s : State} (h : engineStep s = .fault .unwrittenVal) :
    s.phase = .dispatch ∧ dispatchStep s = .fault .unwrittenVal := by
  unfold engineStep at h
  split at h
  · cases h
  · exact ⟨‹_›, h⟩
  · by_cases hcnt : s.cnt.toNat < 22
    · exact absurd h (encDivStep_ne_fault hcnt)
    · rw [encDivStep, if_neg hcnt] at h; cases h
  · by_cases hrange : s.j.toNat < s.cnt.toNat ∧ s.cnt.toNat ≤ 22 ∧ s.j.toNat < s.bufBytes
    · exact absurd h (encWriteStep_ne_fault hrange.1 hrange.2.1 hrange.2.2)
    · rw [encWriteStep, dif_neg hrange] at h; cases h
  · by_cases hrange : s.idx.toNat < (lenField s.cmdl).toNat ∧ (lenField s.cmdl).toNat ≤ s.bufBytes
    · cases (decAccStep_fault hrange.1 hrange.2 h).1
    · rw [decAccStep, if_neg hrange] at h; cases h

/-- Settles O34: the whole command by its own fault lemma, the engine because only DISPATCH reads VAL. -/
theorem unwrittenValReadFaults : Obligations.UnwrittenValReadFaults := by
  refine ⟨fun i s => ?_, fun s => ⟨fun h => ?_, fun ⟨hw, hphase, hcmd⟩ => ?_⟩⟩
  · rw [exec_unwrittenVal_iff]
    cases i <;> simp
  · obtain ⟨hphase, hdispatch⟩ := engineStep_unwrittenVal_phase h
    obtain ⟨i, hdec, -, hexec⟩ := dispatchStep_fault_iff.1 hdispatch
    obtain ⟨hw, ⟨len, rfl, hlen⟩ | rfl⟩ := exec_unwrittenVal_iff.1 hexec
    · exact ⟨hw, hphase, .inl ⟨len, hdec, hlen⟩⟩
    · exact ⟨hw, hphase, .inr hdec⟩
  · simp only [engineStep, hphase]
    obtain ⟨len, hdec, hlen⟩ | hdec := hcmd
    · exact dispatchStep_fault_iff.2
        ⟨.enc len, hdec, by simp, exec_unwrittenVal_iff.2 ⟨hw, .inl ⟨len, rfl, hlen⟩⟩⟩
    · exact dispatchStep_fault_iff.2 ⟨.stb, hdec, by simp, exec_unwrittenVal_iff.2 ⟨hw, .inr rfl⟩⟩

end Sys2Proof.Machine

namespace Sys2Proof.Machine

/-! ### What changes VAL, PHASE and STATUS (O55, O57, O58) -/

/-- In state t a command has just written VAL and completed without an error (10_state.md R21). -/
def LoadedVal (t : State) : Prop := t.valWritten = true ∧ t.phase = .idle ∧ t.err = 0

theorem exec_val {i : Instr} {s t : State} (h : exec i s = .next t) :
    t.val = s.val ∨ LoadedVal t ∧ ∃ len, i = .dec len ∨ i = .ldb len := by
  cases i with
  | enc len => obtain ⟨-, rfl⟩ | ⟨-, -, -, rfl⟩ | ⟨-, -, -, rfl⟩ := exec_enc_cases h <;> exact .inl rfl
  | dec len =>
    obtain ⟨-, rfl⟩ | ⟨-, -, rfl⟩ | ⟨-, -, ⟨_, _, _, -, rfl⟩ | ⟨_, _, _, -, rfl⟩ | ⟨_, -, rfl⟩⟩ := exec_dec_cases h
    · exact .inl rfl
    · exact .inl rfl
    · exact .inl rfl
    · exact .inl rfl
    · exact .inr ⟨⟨rfl, rfl, rfl⟩, len, .inl rfl⟩
  | ldb len =>
    obtain ⟨-, rfl⟩ | ⟨-, _, -, rfl⟩ := exec_ldb_cases h
    · exact .inl rfl
    · exact .inr ⟨⟨rfl, rfl, rfl⟩, len, .inr rfl⟩
  | stb => obtain ⟨-, rfl⟩ := exec_stb_cases h; exact .inl rfl

theorem commandStep_val {s t : State} (h : commandStep s = .next t) :
    t.val = s.val ∨ LoadedVal t ∧ ∃ len, decode s.cmdl = .ok (.dec len) ∨ decode s.cmdl = .ok (.ldb len) := by
  obtain rfl | ⟨i, hdec, hexec⟩ := commandStep_cases h
  · exact .inl rfl
  · obtain hval | ⟨hloaded, len, rfl | rfl⟩ := exec_val hexec
    · exact .inl hval
    · exact .inr ⟨hloaded, len, .inl hdec⟩
    · exact .inr ⟨hloaded, len, .inr hdec⟩

/-- An engine step writes VAL only at the end of DEC_ACC or in the dispatch of DEC or LDB (10_state.md R21). -/
theorem engineStep_val {s t : State} (h : engineStep s = .next t) :
    t.val = s.val ∨ LoadedVal t ∧ s.phase ≠ .idle ∧
      (s.phase = .decAcc ∨ ∃ len, decode s.cmdl = .ok (.dec len) ∨ decode s.cmdl = .ok (.ldb len)) := by
  unfold engineStep at h
  split at h
  · cases h; exact .inl rfl
  · rename_i hphase
    obtain hcommand | ⟨_, -, -, -, rfl⟩ | ⟨_, -, -, -, rfl⟩ := dispatchStep_cases h
    · obtain hval | ⟨hloaded, hcmd⟩ := commandStep_val hcommand
      · exact .inl hval
      · exact .inr ⟨hloaded, by simp [hphase], .inr hcmd⟩
    · exact .inl rfl
    · exact .inl rfl
  · obtain ⟨-, ⟨-, rfl⟩ | ⟨-, -, rfl⟩ | ⟨-, rfl⟩⟩ := encDivStep_cases h <;> exact .inl rfl
  · obtain ⟨-, -, -, ⟨-, rfl⟩ | ⟨-, rfl⟩⟩ := encWriteStep_cases h <;> exact .inl rfl
  · rename_i hphase
    obtain ⟨-, -, _, -, rfl | rfl | ⟨_, -, -, ⟨-, rfl⟩ | ⟨-, rfl⟩⟩⟩ := decAccStep_cases h
    · exact .inl rfl
    · exact .inl rfl
    · exact .inr ⟨⟨rfl, rfl, rfl⟩, by simp [hphase], .inl hphase⟩
    · exact .inl rfl

/-- No host operation but reset touches VAL (10_state.md R21). -/
theorem HostEffect.val_eq {s t : State} {op : HostOp} (h : HostEffect s op t) (hop : op ≠ .reset) : t.val = s.val := by
  cases h with
  | resets => exact absurd rfl hop
  | overruns _ _ | accepts _ | storesByte _ _ _ | observes _ _ _ _ => rfl

/-- Settles O55: the host's turn leaves VAL alone but for reset, and in DEC_ACC the invariant says that a DEC runs. -/
theorem valChangesOnlyByDecAndLdb : Obligations.ValChangesOnlyByDecAndLdb := by
  intro s t hinv hstep hval hreset
  cases step_effect hstep with
  | @host op ops _ hacts heffect => exact absurd (heffect.val_eq fun hop => hreset (hop ▸ hacts)) hval
  | hostRests _ _ => exact absurd rfl hval
  | engine hacts hengine =>
    obtain hkept | ⟨⟨-, hidle, herr⟩, hbusy, hcmd⟩ := engineStep_val hengine
    · exact absurd hkept hval
    · refine ⟨hacts, busy_eq_true_iff.2 hbusy, hidle, herr, ?_⟩
      obtain hphase | hcmd := hcmd
      · obtain ⟨len, -, hdec, -⟩ := hinv.decAcc hphase
        exact ⟨len, .inl hdec⟩
      · exact hcmd
  | command hacts hphase hcommand =>
    obtain hkept | ⟨⟨-, hidle, herr⟩, hcmd⟩ := commandStep_val hcommand
    · exact absurd hkept hval
    · exact ⟨hacts, by simp [hphase], hidle, herr, hcmd⟩

/-- On an engine turn a busy block either goes on, with STATUS as it was, or completes (30_encoding.md R90). -/
inductive EngineTurn (s t : State) : Prop where
  | rests (hidle : s.phase = .idle) (hsame : t = { s with turns := s.turns.tail })
  | goesOn (hbusy : s.phase ≠ .idle) (hbusy' : t.phase ≠ .idle) (hovr : t.ovr = s.ovr)
      (hstatus : (t.done, t.err, t.rlen, t.epos, t.ebyte) = (s.done, s.err, s.rlen, s.epos, s.ebyte))
  | completes (hbusy : s.phase ≠ .idle) (hidle : t.phase = .idle) (hdone : t.done = true) (hovr : t.ovr = s.ovr)

theorem engineTurn_of_engineStep {s t : State} (h : engineStep { s with turns := s.turns.tail } = .next t) :
    EngineTurn s t := by
  obtain ⟨hrests, hcompletes⟩ := engineStep_phase h
  obtain ⟨-, -, -, -, -, hovr⟩ := engineStep_frame h
  by_cases hidle : s.phase = .idle
  · exact .rests hidle (hrests hidle)
  · by_cases hidle' : t.phase = .idle
    · exact .completes hidle hidle' (hcompletes hidle hidle') hovr
    · obtain ⟨hdone, herr, hrlen, hepos, hebyte, -⟩ := engineStep_busy_frame h (busy_eq_true_iff.2 hidle')
      exact .goesOn hidle hidle' hovr (by rw [hdone, herr, hrlen, hepos, hebyte])

/-- A step by the effects that PHASE and STATUS can show: the host's operation or rest, or the engine's turn. -/
theorem step_turn {s t : State} (h : step s = .next t) :
    (∃ op ops, HostActs s op ∧ HostEffect { s with turns := s.turns.tail, hostOps := ops } op t) ∨
    t = { s with turns := s.turns.tail } ∨ EngineActs s ∧ EngineTurn s t := by
  cases step_effect h with
  | host hacts heffect => exact .inl ⟨_, _, hacts, heffect⟩
  | hostRests _ _ => exact .inr (.inl rfl)
  | engine hacts hengine => exact .inr (.inr ⟨hacts, engineTurn_of_engineStep hengine⟩)
  | command hacts hphase hcommand =>
    obtain ⟨hdone, hidle, hovr⟩ := commandStep_completes hcommand
    exact .inr (.inr ⟨hacts, .completes (by simp [hphase]) hidle hdone hovr⟩)

/-- Settles O57: of the host's operations only acceptance and reset move PHASE. -/
theorem phaseLeavesAndEntersIdleByRule : Obligations.PhaseLeavesAndEntersIdleByRule := by
  intro s t hstep
  obtain ⟨op, ops, hacts, heffect⟩ | rfl | ⟨hacts, hengine⟩ := step_turn hstep
  · cases heffect with
    | @accepts w hidle => exact ⟨fun _ _ => ⟨w, ⟨hacts, busy_eq_false_iff.2 hidle⟩, rfl, rfl⟩, fun hne => absurd hidle hne⟩
    | resets => exact ⟨fun _ hne => absurd rfl hne, fun _ _ => .inl hacts⟩
    | overruns _ _ | storesByte _ _ _ | observes _ _ _ _ =>
      exact ⟨fun hidle hne => absurd hidle hne, fun hne hidle => absurd hidle hne⟩
  · exact ⟨fun hidle hne => absurd hidle hne, fun hne hidle => absurd hidle hne⟩
  · cases hengine with
    | rests hidle hsame =>
      subst hsame
      exact ⟨fun _ hne => absurd hidle hne, fun hne => absurd hidle hne⟩
    | goesOn hbusy hbusy' _ _ => exact ⟨fun hidle => absurd hidle hbusy, fun _ hidle => absurd hidle hbusy'⟩
    | completes hbusy _ hdone _ => exact ⟨fun hidle => absurd hidle hbusy, fun _ _ => .inr ⟨hacts, hdone⟩⟩

/-- The next step is a host write that a busy block drops (20_memory.md R60). -/
def OverrunActs (s : State) : Prop :=
  busy s = true ∧ ∃ width off w, HostActs s (.write width off w) ∧
    (hostTarget s.bufBytes width off = some .cmd ∨ ∃ i, hostTarget s.bufBytes width off = some (.buf i))

/-- A dropped write sets OVR (10_state.md R28). -/
theorem step_overrun {s t : State} (hstep : step s = .next t) (h : OverrunActs s) : t.ovr = true := by
  obtain ⟨hbusy, width, off, w, hacts, htarget⟩ := h
  cases hstep.symm.trans ((step_of_hostActs hacts).trans (hostStep_write_busy hbusy htarget))
  rfl

/-- OVR changes only by a dropped write, by acceptance and by reset (10_state.md R28). -/
theorem step_ovr {s t : State} (hstep : step s = .next t) :
    t.ovr = s.ovr ∨ (t.ovr = true ∧ OverrunActs s) ∨ (t.ovr = false ∧ (HostActs s .reset ∨ ∃ w, Accepts s w)) := by
  obtain ⟨op, ops, hacts, heffect⟩ | rfl | ⟨-, hengine⟩ := step_turn hstep
  · cases heffect with
    | @overruns width off w hbusy htarget =>
      exact .inr (.inl ⟨rfl, busy_eq_true_iff.2 hbusy, width, off, w, hacts, htarget⟩)
    | @accepts w hidle => exact .inr (.inr ⟨rfl, .inr ⟨w, hacts, busy_eq_false_iff.2 hidle⟩⟩)
    | resets => exact .inr (.inr ⟨rfl, .inl hacts⟩)
    | storesByte _ _ _ | observes _ _ _ _ => exact .inl rfl
  · exact .inl rfl
  · cases hengine with
    | rests _ hsame => subst hsame; exact .inl rfl
    | goesOn _ _ hovr _ | completes _ _ _ hovr => exact .inl hovr

@[simp] theorem statusWord_resetBlock (s : State) : statusWord (resetBlock s) = 0 := by
  simp [statusWord, busy]

/-- After acceptance STATUS shows BUSY alone (20_memory.md R62). -/
@[simp] theorem statusWord_accept (w : Word) (s : State) : statusWord (accept w s) = 1 := by
  simp [statusWord, busy]

/-- DONE, ERR, RLEN, EPOS and EBYTE change only by reset, acceptance and completion (10_state.md R27, R29 to R32). -/
theorem step_result {s t : State} (hstep : step s = .next t) :
    (t.done, t.err, t.rlen, t.epos, t.ebyte) = (s.done, s.err, s.rlen, s.epos, s.ebyte) ∨
    (statusWord t = 0 ∧ HostActs s .reset) ∨ (statusWord t = 1 ∧ ∃ w, Accepts s w) ∨
    (t.done = true ∧ t.phase = .idle ∧ EngineActs s ∧ busy s = true) := by
  obtain ⟨op, ops, hacts, heffect⟩ | rfl | ⟨hacts, hengine⟩ := step_turn hstep
  · cases heffect with
    | @accepts w hidle =>
      exact .inr (.inr (.inl ⟨statusWord_accept w _, w, hacts, busy_eq_false_iff.2 hidle⟩))
    | resets => exact .inr (.inl ⟨statusWord_resetBlock _, hacts⟩)
    | overruns _ _ | storesByte _ _ _ | observes _ _ _ _ => exact .inl rfl
  · exact .inl rfl
  · cases hengine with
    | rests _ hsame => subst hsame; exact .inl rfl
    | goesOn _ _ _ hstatus => exact .inl hstatus
    | completes hbusy hidle hdone _ =>
      exact .inr (.inr (.inr ⟨hdone, hidle, hacts, busy_eq_true_iff.2 hbusy⟩))

/-- Settles O58: OVR by `step_ovr`, the result fields by `step_result`. -/
theorem statusChangesOnlyByItsEvents : Obligations.StatusChangesOnlyByItsEvents := by
  intro s t hstep
  refine ⟨fun hclear => ⟨fun hset => ?_, step_overrun hstep⟩, fun hset hclear => ?_,
    (step_result hstep).resolve_left⟩
  · obtain hsame | ⟨-, hoverrun⟩ | ⟨hclear', -⟩ := step_ovr hstep
    · simp [hsame, hclear] at hset
    · exact hoverrun
    · simp [hclear'] at hset
  · obtain hsame | ⟨hset', -⟩ | ⟨-, hevent⟩ := step_ovr hstep
    · simp [hsame, hset] at hclear
    · simp [hset'] at hclear
    · exact hevent

end Sys2Proof.Machine

namespace Sys2Proof.Machine

/-! ### The tables ALPHA and REV (O6) -/

/-- ALPHA[REV[b]] = b (10_state.md R36): within each of the three ranges ALPHA's offset undoes REV's. -/
theorem alpha_of_rev {b : Byte} {d : Digit} (h : rev b = some d) : alpha d = b := by
  unfold rev at h
  split at h
  · cases h
    apply BitVec.eq_of_toNat_eq
    simp only [alpha, Fin.val_ofNat]
    rw [if_pos (by omega), BitVec.toNat_ofNat]
    omega
  · split at h
    · cases h
      apply BitVec.eq_of_toNat_eq
      simp only [alpha, Fin.val_ofNat]
      rw [if_neg (by omega), if_pos (by omega), BitVec.toNat_ofNat]
      omega
    · split at h <;> cases h
      apply BitVec.eq_of_toNat_eq
      simp only [alpha, Fin.val_ofNat]
      rw [if_neg (by omega), if_neg (by omega), BitVec.toNat_ofNat]
      omega

/-- REV's table as numbers: no digit is reduced by the modulus of its type (10_state.md R36). -/
theorem rev_val (b : Byte) : (rev b).map (·.val) =
    if 0x30 ≤ b.toNat ∧ b.toNat ≤ 0x39 then some (b.toNat - 0x30)
    else if 0x41 ≤ b.toNat ∧ b.toNat ≤ 0x5A then some (b.toNat - 0x41 + 10)
    else if 0x61 ≤ b.toNat ∧ b.toNat ≤ 0x7A then some (b.toNat - 0x61 + 36)
    else none := by
  unfold rev
  split
  · rw [Option.map_some, Fin.val_ofNat, Nat.mod_eq_of_lt (by omega)]
  · split
    · rw [Option.map_some, Fin.val_ofNat, Nat.mod_eq_of_lt (by omega)]
    · split
      · rw [Option.map_some, Fin.val_ofNat, Nat.mod_eq_of_lt (by omega)]
      · rfl

/-- Every ALPHA byte is ASCII (10_state.md R35). -/
theorem alpha_lt (d : Digit) : (alpha d).toNat < 0x80 := by
  have hd := d.isLt
  unfold alpha
  split
  · rw [BitVec.toNat_ofNat]; omega
  · split <;> rw [BitVec.toNat_ofNat] <;> omega

/-- Settles O6: `alpha_of_rev` and the model's own `rev_alpha` are the two directions of the inverse. -/
theorem revInvertsAlpha : Obligations.RevInvertsAlpha :=
  ⟨rev_val, fun _ _ => ⟨alpha_of_rev, fun h => h ▸ rev_alpha _⟩, alpha_lt⟩

end Sys2Proof.Machine

namespace Sys2Proof.Machine

/-! ### What never shows (O59, O60)

Two states that `State.Indist` relates differ in `HiddenRegs` alone, so the second is the first with other values there,
and every part of the step that reads no hidden register is the same for both by computation. -/

/-- The elements that `State.Indist` lets differ (10_state.md R24, R37 to R42, R44). -/
structure HiddenRegs where
  val : Value
  cmdl : Word
  q : Value
  dig : Vector Digit 22
  cnt : BitVec 5
  j : BitVec 5
  acc : Value
  idx : BitVec 8

/-- The state with other values in the hidden elements. -/
def State.withHidden (s : State) (x : HiddenRegs) : State :=
  { s with val := x.val, cmdl := x.cmdl, q := x.q, dig := x.dig, cnt := x.cnt, j := x.j, acc := x.acc, idx := x.idx }

@[simp] theorem withHidden_bufBytes (s : State) (x : HiddenRegs) : (s.withHidden x).bufBytes = s.bufBytes := rfl
@[simp] theorem withHidden_buf (s : State) (x : HiddenRegs) : (s.withHidden x).buf = s.buf := rfl
@[simp] theorem withHidden_phase (s : State) (x : HiddenRegs) : (s.withHidden x).phase = s.phase := rfl
@[simp] theorem withHidden_busy (s : State) (x : HiddenRegs) : busy (s.withHidden x) = busy s := rfl
@[simp] theorem withHidden_statusWord (s : State) (x : HiddenRegs) : statusWord (s.withHidden x) = statusWord s := rfl
@[simp] theorem withHidden_hostOps (s : State) (x : HiddenRegs) : (s.withHidden x).hostOps = s.hostOps := rfl
@[simp] theorem withHidden_valWritten (s : State) (x : HiddenRegs) : (s.withHidden x).valWritten = s.valWritten := rfl

theorem State.Indist.exists_withHidden {s t : State} (h : s.Indist t) : ∃ x, t = s.withHidden x :=
  ⟨⟨t.val, t.cmdl, t.q, t.dig, t.cnt, t.j, t.acc, t.idx⟩, h.same⟩

/-- Two outcomes that the host cannot tell apart: the same stop, or next states it cannot tell apart. -/
inductive Alike : Host.Outcome State Fault Refusal → Host.Outcome State Fault Refusal → Prop where
  | next {s t : State} (h : s.Indist t) : Alike (.next s) (.next t)
  | fault (f : Fault) : Alike (.fault f) (.fault f)
  | refused (r : Refusal) : Alike (.refused r) (.refused r)

/-- A check that both states answer the same. -/
theorem Alike.ite {c : Prop} [Decidable c] {o p o' p' : Host.Outcome State Fault Refusal} (hpos : c → Alike o o')
    (hneg : ¬ c → Alike p p') : Alike (if c then o else p) (if c then o' else p') := by
  split
  · exact hpos ‹_›
  · exact hneg ‹_›

/-- In IDLE no hidden register counts but a written VAL. -/
theorem indist_of_idle {s t : State} (hidle : s.phase = .idle) (hval : s.valWritten = true → t.val = s.val)
    (hsame : t = { s with
      val := t.val, cmdl := t.cmdl, q := t.q, dig := t.dig, cnt := t.cnt, j := t.j, acc := t.acc, idx := t.idx }) :
    s.Indist t where
  same := hsame
  val := hval
  cmdl := fun hbusy => absurd hidle hbusy
  encDiv := fun hphase => nomatch hidle.symm.trans hphase
  encWrite := fun hphase => nomatch hidle.symm.trans hphase
  decAcc := fun hphase => nomatch hidle.symm.trans hphase

/-! #### The state's updates -/

section Updates
variable {s t : State} (h : s.Indist t)
include h

theorem State.Indist.finish (e : ErrCode) (rlen epos ebyte : BitVec 8) :
    (finish e rlen epos ebyte s).Indist (finish e rlen epos ebyte t) := by
  obtain ⟨x, rfl⟩ := h.exists_withHidden
  exact indist_of_idle rfl h.val rfl

theorem State.Indist.writeVal (v : Value) : (writeVal v s).Indist (writeVal v t) := by
  obtain ⟨x, rfl⟩ := h.exists_withHidden
  exact {
    same := rfl
    val := fun _ => rfl
    cmdl := h.cmdl
    encDiv := fun hphase => h.encDiv hphase
    encWrite := fun hphase => h.encWrite hphase
    decAcc := fun hphase => h.decAcc hphase }

theorem State.Indist.accept (w : Word) : (accept w s).Indist (accept w t) := by
  obtain ⟨x, rfl⟩ := h.exists_withHidden
  exact {
    same := rfl
    val := h.val
    cmdl := fun _ => rfl
    encDiv := fun hphase => nomatch hphase
    encWrite := fun hphase => nomatch hphase
    decAcc := fun hphase => nomatch hphase }

/-- The divmod round adds the same digit to both. -/
theorem State.Indist.divided (hphase : s.phase = .encDiv) (hcnt : s.cnt.toNat < 22) :
    s.divided.Indist t.divided := by
  obtain ⟨x, rfl⟩ := h.exists_withHidden
  obtain ⟨hq, hn, hdig⟩ := h.encDiv hphase
  have hdig' : ∀ k (hk : k < 22), k < s.divided.cnt.toNat → (s.withHidden x).divided.dig[k] = s.divided.dig[k] := by
    intro k hk hlt
    rw [divided_cnt hcnt] at hlt
    show ((s.withHidden x).dig.setIfInBounds (s.withHidden x).cnt.toNat (lowDigit (s.withHidden x).q.toNat))[k] =
      (s.dig.setIfInBounds s.cnt.toNat (lowDigit s.q.toNat))[k]
    rw [hq, hn, Vector.getElem_setIfInBounds, Vector.getElem_setIfInBounds]
    split
    · rfl
    · exact hdig k hk (by omega)
  exact {
    same := rfl
    val := h.val
    cmdl := h.cmdl
    encDiv := fun _ => ⟨congrArg (· / 62#128) hq, congrArg (· + 1) hn, hdig'⟩
    encWrite := fun hp => nomatch hphase.symm.trans hp
    decAcc := fun hp => nomatch hphase.symm.trans hp }

theorem State.Indist.spelled (hphase : s.phase = .encWrite) (d : Digit) : (s.spelled d).Indist (t.spelled d) := by
  obtain ⟨x, rfl⟩ := h.exists_withHidden
  obtain ⟨hn, hj, hdig⟩ := h.encWrite hphase
  exact {
    same := by simp only [State.spelled, hj]; rfl
    val := h.val
    cmdl := h.cmdl
    encDiv := fun hp => nomatch hphase.symm.trans hp
    encWrite := fun _ => ⟨hn, congrArg (· + 1) hj, hdig⟩
    decAcc := fun hp => nomatch hphase.symm.trans hp }

theorem State.Indist.accumulated (hphase : s.phase = .decAcc) (d : Digit) :
    (s.accumulated d).Indist (t.accumulated d) := by
  obtain ⟨x, rfl⟩ := h.exists_withHidden
  obtain ⟨ha, hi⟩ := h.decAcc hphase
  exact {
    same := rfl
    val := h.val
    cmdl := h.cmdl
    encDiv := fun hp => nomatch hphase.symm.trans hp
    encWrite := fun hp => nomatch hphase.symm.trans hp
    decAcc := fun _ => ⟨by simp only [State.accumulated, ha], congrArg (· + 1) hi⟩ }

/-- BUF, OVR and the host's side can move on in both states at once. -/
theorem State.Indist.visible (ovr : Bool) (buf : Memory) (turns : List Turn) (ops : List HostOp) (rs : List Word)
    (n : Nat) :
    State.Indist { s with ovr := ovr, buf := buf, turns := turns, hostOps := ops, replies := rs, freeDraws := n }
      { t with ovr := ovr, buf := buf, turns := turns, hostOps := ops, replies := rs, freeDraws := n } := by
  obtain ⟨x, rfl⟩ := h.exists_withHidden
  exact {
    same := rfl
    val := h.val
    cmdl := h.cmdl
    encDiv := h.encDiv
    encWrite := h.encWrite
    decAcc := h.decAcc }

end Updates

/-! #### The engine -/

/-- A whole command reads VAL only where it was written, and no hidden register (10_state.md R44). -/
theorem exec_alike {s : State} {x : HiddenRegs} (i : Instr) (hval : s.valWritten = true → x.val = s.val) :
    Alike (exec i s) (exec i (s.withHidden x)) := by
  cases i with
  | enc len =>
    rcases Nat.lt_or_ge s.bufBytes len.toNat with hlen | hlen
    · rw [exec_enc_illegal hlen, exec_enc_illegal (s := s.withHidden x) hlen]
      exact .next (indist_of_idle rfl hval rfl)
    · cases hw : s.valWritten with
      | false =>
        rw [exec_enc_unwritten hw hlen, exec_enc_unwritten (s := s.withHidden x) hw hlen]
        exact .fault _
      | true =>
        have hv : (s.withHidden x).val = s.val := hval hw
        rcases Nat.lt_or_ge len.toNat (digits s.val.toNat).length with hk | hk
        · rw [exec_enc_capacity hw hlen hk, exec_enc_capacity (s := s.withHidden x) hw hlen (by rwa [hv]), hv]
          exact .next (indist_of_idle rfl hval rfl)
        · rw [exec_enc_fits hw hlen hk, exec_enc_fits (s := s.withHidden x) hw hlen (by rwa [hv]), hv]
          exact .next (indist_of_idle rfl hval rfl)
  | dec len =>
    refine Alike.ite (fun _ => .next (indist_of_idle rfl hval rfl)) fun _ =>
      Alike.ite (fun _ => .next (indist_of_idle rfl hval rfl)) fun _ => ?_
    rw [withHidden_buf]
    cases decLoop s.buf len.toNat 0 0 with
    | decoded acc => exact .next (indist_of_idle rfl (fun _ => rfl) rfl)
    | invalidChar k b acc => exact .next (indist_of_idle rfl hval rfl)
    | overflow k b acc => exact .next (indist_of_idle rfl hval rfl)
    | unwritten k => exact .fault _
  | ldb len =>
    refine Alike.ite (fun _ => .next (indist_of_idle rfl hval rfl)) fun _ => ?_
    rw [withHidden_buf]
    cases memRead s.buf 0 16 0 with
    | error k => exact .fault _
    | ok v => exact .next (indist_of_idle rfl (fun _ => rfl) rfl)
  | stb =>
    cases hw : s.valWritten with
    | false =>
      rw [exec_stb_unwritten hw, exec_stb_unwritten (s := s.withHidden x) hw]
      exact .fault _
    | true =>
      have hv : (s.withHidden x).val = s.val := hval hw
      rw [exec_stb_written hw, exec_stb_written (s := s.withHidden x) hw, hv]
      exact .next (indist_of_idle rfl (fun _ => rfl) rfl)

section Engine
variable {s t : State} (h : s.Indist t)
include h

theorem commandStep_alike (hphase : s.phase = .dispatch) : Alike (commandStep s) (commandStep t) := by
  have hcmdl : t.cmdl = s.cmdl := h.cmdl (by simp [hphase])
  obtain ⟨x, rfl⟩ := h.exists_withHidden
  simp only [commandStep, hcmdl]
  cases decode s.cmdl with
  | error e => exact .next (h.finish _ _ _ _)
  | ok i => exact exec_alike i h.val

/-- DISPATCH reads VAL only where it was written, and hands no older register on to ENC_DIV or DEC_ACC. -/
theorem dispatchStep_alike (hphase : s.phase = .dispatch) : Alike (dispatchStep s) (dispatchStep t) := by
  have hcmdl : t.cmdl = s.cmdl := h.cmdl (by simp [hphase])
  obtain ⟨x, rfl⟩ := h.exists_withHidden
  simp only [dispatchStep, hcmdl]
  cases decode s.cmdl with
  | error e => exact .next (h.finish _ _ _ _)
  | ok i =>
    cases i with
    | enc len =>
      refine Alike.ite (fun _ => .next (h.finish _ _ _ _)) fun _ => ?_
      by_cases hw : s.valWritten = true
      · rw [valRead_written hw, valRead_written (s := s.withHidden x) hw]
        exact .next {
          same := rfl
          val := h.val
          cmdl := fun _ => hcmdl
          encDiv := fun _ => ⟨h.val hw, rfl, fun _ _ hlt => nomatch hlt⟩
          encWrite := fun hp => nomatch hp
          decAcc := fun hp => nomatch hp }
      · rw [valRead_unwritten (by simpa using hw), valRead_unwritten (s := s.withHidden x) (by simpa using hw)]
        exact .fault _
    | dec len =>
      exact Alike.ite (fun _ => .next (h.finish _ _ _ _)) fun _ =>
        Alike.ite (fun _ => .next (h.finish _ _ _ _)) fun _ => .next {
          same := rfl
          val := h.val
          cmdl := fun _ => hcmdl
          encDiv := fun hp => nomatch hp
          encWrite := fun hp => nomatch hp
          decAcc := fun _ => ⟨rfl, rfl⟩ }
    | ldb len => exact exec_alike (.ldb len) h.val
    | stb => exact exec_alike .stb h.val

/-- ENC_DIV reads Q and CNT, which are the same, and hands on the digits that it stored. -/
theorem encDivStep_alike (hphase : s.phase = .encDiv) : Alike (encDivStep s) (encDivStep t) := by
  have hcmdl : t.cmdl = s.cmdl := h.cmdl (by simp [hphase])
  obtain ⟨-, hn, -⟩ := h.encDiv hphase
  by_cases hcnt : s.cnt.toNat < 22
  · have hdivided := h.divided hphase hcnt
    obtain ⟨hq', hn', hdig'⟩ := hdivided.encDiv hphase
    obtain ⟨x, rfl⟩ := h.exists_withHidden
    rw [encDivStep_eq hcnt, encDivStep_eq (s := s.withHidden x) (by rwa [hn]), hq', hn', hcmdl]
    exact Alike.ite
      (fun _ => Alike.ite (fun _ => .next (hdivided.finish _ _ _ _)) fun _ => .next {
        same := rfl
        val := h.val
        cmdl := fun _ => hcmdl
        encDiv := fun hp => nomatch hp
        encWrite := fun _ => ⟨hn', rfl, hdig'⟩
        decAcc := fun hp => nomatch hp })
      fun _ => .next hdivided
  · rw [encDivStep, encDivStep, if_neg hcnt, if_neg (by rwa [hn])]
    exact .fault _

/-- ENC_WRITE reads J, CNT and a digit below CNT, which are the same. -/
theorem encWriteStep_alike (hphase : s.phase = .encWrite) : Alike (encWriteStep s) (encWriteStep t) := by
  obtain ⟨hn, hj, hdig⟩ := h.encWrite hphase
  have hsize : t.bufBytes = s.bufBytes := by rw [h.same]
  by_cases hrange : s.j.toNat < s.cnt.toNat ∧ s.cnt.toNat ≤ 22 ∧ s.j.toNat < s.bufBytes
  · obtain ⟨hlt, hcnt, hbuf⟩ := hrange
    have hd : t.dig[t.cnt.toNat - 1 - t.j.toNat]'(by rw [hn]; omega) =
        s.dig[s.cnt.toNat - 1 - s.j.toNat]'(by omega) := by
      simp only [hn, hj]
      exact hdig _ _ (by omega)
    rw [encWriteStep_spells hlt hcnt hbuf,
      encWriteStep_spells (s := t) (by rwa [hn, hj]) (by rwa [hn]) (by rwa [hj, hsize]), hd, hj, hn]
    have hspelled := h.spelled hphase (s.dig[s.cnt.toNat - 1 - s.j.toNat]'(by omega))
    exact Alike.ite (fun _ => .next (hspelled.finish _ _ _ _)) fun _ => .next hspelled
  · rw [encWriteStep, encWriteStep, dif_neg hrange, dif_neg (by rwa [hn, hj, hsize])]
    exact .fault _

/-- DEC_ACC reads ACC and IDX, which are the same. -/
theorem decAccStep_alike (hphase : s.phase = .decAcc) : Alike (decAccStep s) (decAccStep t) := by
  have hcmdl : t.cmdl = s.cmdl := h.cmdl (by simp [hphase])
  obtain ⟨ha, hi⟩ := h.decAcc hphase
  have hsize : t.bufBytes = s.bufBytes := by rw [h.same]
  have hbuf : t.buf = s.buf := by rw [h.same]
  by_cases hrange : s.idx.toNat < (lenField s.cmdl).toNat ∧ (lenField s.cmdl).toNat ≤ s.bufBytes
  · have hrange' : t.idx.toNat < (lenField t.cmdl).toNat ∧ (lenField t.cmdl).toNat ≤ t.bufBytes := by
      rwa [hi, hcmdl, hsize]
    have hread : bufRead t.buf t.idx.toNat = bufRead s.buf s.idx.toNat := by rw [hbuf, hi]
    obtain ⟨hidx, hlen⟩ := hrange
    obtain ⟨hidx', hlen'⟩ := hrange'
    cases hb : bufRead s.buf s.idx.toNat with
    | none =>
      rw [decAccStep_unwritten hidx hlen hb, decAccStep_unwritten hidx' hlen' (hread.trans hb), hi]
      exact .fault _
    | some b =>
      cases hd : rev b with
      | none =>
        rw [decAccStep_invalidChar hidx hlen hb hd, decAccStep_invalidChar hidx' hlen' (hread.trans hb) hd, hi]
        exact .next (h.finish _ _ _ _)
      | some d =>
        have hacc := h.accumulated hphase d
        rw [decAccStep_digit hidx hlen hb hd, decAccStep_digit hidx' hlen' (hread.trans hb) hd, ha, hi, hcmdl,
          (hacc.decAcc hphase).1]
        exact Alike.ite (fun _ => .next (h.finish _ _ _ _)) fun _ =>
          Alike.ite (fun _ => .next ((hacc.writeVal _).finish _ _ _ _)) fun _ => .next hacc
  · rw [decAccStep, decAccStep, if_neg hrange, if_neg (by rwa [hi, hcmdl, hsize])]
    exact .fault _

theorem engineStep_alike : Alike (engineStep s) (engineStep t) := by
  have hsame : t.phase = s.phase := by rw [h.same]
  simp only [engineStep, hsame]
  cases hphase : s.phase with
  | idle => exact .next h
  | dispatch => exact dispatchStep_alike h hphase
  | encDiv => exact encDivStep_alike h hphase
  | encWrite => exact encWriteStep_alike h hphase
  | decAcc => exact decAccStep_alike h hphase

end Engine

/-! #### The host, and the step -/

/-- The host's operations read no hidden register. -/
theorem hostStep_alike {s t : State} (h : s.Indist t) (op : HostOp) : Alike (hostStep op s) (hostStep op t) := by
  have hvis := h.visible
  obtain ⟨x, rfl⟩ := h.exists_withHidden
  cases op with
  | write width off w =>
    simp only [hostStep, hostWrite, withHidden_bufBytes, withHidden_busy]
    cases hostTarget s.bufBytes width off with
    | none => exact .refused _
    | some target =>
      cases target with
      | cmd =>
        exact Alike.ite (fun _ => .next (hvis true s.buf s.turns s.hostOps s.replies s.freeDraws))
          fun _ => .next (h.accept w)
      | status => exact .next h
      | buf i =>
        exact Alike.ite (fun _ => .next (hvis true s.buf s.turns s.hostOps s.replies s.freeDraws))
          fun _ => .next (hvis s.ovr _ s.turns s.hostOps s.replies s.freeDraws)
      | unmapped => exact .next h
  | read width off =>
    have hreply : ∀ w, Alike (.next (reply w s)) (.next (reply w (s.withHidden x))) :=
      fun w => .next (hvis s.ovr s.buf s.turns s.hostOps (w :: s.replies) s.freeDraws)
    simp only [hostStep, hostRead, withHidden_bufBytes, withHidden_busy, withHidden_buf, withHidden_statusWord]
    cases hostTarget s.bufBytes width off with
    | none => exact .refused _
    | some target =>
      cases target with
      | cmd | status | unmapped => exact hreply _
      | buf i =>
        refine Alike.ite
          (fun _ => .next (hvis s.ovr s.buf s.turns s.hostOps (_ :: s.replies) (s.freeDraws + 1))) fun _ => ?_
        cases bufRead s.buf i with
        | none => exact .fault _
        | some b => exact hreply _
  | wait =>
    exact Alike.ite (fun _ => .next (hvis s.ovr s.buf s.turns (.wait :: s.hostOps) s.replies s.freeDraws))
      fun _ => .next (hvis s.ovr s.buf s.turns s.hostOps (statusWord s :: s.replies) s.freeDraws)
  | reset => exact .next (indist_of_idle rfl (fun _ => rfl) rfl)

/-- The turn and the host's next operation are the same, and each turn acts alike. -/
theorem step_alike {s t : State} (h : s.Indist t) : Alike (step s) (step t) := by
  have hturn := fun ops => h.visible s.ovr s.buf s.turns.tail ops s.replies s.freeDraws
  obtain ⟨x, rfl⟩ := h.exists_withHidden
  rw [step_eq_takeTurn, step_eq_takeTurn]
  show Alike (takeTurn (turnOf s) _) (takeTurn (turnOf s) (State.withHidden { s with turns := s.turns.tail } x))
  cases turnOf s with
  | host =>
    simp only [takeTurn, hostTurn, withHidden_hostOps]
    cases s.hostOps with
    | nil => exact .next (hturn [])
    | cons op ops => exact hostStep_alike (hturn ops) op
  | engine => exact engineStep_alike (hturn s.hostOps)
  | command =>
    exact Alike.ite (fun hphase => commandStep_alike (hturn s.hostOps) hphase) fun _ =>
      engineStep_alike (hturn s.hostOps)

/-- Settles O60: `step_alike`, read off for each of the three outcomes. -/
theorem unwrittenValNeverShows : Obligations.UnwrittenValNeverShows := by
  intro s t h
  have halike := step_alike h
  generalize step t = o at halike
  refine ⟨fun s' hs => ?_, fun f hs => ?_, fun r hs => ?_⟩ <;> rw [hs] at halike
  · obtain ⟨h'⟩ := halike
    exact ⟨_, rfl, h'⟩
  · obtain ⟨⟩ := halike
    rfl
  · obtain ⟨⟩ := halike
    rfl

/-- VAL after a step: written by the step or before it, put to its reset value, or as it was. -/
theorem step_val {s t : State} (hstep : step s = .next t) : t.valWritten = true ∨
    (HostActs s .reset ∧ t.val = Config.valAtReset) ∨ (¬ HostActs s .reset ∧ t.val = s.val) := by
  cases step_effect hstep with
  | @host op ops _ hacts heffect =>
    by_cases hop : op = .reset
    · subst hop
      cases heffect with
      | resets => exact .inr (.inl ⟨hacts, rfl⟩)
      | observes hne _ _ _ => exact absurd rfl hne
    · exact .inr (.inr ⟨fun hreset => hop (hacts.unique hreset), heffect.val_eq hop⟩)
  | hostRests _ hops => exact .inr (.inr ⟨fun hreset => by simp [HostActs, hops] at hreset, rfl⟩)
  | engine hacts hengine =>
    obtain hkept | ⟨⟨hw, -⟩, -⟩ := engineStep_val hengine
    · exact .inr (.inr ⟨hacts.not_hostActs, hkept⟩)
    · exact .inl hw
  | command hacts _ hcommand =>
    obtain hkept | ⟨⟨hw, -⟩, -⟩ := commandStep_val hcommand
    · exact .inr (.inr ⟨hacts.not_hostActs, hkept⟩)
    · exact .inl hw

/-- Settles O59: where VAL is still not written the step left it alone in both states, or reset it in both. -/
theorem hiddenRegistersNeverShow : Obligations.HiddenRegistersNeverShow := by
  intro s t h hval
  obtain ⟨hnext, hfault, hrefused⟩ := unwrittenValNeverShows s t h
  refine ⟨fun s' hs => ?_, hfault, hrefused⟩
  obtain ⟨t', ht, h'⟩ := hnext s' hs
  refine ⟨t', ht, h', ?_⟩
  have hreset : HostActs t .reset ↔ HostActs s .reset := by
    obtain ⟨x, rfl⟩ := h.exists_withHidden
    exact Iff.rfl
  have hwritten : t'.valWritten = s'.valWritten := by rw [h'.same]
  obtain hw | ⟨hs, hs'⟩ | ⟨hs, hs'⟩ := step_val hs
  · exact (h'.val hw).symm
  · obtain hw | ⟨-, ht'⟩ | ⟨hne, -⟩ := step_val ht
    · exact (h'.val (hwritten ▸ hw)).symm
    · rw [hs', ht']
    · exact absurd (hreset.2 hs) hne
  · obtain hw | ⟨hr, -⟩ | ⟨-, ht'⟩ := step_val ht
    · exact (h'.val (hwritten ▸ hw)).symm
    · exact absurd (hreset.1 hr) hs
    · rw [hs', ht', hval]

end Sys2Proof.Machine

namespace Sys2Proof.Machine

/-! ### What changes BUF (O56) -/

theorem bufRead_writeText_zero_outside {ds : List Digit} {m : Memory} {a : Nat} (h : ds.length ≤ a) :
    bufRead (writeText 0 ds m) a = bufRead m a := by
  rw [bufRead_writeText, dif_neg (by omega)]

theorem bufRead_memWrite_zero_outside {n : Nat} {m : Memory} {v : Value} {a : Nat} (h : n ≤ a) :
    bufRead (memWrite m 0 n v) a = bufRead m a := by
  rw [bufRead_memWrite, if_neg (by omega)]

/-- The command latched in CMDL writes BUF[a]: ENC within its digits, or STB within BUF[0..15] (20_memory.md R71). -/
def WritesBuf (s : State) (a : Nat) : Prop :=
  (∃ len, decode s.cmdl = .ok (.enc len) ∧ a < (digits s.val.toNat).length) ∨ (decode s.cmdl = .ok .stb ∧ a < 16)

theorem exec_buf {i : Instr} {s t : State} (h : exec i s = .next t) (a : Nat) :
    bufRead t.buf a = bufRead s.buf a ∨
      (∃ len, i = .enc len ∧ a < (digits s.val.toNat).length) ∨ (i = .stb ∧ a < 16) := by
  cases i with
  | enc len =>
    obtain ⟨-, rfl⟩ | ⟨-, -, -, rfl⟩ | ⟨-, -, -, rfl⟩ := exec_enc_cases h
    · exact .inl rfl
    · exact .inl rfl
    · rcases Nat.lt_or_ge a (digits s.val.toNat).length with ha | ha
      · exact .inr (.inl ⟨len, rfl, ha⟩)
      · exact .inl (bufRead_writeText_zero_outside ha)
  | dec len =>
    obtain ⟨-, rfl⟩ | ⟨-, -, rfl⟩ | ⟨-, -, ⟨_, _, _, -, rfl⟩ | ⟨_, _, _, -, rfl⟩ | ⟨_, -, rfl⟩⟩ := exec_dec_cases h <;>
      exact .inl rfl
  | ldb len => obtain ⟨-, rfl⟩ | ⟨-, _, -, rfl⟩ := exec_ldb_cases h <;> exact .inl rfl
  | stb =>
    obtain ⟨-, rfl⟩ := exec_stb_cases h
    rcases Nat.lt_or_ge a 16 with ha | ha
    · exact .inr (.inr ⟨rfl, ha⟩)
    · exact .inl (bufRead_memWrite_zero_outside ha)

theorem commandStep_buf {s t : State} (h : commandStep s = .next t) (a : Nat) :
    bufRead t.buf a = bufRead s.buf a ∨ WritesBuf s a := by
  obtain rfl | ⟨i, hdec, hexec⟩ := commandStep_cases h
  · exact .inl rfl
  · obtain hkept | ⟨len, rfl, ha⟩ | ⟨rfl, ha⟩ := exec_buf hexec a
    · exact .inl hkept
    · exact .inr (.inl ⟨len, hdec, ha⟩)
    · exact .inr (.inr ⟨hdec, ha⟩)

/-- ENC_WRITE writes BUF[J] alone, and the invariant keeps J below the digit count of VAL (41_encoder.md R107). -/
theorem encWriteStep_buf {s t : State} (hinv : s.Inv) (hphase : s.phase = .encWrite) (h : encWriteStep s = .next t)
    (a : Nat) : bufRead t.buf a = bufRead s.buf a ∨ WritesBuf s a := by
  obtain ⟨len, hdec, -, hcount, -, hj, -⟩ := hinv.encWrite hphase
  by_cases ha : a = s.j.toNat
  · exact .inr (.inl ⟨len, hdec, by omega⟩)
  · obtain ⟨-, -, -, ⟨-, rfl⟩ | ⟨-, rfl⟩⟩ := encWriteStep_cases h <;> exact .inl (bufRead_bufWrite_other ha)

/-- An engine step writes BUF only in the dispatch of STB, or of an ENC in ENC_WRITE (20_memory.md R71). -/
theorem engineStep_buf {s t : State} (hinv : s.Inv) (h : engineStep s = .next t) (a : Nat) :
    bufRead t.buf a = bufRead s.buf a ∨ s.phase ≠ .idle ∧ WritesBuf s a := by
  unfold engineStep at h
  split at h
  · cases h; exact .inl rfl
  · rename_i hphase
    obtain hcommand | ⟨_, -, -, -, rfl⟩ | ⟨_, -, -, -, rfl⟩ := dispatchStep_cases h
    · exact (commandStep_buf hcommand a).imp_right fun hwrites => ⟨by simp [hphase], hwrites⟩
    · exact .inl rfl
    · exact .inl rfl
  · obtain ⟨-, ⟨-, rfl⟩ | ⟨-, -, rfl⟩ | ⟨-, rfl⟩⟩ := encDivStep_cases h <;> exact .inl rfl
  · rename_i hphase
    exact (encWriteStep_buf hinv hphase h a).imp_right fun hwrites => ⟨by simp [hphase], hwrites⟩
  · obtain ⟨-, -, _, -, rfl | rfl | ⟨_, -, -, ⟨-, rfl⟩ | ⟨-, rfl⟩⟩⟩ := decAccStep_cases h <;> exact .inl rfl

/-- Of the host's operations only the byte write while idle and reset touch BUF (20_memory.md R58, R60, R71). -/
theorem HostEffect.buf {s t : State} {op : HostOp} (h : HostEffect s op t) (a : Nat) :
    bufRead t.buf a = bufRead s.buf a ∨ op = .reset ∨
      (s.phase = .idle ∧ ∃ off w, op = .write .byte off w ∧ off.toNat = 0x100 + a) := by
  cases h with
  | @storesByte off w i hidle hoff _ =>
    by_cases ha : a = i
    · exact .inr (.inr ⟨hidle, off, w, rfl, ha ▸ hoff⟩)
    · exact .inl (bufRead_bufWrite_other ha)
  | resets => exact .inr (.inl rfl)
  | overruns _ _ | accepts _ | observes _ _ _ _ => exact .inl rfl

/-- Settles O56: by whose turn the step is; in ENC_WRITE the invariant bounds J by the digits of VAL. -/
theorem bufChangesOnlyByItsWriters : Obligations.BufChangesOnlyByItsWriters := by
  intro s t a hinv hstep hne
  cases step_effect hstep with
  | host hacts heffect =>
    obtain hkept | rfl | ⟨hidle, off, w, rfl, hoff⟩ := heffect.buf a
    · exact absurd hkept hne
    · exact .inl hacts
    · exact .inr (.inl ⟨busy_eq_false_iff.2 hidle, off, w, hacts, hoff⟩)
  | hostRests _ _ => exact absurd rfl hne
  | engine hacts hengine =>
    have hturn := hinv.withHostSide s.turns.tail s.hostOps s.replies s.freeDraws
    obtain hkept | ⟨hbusy, hwrites⟩ := engineStep_buf hturn hengine a
    · exact absurd hkept hne
    · exact .inr (.inr ⟨hacts, busy_eq_true_iff.2 hbusy, hwrites⟩)
  | command hacts hphase hcommand =>
    obtain hkept | hwrites := commandStep_buf hcommand a
    · exact absurd hkept hne
    · exact .inr (.inr ⟨hacts, by simp [hphase], hwrites⟩)

end Sys2Proof.Machine

namespace Sys2Proof.Machine

/-! ### Which register an access reaches (20_memory.md R52 to R54)

`hostTarget` in both directions: the target of an offset, and for the targets that the model's laws leave out the offset
of a target. -/

theorem hostTarget_cmd_word (n : Nat) : hostTarget n .word 0x000 = some .cmd := rfl

theorem hostTarget_status_word (n : Nat) : hostTarget n .word 0x004 = some .status := rfl

theorem hostTarget_buf_byte {n : Nat} {off : BitVec 12} (hlow : 0x100 ≤ off.toNat) (hhigh : off.toNat < 0x100 + n) :
    hostTarget n .byte off = some (.buf (off.toNat - 0x100)) := by
  rw [hostTarget, if_neg (by omega), if_pos ⟨hlow, hhigh⟩, if_pos rfl]

/-- The offset that `opSb` and `opLb` use reaches BUF[i] for every legal BUF_BYTES (30_encoding.md R92). -/
theorem hostTarget_buf_index {n i : Nat} (hi : i < n) (hn : n ≤ 255) :
    hostTarget n .byte (BitVec.ofNat 12 (0x100 + i)) = some (.buf i) := by
  have hoff : (BitVec.ofNat 12 (0x100 + i)).toNat = 0x100 + i := by rw [BitVec.toNat_ofNat]; omega
  rw [hostTarget_buf_byte (by omega) (by omega), hoff, Nat.add_sub_cancel_left]

/-- The offset lies outside CMD, STATUS and BUF (20_memory.md R53). -/
def UnmappedOffset (n : Nat) (off : BitVec 12) : Prop :=
  (0x008 ≤ off.toNat ∧ off.toNat ≤ 0x0FF) ∨ 0x100 + n ≤ off.toNat

theorem hostTarget_of_unmappedOffset {n : Nat} {off : BitVec 12} (width : AccessWidth) (h : UnmappedOffset n off) :
    hostTarget n width off =
      if width = .byte ∨ (width = .word ∧ off.toNat % 4 = 0) then some .unmapped else none := by
  unfold UnmappedOffset at h
  rw [hostTarget, if_neg (by omega), if_neg (by omega)]

theorem offset_of_hostTarget_status {n : Nat} {width : AccessWidth} {off : BitVec 12}
    (h : hostTarget n width off = some .status) : off.toNat = 0x004 := by
  unfold hostTarget at h
  split at h
  · split at h
    · cases h
    · split at h
      · rename_i hstatus; exact hstatus.2
      · cases h
  · split at h <;> split at h <;> cases h

theorem unmappedOffset_of_hostTarget {n : Nat} {width : AccessWidth} {off : BitVec 12}
    (h : hostTarget n width off = some .unmapped) : UnmappedOffset n off := by
  unfold hostTarget at h
  split at h
  · split at h
    · cases h
    · split at h <;> cases h
  · split at h
    · split at h <;> cases h
    · unfold UnmappedOffset; omega

/-- The accesses that 20_memory.md R54 leaves out reach nothing. -/
theorem hostTarget_eq_none {n : Nat} {width : AccessWidth} {off : BitVec 12}
    (h : (off.toNat < 0x008 ∧ ¬ (width = .word ∧ off.toNat % 4 = 0)) ∨
      (0x100 ≤ off.toNat ∧ off.toNat < 0x100 + n ∧ width ≠ .byte) ∨
      (UnmappedOffset n off ∧ ¬ (width = .byte ∨ (width = .word ∧ off.toNat % 4 = 0)))) :
    hostTarget n width off = none := by
  obtain ⟨hoff, hwidth⟩ | ⟨hlow, hhigh, hwidth⟩ | ⟨hoff, hwidth⟩ := h
  · have haligned : ∀ k, k % 4 = 0 → ¬ (width = .word ∧ off.toNat = k) := fun k hk h => hwidth ⟨h.1, h.2 ▸ hk⟩
    rw [hostTarget, if_pos hoff, if_neg (haligned 0x000 rfl), if_neg (haligned 0x004 rfl)]
  · rw [hostTarget, if_neg (by omega), if_pos ⟨hlow, hhigh⟩, if_neg hwidth]
  · rw [hostTarget_of_unmappedOffset width hoff, if_neg hwidth]

/-! ### The host's transactions, by the register they reach -/

section Transactions
variable {s : State} {width : AccessWidth} {off : BitVec 12} {w : Word} {i : Nat}

theorem hostStep_write_cmd_idle (h : hostTarget s.bufBytes width off = some .cmd) (hidle : busy s = false) :
    hostStep (.write width off w) s = .next (accept w s) := by
  simp [hostStep, hostWrite, h, hidle]

theorem hostStep_write_status (h : hostTarget s.bufBytes width off = some .status) :
    hostStep (.write width off w) s = .next s := by
  simp [hostStep, hostWrite, h]

theorem hostStep_write_buf_idle (h : hostTarget s.bufBytes width off = some (.buf i)) (hidle : busy s = false) :
    hostStep (.write width off w) s = .next { s with buf := bufWrite s.buf i (w.setWidth 8) } := by
  simp [hostStep, hostWrite, h, hidle]

theorem hostStep_write_unmapped (h : hostTarget s.bufBytes width off = some .unmapped) :
    hostStep (.write width off w) s = .next s := by
  simp [hostStep, hostWrite, h]

theorem hostStep_write_none (h : hostTarget s.bufBytes width off = none) :
    hostStep (.write width off w) s = .refused .hostAccessWidth := by
  simp [hostStep, hostWrite, h]

theorem hostStep_read_cmd (h : hostTarget s.bufBytes width off = some .cmd) :
    hostStep (.read width off) s = .next (reply 0 s) := by
  simp [hostStep, hostRead, h]

theorem hostStep_read_status (h : hostTarget s.bufBytes width off = some .status) :
    hostStep (.read width off) s = .next (reply (statusWord s) s) := by
  simp [hostStep, hostRead, h]

theorem hostStep_read_buf_busy (h : hostTarget s.bufBytes width off = some (.buf i)) (hbusy : busy s = true) :
    hostStep (.read width off) s = .next (replyFree s) := by
  simp only [hostStep, hostRead, h, hbusy, if_true]

theorem hostStep_read_buf_written {b : Byte} (h : hostTarget s.bufBytes width off = some (.buf i))
    (hidle : busy s = false) (hb : bufRead s.buf i = some b) :
    hostStep (.read width off) s = .next (reply (b.setWidth 32) s) := by
  simp [hostStep, hostRead, h, hidle, hb]

theorem hostStep_read_buf_unwritten (h : hostTarget s.bufBytes width off = some (.buf i)) (hidle : busy s = false)
    (hb : bufRead s.buf i = none) : hostStep (.read width off) s = .fault (.unwrittenRead i) := by
  simp [hostStep, hostRead, h, hidle, hb]

theorem hostStep_read_unmapped (h : hostTarget s.bufBytes width off = some .unmapped) :
    hostStep (.read width off) s = .next (reply 0 s) := by
  simp [hostStep, hostRead, h]

theorem hostStep_read_none (h : hostTarget s.bufBytes width off = none) :
    hostStep (.read width off) s = .refused .hostAccessWidth := by
  simp [hostStep, hostRead, h]

end Transactions

/-- Settles O39: the word at offset 0 reaches CMD, and what the write does while idle is `accept`. -/
theorem cmdWriteWhileIdleIsAccepted : Obligations.CmdWriteWhileIdleIsAccepted :=
  fun s _ hidle => hostStep_write_cmd_idle (hostTarget_cmd_word s.bufBytes) hidle

/-- Settles O40: both accesses reach a register whose write while busy is an overrun. -/
theorem writesWhileBusyOnlySetOvr : Obligations.WritesWhileBusyOnlySetOvr :=
  fun s _ hbusy => ⟨hostStep_write_busy hbusy (.inl (hostTarget_cmd_word s.bufBytes)),
    fun _ hlow hhigh => hostStep_write_busy hbusy (.inr ⟨_, hostTarget_buf_byte hlow hhigh⟩)⟩

/-- SB while idle writes its byte: the 32-bit data carries it in its low 8 bits (20_memory.md R58). -/
theorem hostStep_opSb_idle {s : State} {i : Nat} (b : Byte) (hidle : busy s = false) (hi : i < s.bufBytes)
    (hsize : s.bufBytes ≤ 255) : hostStep (opSb i b) s = .next { s with buf := bufWrite s.buf i b } := by
  have hbyte : (b.setWidth 32).setWidth 8 = b := by simp
  rw [opSb, hostStep_write_buf_idle (hostTarget_buf_index hi hsize) hidle, hbyte]

/-- Settles O41: SB is one `bufWrite`, so the laws of read after write say what BUF holds. -/
theorem bufByteWrittenReadsBack : Obligations.BufByteWrittenReadsBack := by
  intro s i b hidle hi hsize
  have hread : bufRead (bufWrite s.buf i b) i = some b := bufRead_bufWrite_same s.buf i b
  exact ⟨_, hostStep_opSb_idle b hidle hi hsize, rfl, hread, fun _ hk => bufRead_bufWrite_other hk,
    hostStep_read_buf_written (hostTarget_buf_index hi hsize) hidle hread⟩

/-- Settles O42: LB reaches BUF[i], and the three clauses are the three cases of that read. -/
theorem bufReadByBusyState : Obligations.BufReadByBusyState := by
  intro s i hi hsize
  have htarget := hostTarget_buf_index hi hsize
  exact ⟨fun hidle _ hb => hostStep_read_buf_written htarget hidle hb,
    fun hidle hb => hostStep_read_buf_unwritten htarget hidle hb, hostStep_read_buf_busy htarget⟩

/-- Settles O44: neither transaction looks at BUSY. -/
theorem cmdReadsZeroStatusWritesIgnored : Obligations.CmdReadsZeroStatusWritesIgnored :=
  fun s _ => ⟨hostStep_read_cmd (hostTarget_cmd_word s.bufBytes),
    hostStep_write_status (hostTarget_status_word s.bufBytes)⟩

/-- Settles O45: the access reaches no register, by its offset and its width. -/
theorem unmappedOffsetsReadZero : Obligations.UnmappedOffsetsReadZero := by
  intro s off width w hoff hwidth
  have htarget := (hostTarget_of_unmappedOffset width hoff).trans (if_pos hwidth)
  exact ⟨hostStep_read_unmapped htarget, hostStep_write_unmapped htarget⟩

/-- Settles O46: each of the three kinds of access has no target. -/
theorem otherAccessWidthsAreRefused : Obligations.OtherAccessWidthsAreRefused :=
  fun _ _ _ _ h => ⟨hostStep_read_none (hostTarget_eq_none h), hostStep_write_none (hostTarget_eq_none h)⟩

end Sys2Proof.Machine

namespace Sys2Proof.Machine

/-! ### Side effects of the host's transactions (O47) -/

/-- A read moves on the host's replies and the free draws alone (20_memory.md R72). -/
theorem hostRead_frame {s t : State} {width : AccessWidth} {off : BitVec 12} (h : hostRead width off s = .next t) :
    t = { s with replies := t.replies, freeDraws := t.freeDraws } := by
  unfold hostRead at h
  split at h
  · cases h
  · cases h; rfl
  · cases h; rfl
  · split at h
    · cases h; rfl
    · split at h <;> cases h
      rfl
  · cases h; rfl

/-- Of two writes to one byte the last stays. -/
@[simp] theorem bufWrite_bufWrite_same (m : Memory) (i : Nat) (b c : Byte) :
    bufWrite (bufWrite m i b) i c = bufWrite m i c := by
  induction m with
  | nil => simp [bufWrite]
  | cons cell m ih =>
    obtain ⟨a, x⟩ := cell
    rcases Nat.lt_trichotomy i a with hlt | rfl | hgt
    · simp [bufWrite, hlt]
    · simp [bufWrite]
    · have hnlt : ¬ i < a := by omega
      have hne : i ≠ a := by omega
      simp [bufWrite, hnlt, hne, ih]

/-- A write while busy is dropped, and sets OVR exactly at CMD and BUF (20_memory.md R60, R72). -/
theorem hostStep_write_busy_cases {s t : State} {width : AccessWidth} {off : BitVec 12} {w : Word}
    (hbusy : busy s = true) (h : hostStep (.write width off w) s = .next t) :
    ((off.toNat = 0x000 ∨ (0x100 ≤ off.toNat ∧ off.toNat < 0x100 + s.bufBytes)) ∧ t = overrun s) ∨
    (¬ (off.toNat = 0x000 ∨ (0x100 ≤ off.toNat ∧ off.toNat < 0x100 + s.bufBytes)) ∧ t = s) := by
  cases htarget : hostTarget s.bufBytes width off with
  | none => rw [hostStep_write_none htarget] at h; cases h
  | some target =>
    cases target with
    | cmd =>
      rw [hostStep_write_busy hbusy (.inl htarget)] at h
      cases h
      obtain ⟨-, rfl⟩ := hostTarget_cmd htarget
      exact .inl ⟨.inl rfl, rfl⟩
    | status =>
      rw [hostStep_write_status htarget] at h
      cases h
      have hoff := offset_of_hostTarget_status htarget
      exact .inr ⟨by omega, rfl⟩
    | buf i =>
      rw [hostStep_write_busy hbusy (.inr ⟨i, htarget⟩)] at h
      cases h
      obtain ⟨-, hoff, hi⟩ := hostTarget_buf htarget
      exact .inl ⟨.inr ⟨by omega, by omega⟩, rfl⟩
    | unmapped =>
      rw [hostStep_write_unmapped htarget] at h
      cases h
      have hoff := unmappedOffset_of_hostTarget htarget
      unfold UnmappedOffset at hoff
      exact .inr ⟨by omega, rfl⟩

/-- Settles O47: reads by their frame, idle writes by `bufWrite_bufWrite_same`, busy writes by the target's cases. -/
theorem sideEffectsOfTransactions : Obligations.SideEffectsOfTransactions := by
  refine ⟨fun _ _ _ _ h => hostRead_frame h, fun s t i b hidle hi hsize h => ?_, fun s t width off w hbusy h => ?_⟩
  · rw [hostStep_opSb_idle b hidle hi hsize] at h
    cases h
    have hsame : bufWrite (bufWrite s.buf i b) i b = bufWrite s.buf i b := bufWrite_bufWrite_same s.buf i b b
    simpa only [hsame] using hostStep_opSb_idle (s := { s with buf := bufWrite s.buf i b }) b hidle hi hsize
  · obtain ⟨hoff, rfl⟩ | ⟨hoff, rfl⟩ := hostStep_write_busy_cases hbusy h
    · exact ⟨rfl, by rw [if_pos hoff, overrun_ovr]⟩
    · exact ⟨rfl, by rw [if_neg hoff]⟩

end Sys2Proof.Machine

namespace Sys2Proof.Machine

/-! ### Whose turn a step is (O4) -/

section Turns
variable {s : State} {t : Turn} {ts : List Turn}

theorem step_of_turns_cons (h : s.turns = t :: ts) : step s = takeTurn t { s with turns := ts } := by
  simp only [step, nextTurn, h]

theorem step_of_turns_nil (h : s.turns = []) : step s = takeTurn (defaultTurn s) s := by
  simp only [step, nextTurn, h]

theorem defaultTurn_idle (h : s.phase = .idle) : defaultTurn s = .host := by
  simp [defaultTurn, h]

theorem defaultTurn_busy (h : s.phase ≠ .idle) : defaultTurn s = .engine := by
  simp [defaultTurn, h]

theorem takeTurn_host_nil (h : s.hostOps = []) : takeTurn .host s = .next s := by
  simp only [takeTurn, hostTurn, h]

theorem takeTurn_host_cons {op : HostOp} {ops : List HostOp} (h : s.hostOps = op :: ops) :
    takeTurn .host s = hostStep op { s with hostOps := ops } := by
  simp only [takeTurn, hostTurn, h]

theorem takeTurn_command_dispatch (h : s.phase = .dispatch) : takeTurn .command s = commandStep s := by
  rw [takeTurn, if_pos h]

theorem takeTurn_command_other (h : s.phase ≠ .dispatch) : takeTurn .command s = engineStep s := by
  rw [takeTurn, if_neg h]

theorem engineStep_idle (h : s.phase = .idle) : engineStep s = .next s := by
  simp only [engineStep, h]

theorem commandStep_of_decode {i : Instr} (h : decode s.cmdl = .ok i) : commandStep s = exec i s := by
  simp only [commandStep, h]

end Turns

/-- A word placed by `loadCommand` runs in the very next step, from the state its acceptance makes (log 13). -/
theorem step_loadCommand (w : Word) (s : State) : step (loadCommand w s) = commandStep (accept w s) :=
  (step_of_turns_cons (loadCommand_turns w s)).trans (takeTurn_command_dispatch (s := accept w s) rfl)

/-- Settles O4: the step is the named or the default turn, and each clause is the rule of that turn. -/
theorem stepRunsTheLatchedCommand : Obligations.StepRunsTheLatchedCommand := by
  refine ⟨?wholeCommand, ?placedWord, ?commandTurn, ?engineTurn, ?engineByDefault, ?hostTurn, ?hostByDefault,
    ?hostRests, ?hostRestsByDefault, ?engineRests⟩
  case wholeCommand =>
    exact fun s ts i hturns hphase hdec => (step_of_turns_cons hturns).trans
      ((takeTurn_command_dispatch (s := { s with turns := ts }) hphase).trans (commandStep_of_decode hdec))
  case placedWord =>
    exact fun s nbits w i hdec => (step_loadCommand _ s).trans (commandStep_of_decode hdec)
  case commandTurn =>
    exact fun s ts hturns =>
      ⟨fun hphase => (step_of_turns_cons hturns).trans (takeTurn_command_dispatch hphase),
        fun hphase => (step_of_turns_cons hturns).trans (takeTurn_command_other hphase)⟩
  case engineTurn => exact fun s ts hturns => step_of_turns_cons hturns
  case engineByDefault =>
    intro s hturns hbusy
    rw [step_of_turns_nil hturns, defaultTurn_busy hbusy]
    rfl
  case hostTurn =>
    exact fun s ts op ops hturns hops => (step_of_turns_cons hturns).trans (takeTurn_host_cons hops)
  case hostByDefault =>
    intro s op ops hturns hidle hops
    rw [step_of_turns_nil hturns, defaultTurn_idle hidle, takeTurn_host_cons hops]
  case hostRests =>
    exact fun s ts hturns hops => (step_of_turns_cons hturns).trans (takeTurn_host_nil hops)
  case hostRestsByDefault =>
    intro s hturns hidle hops
    rw [step_of_turns_nil hturns, defaultTurn_idle hidle, takeTurn_host_nil hops]
  case engineRests =>
    rintro s ts (hturns | hturns) hidle
    · exact (step_of_turns_cons hturns).trans (engineStep_idle hidle)
    · have hphase : s.phase ≠ .dispatch := by simp [hidle]
      exact (step_of_turns_cons hturns).trans
        ((takeTurn_command_other (s := { s with turns := ts }) hphase).trans (engineStep_idle hidle))

end Sys2Proof.Machine

namespace Sys2Proof.Machine

/-! ### The fields of the STATUS word (O43)

STATUS is an append of its fields (10_state.md R25), so a field is read back by going into the part that holds it. -/

section StatusFields
variable (s : State)

/-- Bits 31:8 are EBYTE, EPOS and RLEN. -/
theorem statusWord_high {start : Nat} (len : Nat) (h : 8 ≤ start) :
    (statusWord s).extractLsb' start len = ((s.ebyte ++ s.epos) ++ s.rlen).extractLsb' (start - 8) len :=
  BitVec.extractLsb'_append_eq_of_le h

/-- Bits 3:0 are 0, OVR, DONE and BUSY. -/
theorem statusWord_flags {start len : Nat} (h : start + len ≤ 4) : (statusWord s).extractLsb' start len =
    (((0#1 ++ BitVec.ofBool s.ovr) ++ BitVec.ofBool s.done) ++ BitVec.ofBool (busy s)).extractLsb' start len :=
  (BitVec.extractLsb'_append_eq_of_add_le (Nat.le_add_right_of_le h)).trans (BitVec.extractLsb'_append_eq_of_add_le h)

theorem statusWord_busyBit : (statusWord s).extractLsb' 0 1 = BitVec.ofBool (busy s) :=
  (statusWord_flags s (by decide)).trans BitVec.extractLsb'_append_eq_right

theorem statusWord_doneBit : (statusWord s).extractLsb' 1 1 = BitVec.ofBool s.done := by
  rw [statusWord_flags s (by decide), BitVec.extractLsb'_append_eq_of_le (by decide)]
  exact BitVec.extractLsb'_append_eq_right

theorem statusWord_ovrBit : (statusWord s).extractLsb' 2 1 = BitVec.ofBool s.ovr := by
  rw [statusWord_flags s (by decide), BitVec.extractLsb'_append_eq_of_le (by decide),
    BitVec.extractLsb'_append_eq_of_le (by decide)]
  exact BitVec.extractLsb'_append_eq_right

theorem statusWord_bit3 : (statusWord s).extractLsb' 3 1 = 0 := by
  rw [statusWord_flags s (by decide), BitVec.extractLsb'_append_eq_of_le (by decide),
    BitVec.extractLsb'_append_eq_of_le (by decide)]
  exact BitVec.extractLsb'_append_eq_left

theorem statusWord_errField : (statusWord s).extractLsb' 4 4 = s.err :=
  (BitVec.extractLsb'_append_eq_of_add_le (by decide)).trans BitVec.extractLsb'_append_eq_left

theorem statusWord_rlenField : (statusWord s).extractLsb' 8 8 = s.rlen :=
  (statusWord_high s 8 (by decide)).trans BitVec.extractLsb'_append_eq_right

theorem statusWord_eposField : (statusWord s).extractLsb' 16 8 = s.epos := by
  rw [statusWord_high s 8 (by decide), BitVec.extractLsb'_append_eq_of_le (by decide)]
  exact BitVec.extractLsb'_append_eq_right

theorem statusWord_ebyteField : (statusWord s).extractLsb' 24 8 = s.ebyte := by
  rw [statusWord_high s 8 (by decide), BitVec.extractLsb'_append_eq_of_le (by decide)]
  exact BitVec.extractLsb'_append_eq_left

end StatusFields

/-- Settles O43: the word read is `statusWord`, field by field. -/
theorem statusReadIsTheFieldSnapshot : Obligations.StatusReadIsTheFieldSnapshot := by
  intro s
  refine ⟨statusWord s, hostStep_read_status (hostTarget_status_word s.bufBytes), ?_, ?_, ?_, statusWord_bit3 s,
    statusWord_errField s, statusWord_rlenField s, statusWord_eposField s, statusWord_ebyteField s⟩
  · rw [statusWord_busyBit, ← busy_eq_true_iff]
    exact BitVec.ofBool_eq_iff_eq (b' := true)
  · rw [statusWord_doneBit]
    exact BitVec.ofBool_eq_iff_eq (b' := true)
  · rw [statusWord_ovrBit]
    exact BitVec.ofBool_eq_iff_eq (b' := true)

end Sys2Proof.Machine

namespace Sys2Proof

/-! ### The command word (O1, O2) -/

/-- A command word is its four fields, from bit 31 down (30_encoding.md R81). -/
theorem word_eq_fields (w : Word) : w = (rsvHiField w ++ lenField w) ++ (rsvLoField w ++ opField w) := by
  have hhigh : rsvHiField w ++ lenField w = w.extractLsb' 8 24 :=
    BitVec.extractLsb'_append_extractLsb'_eq_extractLsb' rfl
  have hlow : rsvLoField w ++ opField w = w.extractLsb' 0 8 :=
    BitVec.extractLsb'_append_extractLsb'_eq_extractLsb' rfl
  rw [hhigh, hlow]
  exact (BitVec.extractLsb'_append_extractLsb'_eq_extractLsb' (start₁ := 0) (len₁ := 8) rfl).trans
    BitVec.extractLsb'_eq_self |>.symm

/-- The fields of every encoded command (30_encoding.md R81 to R85, R92). -/
theorem encode_fields (i : Instr) : Laws.EncodedFields.Statement i := by
  cases i with
  | enc len => exact Laws.EncodedFields.enc len
  | dec len => exact Laws.EncodedFields.dec len
  | ldb len => exact Laws.EncodedFields.ldb len
  | stb => exact Laws.EncodedFields.stb

/-- A word that decodes to a command is that command's encoding: no bit is dropped (30_encoding.md R81, R84). -/
theorem encode_of_decode {w : Word} {i : Instr} (h : decode w = .ok i) : encode i = w := by
  obtain ⟨hhi, hlo, hop, hlen⟩ := fields_of_decode h
  rw [word_eq_fields w, hhi, hlo, hop, hlen]
  rfl

/-- Every command's encoding decodes to it (30_encoding.md R86). -/
theorem decode_encode (i : Instr) : decode (encode i) = .ok i := by
  obtain ⟨hhi, hlo, hop, hlen, -⟩ := encode_fields i
  rw [decode_eq_ite, hhi, hlo, hop, hlen]
  cases i <;> rfl

/-- Settles O2: `encode_of_decode` one way, `decode_encode` the other. -/
theorem decodeIsTheInverseOfEncode : Obligations.DecodeIsTheInverseOfEncode :=
  fun _ i => ⟨encode_of_decode, fun h => h ▸ decode_encode i⟩

/-- Settles O1: the decoder, run on each word. -/
theorem commandWordsDecodeAsWritten : Obligations.CommandWordsDecodeAsWritten := by
  unfold Obligations.CommandWordsDecodeAsWritten
  decide

end Sys2Proof

namespace Sys2Proof.Machine

/-! ### Illegal words, and the DISPATCH step word by word (O3, O5) -/

/-- A guarded answer is an error exactly when the guard fails. -/
theorem exists_error_ite {c : Prop} [Decidable c] {i : Instr} {r : IllegalWord} :
    (∃ e, (if c then Except.ok i else Except.error r) = Except.error e) ↔ ¬ c := by
  split <;> simp_all

/-- The classification of a word by its fields: the four conditions of 30_encoding.md R87. -/
theorem classify_error_iff {n : Nat} {w : Word} : (∃ e, classify n w = .error e) ↔
    (rsvHiField w ≠ 0 ∨ rsvLoField w ≠ 0) ∨ opField w ∉ [1, 2, 3, 4] ∨
    (opField w ∈ [1, 2] ∧ (lenField w).toNat > n) ∨ (opField w = 4 ∧ lenField w ≠ 0) := by
  rw [classify, decode_eq_ite]
  by_cases hrsv : rsvHiField w ≠ 0 ∨ rsvLoField w ≠ 0
  · rw [if_pos hrsv]
    exact iff_of_true ⟨_, rfl⟩ (.inl hrsv)
  rw [if_neg hrsv]
  obtain ⟨hhi, hlo⟩ : rsvHiField w = 0 ∧ rsvLoField w = 0 := by simpa using hrsv
  by_cases henc : opField w = 1
  · simp [hhi, hlo, henc, Instr.wellFormed, exists_error_ite]
  by_cases hdec : opField w = 2
  · simp [hhi, hlo, hdec, Instr.wellFormed, exists_error_ite]
  by_cases hldb : opField w = 3
  · simp [hhi, hlo, hldb, Instr.wellFormed]
  by_cases hstb : opField w = 4
  · by_cases hlen : lenField w = 0
    · simp [hhi, hlo, hstb, hlen, Instr.wellFormed]
    · rw [if_neg henc, if_neg hdec, if_neg hldb, if_pos hstb, if_neg hlen]
      exact iff_of_true ⟨_, rfl⟩ (.inr (.inr (.inr ⟨hstb, hlen⟩)))
  · rw [if_neg henc, if_neg hdec, if_neg hldb, if_neg hstb]
    exact iff_of_true ⟨_, rfl⟩ (.inr (.inl (by simp_all)))

section StepsByWord
variable {s : State}

theorem dispatchStep_of_decode {i : Instr} (h : decode s.cmdl = .ok i) : dispatchStep s = dispatchInstr i s := by
  simp only [dispatchStep, h]

theorem dispatchStep_of_decode_error {e : IllegalWord} (h : decode s.cmdl = .error e) :
    dispatchStep s = .next (raiseErr .illegalCmd 0 0 s) := by
  simp only [dispatchStep, h]

theorem commandStep_of_decode_error {e : IllegalWord} (h : decode s.cmdl = .error e) :
    commandStep s = .next (raiseErr .illegalCmd 0 0 s) := by
  simp only [commandStep, h]

end StepsByWord

/-- A command that is not legal on the block completes with ILLEGAL_CMD (30_encoding.md R87 condition 3), phase by phase
and as a whole. -/
theorem illFormed_completes {i : Instr} {s : State} (h : ¬ i.wellFormed s.bufBytes = true) :
    dispatchInstr i s = .next (raiseErr .illegalCmd 0 0 s) ∧ exec i s = .next (raiseErr .illegalCmd 0 0 s) := by
  cases i with
  | enc len =>
    have hover : len.toNat > s.bufBytes := Nat.lt_of_not_le fun hle => h (decide_eq_true hle)
    exact ⟨if_pos hover, if_pos hover⟩
  | dec len =>
    have hover : len.toNat > s.bufBytes := Nat.lt_of_not_le fun hle => h (decide_eq_true hle)
    exact ⟨if_pos hover, if_pos hover⟩
  | ldb len => exact absurd rfl h
  | stb => exact absurd rfl h

/-- An illegal word completes with ILLEGAL_CMD, whichever condition it meets (30_encoding.md R87), phase by phase and
as a whole. -/
theorem illegal_completes {s : State} {e : IllegalWord} (h : classify s.bufBytes s.cmdl = .error e) :
    dispatchStep s = .next (raiseErr .illegalCmd 0 0 s) ∧ commandStep s = .next (raiseErr .illegalCmd 0 0 s) := by
  cases hdec : decode s.cmdl with
  | error e' => exact ⟨dispatchStep_of_decode_error hdec, commandStep_of_decode_error hdec⟩
  | ok i =>
    simp only [classify, hdec] at h
    rw [dispatchStep_of_decode hdec, commandStep_of_decode hdec]
    exact illFormed_completes (exists_error_ite.1 ⟨e, h⟩)

theorem engineStep_dispatch {s : State} (h : s.phase = .dispatch) : engineStep s = dispatchStep s := by
  simp only [engineStep, h]

/-- Settles O3: the conditions by the decoder's cases, the completion by `illegal_completes`. -/
theorem illegalWordsCompleteWithIllegalCmd : Obligations.IllegalWordsCompleteWithIllegalCmd := by
  intro s hphase
  refine ⟨classify_error_iff, ?_⟩
  rintro ⟨e, herr⟩
  rw [engineStep_dispatch hphase]
  exact illegal_completes herr

/-- The DISPATCH step as an if-chain over the word's fields (30_encoding.md R88). -/
theorem dispatchStep_eq_ite (s : State) : dispatchStep s =
    if rsvHiField s.cmdl ≠ 0 ∨ rsvLoField s.cmdl ≠ 0 then .next (raiseErr .illegalCmd 0 0 s)
    else if opField s.cmdl = 1 then dispatchEnc (lenField s.cmdl) s
    else if opField s.cmdl = 2 then dispatchDec (lenField s.cmdl) s
    else if opField s.cmdl = 3 then execLdb (lenField s.cmdl) s
    else if opField s.cmdl = 4 then
      if lenField s.cmdl = 0 then execStb s else .next (raiseErr .illegalCmd 0 0 s)
    else .next (raiseErr .illegalCmd 0 0 s) := by
  simp only [dispatchStep, decode_eq_ite]
  split_ifs <;> rfl

theorem dispatchEnc_eq (len : BitVec 8) (s : State) : dispatchEnc len s =
    if len.toNat > s.bufBytes then .next (raiseErr .illegalCmd 0 0 s)
    else if s.valWritten = false then .fault .unwrittenVal
    else .next { s with q := s.val, cnt := 0, phase := .encDiv } := by
  unfold dispatchEnc valRead
  cases s.valWritten <;> rfl

theorem execStb_eq (s : State) : execStb s =
    if s.valWritten = false then .fault .unwrittenVal
    else .next (finish .none 16 0 0 { s with buf := memWrite s.buf 0 16 s.val }) := by
  unfold execStb valRead
  cases s.valWritten <;> rfl

/-- Settles O5: `dispatchStep_eq_ite` and the four commands' own checks; on LEN the spec compares numbers. -/
theorem dispatchStepFollowsItsIfChain : Obligations.DispatchStepFollowsItsIfChain := by
  intro s hphase op len done
  have hlen : ∀ n : BitVec 8, (lenField s.cmdl = n) = (len = n.toNat) := fun _ => propext BitVec.toNat_inj.symm
  rw [engineStep_dispatch hphase, dispatchStep_eq_ite]
  refine ite_congr rfl (fun _ => rfl) fun _ => ite_congr rfl (fun _ => ?enc) fun _ => ite_congr rfl (fun _ => ?dec)
    fun _ => ite_congr rfl (fun _ => ?ldb) fun _ => ite_congr rfl (fun _ => ?stb) fun _ => rfl
  case enc => exact dispatchEnc_eq (lenField s.cmdl) s
  case dec => exact ite_congr rfl (fun _ => rfl) fun _ => ite_congr (hlen 0) (fun _ => rfl) fun _ => rfl
  case ldb =>
    refine ite_congr (congrArg Not (hlen 16)) (fun _ => rfl) fun _ => ?_
    cases memRead s.buf 0 16 0 <;> rfl
  case stb =>
    rw [ite_not]
    exact ite_congr (hlen 0) (fun _ => execStb_eq s) fun _ => rfl

/-! ### The host's side (O48, O49) -/

/-- The word that the host syntax writes for a command (30_encoding.md R92). -/
theorem opCommand_eq (i : Instr) :
    opCommand i = .write .word 0x000 (i.opcode.setWidth 32 ||| (i.length.setWidth 32 <<< 8)) := by
  obtain ⟨-, -, -, -, hword⟩ := encode_fields i
  rw [opCommand, opCmd, hword]

/-- Settles O48: the words by `opCommand_eq`, the offset of BUF[i] by `hostTarget_buf_index`. -/
theorem hostSyntaxReachesItsRegisters : Obligations.HostSyntaxReachesItsRegisters :=
  ⟨fun n => ⟨opCommand_eq (.enc n), opCommand_eq (.dec n), opCommand_eq (.ldb n)⟩, opCommand_eq .stb,
    fun n _ => ⟨hostTarget_cmd_word n, rfl, rfl, hostTarget_status_word n⟩,
    fun _ i _ hn hi => ⟨BitVec.ofNat 12 (0x100 + i), rfl, rfl, by rw [BitVec.toNat_ofNat]; omega,
      hostTarget_buf_index hi hn⟩⟩

/-- Settles O49: WAIT is the host's next operation, and each clause is one branch of it. -/
theorem waitEndsWhenStatusShowsIdle : Obligations.WaitEndsWhenStatusShowsIdle := by
  intro s ops hops hturn
  rw [step_of_hostActs (op := .wait) ⟨hturn, by rw [hops]; rfl⟩, hops, List.tail_cons]
  refine ⟨fun hbusy => (if_pos hbusy).trans ?_, fun hidle => if_neg (Bool.eq_false_iff.1 hidle)⟩
  rw [← hops]

end Sys2Proof.Machine

namespace Sys2Proof.Machine

/-! ### Phase by phase and as a whole (O35) -/

/-- A run that has ended, by a fault or in IDLE, stays so. -/
theorem engineRun_of_le {n m : Nat} {s : State} (hle : n ≤ m)
    (hidle : ∀ t, engineRun n s = .next t → t.phase = .idle) : engineRun m s = engineRun n s := by
  obtain ⟨d, rfl⟩ := Nat.exists_eq_add_of_le hle
  rw [engineRun_add]
  cases hrun : engineRun n s with
  | next t => exact engineRun_idle d (hidle t hrun)
  | fault f => rfl
  | refused r => rfl

/-- A run whose first step completes the command. -/
theorem engineRun_succ_idle {n : Nat} {s t : State} (h : engineStep s = .next t) (hidle : t.phase = .idle) :
    engineRun (n + 1) s = .next t :=
  (engineRun_step h).trans (engineRun_idle n hidle)

/-- A run whose first step faults. -/
theorem engineRun_succ_fault {n : Nat} {s : State} {f : Fault} (h : engineStep s = .fault f) :
    engineRun (n + 1) s = .fault f := by
  simp only [engineRun, h]

theorem engineRun_one (s : State) : engineRun 1 s = engineStep s := by
  simp only [engineRun]
  cases engineStep s <;> rfl

theorem engineRun_add_of_next {a b : Nat} {s t : State} (h : engineRun a s = .next t) :
    engineRun (a + b) s = engineRun b t := by
  rw [engineRun_add, h]

/-! #### DEC -/

/-- DEC's end overwrites ACC, IDX and PHASE (log 16). -/
theorem endDec_congr (len : BitVec 8) (r : DecResult) (s : State) (acc : Value) (idx : BitVec 8) (p : Phase) :
    endDec len r { s with acc := acc, idx := idx, phase := p } = endDec len r s := by
  cases r <;> rfl

theorem leaveHorner_self (s : State) : leaveHorner s.acc.toNat s.idx.toNat s = s := by
  simp [leaveHorner]

theorem accumulated_acc {s : State} {d : Digit} (h : s.acc.toNat * 62 + d.val ≤ Config.valueMax) :
    (s.accumulated d).acc.toNat = s.acc.toNat * 62 + d.val :=
  (BitVec.toNat_ofNat _ 128).trans (Nat.mod_eq_of_lt (Nat.lt_of_le_of_lt h (by decide)))

/-- From DEC_ACC with n bytes left the engine ends as the whole command's loop over them does (42_decoder.md R130,
R139). -/
theorem engineRun_decAcc {n : Nat} {s : State} (hphase : s.phase = .decAcc) (hpos : 0 < n)
    (hidx : s.idx.toNat + n = (lenField s.cmdl).toNat) (hlen : (lenField s.cmdl).toNat ≤ s.bufBytes) :
    engineRun n s = endDec (lenField s.cmdl) (decLoop s.buf n s.idx.toNat s.acc.toNat) s := by
  induction n generalizing s with
  | zero => exact absurd hpos (Nat.lt_irrefl 0)
  | succ n ih =>
    have hstep : engineStep s = decAccStep s := by simp only [engineStep, hphase]
    have hlt : s.idx.toNat < (lenField s.cmdl).toNat := by omega
    cases hb : bufRead s.buf s.idx.toNat with
    | none =>
      rw [engineRun_succ_fault (hstep.trans (decAccStep_unwritten hlt hlen hb))]
      simp only [decLoop, hb, endDec]
    | some b =>
      cases hd : rev b with
      | none =>
        rw [engineRun_succ_idle (hstep.trans (decAccStep_invalidChar hlt hlen hb hd)) rfl]
        simp only [decLoop, hb, hd, endDec, leaveHorner_self, BitVec.ofNat_toNat, BitVec.setWidth_eq]
      | some d =>
        rw [decAccStep_digit hlt hlen hb hd] at hstep
        simp only [decLoop, hb, hd]
        split at hstep <;> rename_i hmax
        · rw [engineRun_succ_idle hstep rfl, if_pos hmax]
          simp only [endDec, leaveHorner_self, BitVec.ofNat_toNat, BitVec.setWidth_eq]
        · rw [if_neg hmax]
          have hidx' : (s.idx + 1).toNat = s.idx.toNat + 1 :=
            BitVec.toNat_add_of_lt (y := 1) (show s.idx.toNat + 1 < 2 ^ 8 by omega)
          split at hstep <;> rename_i hlast
          · obtain rfl : n = 0 := by
              rw [← hlast, hidx'] at hidx
              omega
            rw [engineRun_succ_idle hstep rfl]
            simp only [decLoop, endDec, leaveHorner, ← hlast, BitVec.ofNat_toNat, BitVec.setWidth_eq]
            rfl
          · have hmore : 0 < n := by
              rcases Nat.eq_zero_or_pos n with rfl | hn
              · exact absurd (BitVec.eq_of_toNat_eq (by omega)) hlast
              · exact hn
            have hleft : (s.idx + 1).toNat + n = (lenField s.cmdl).toNat := by omega
            have hrest := ih (s := s.accumulated d) hphase hmore hleft hlen
            rw [engineRun_step hstep, hrest, accumulated_acc (by omega),
              show (s.accumulated d).idx.toNat = _ from hidx']
            exact endDec_congr _ _ s _ _ s.phase

/-- DEC with a text to read, phase by phase: DISPATCH and one step for each byte, the last of them IDLE where the text
fails early (70_reset_and_hazards.md R218). -/
theorem engineRun_dec {s : State} {len : BitVec 8} (hphase : s.phase = .dispatch)
    (hdec : decode s.cmdl = .ok (.dec len)) (hlen : len.toNat ≤ s.bufBytes) (hne : len ≠ 0) :
    engineRun (len.toNat + 1) s = exec (.dec len) s := by
  have hfield : lenField s.cmdl = len := lenField_of_decode hdec
  have hstep : engineStep s = .next { s with acc := 0, idx := 0, phase := .decAcc } := by
    simp only [engineStep_dispatch hphase, dispatchStep, hdec, dispatchInstr, dispatchDec]
    rw [if_neg (by omega), if_neg hne]
  rw [engineRun_step hstep, exec_dec_runs hne hlen,
    engineRun_decAcc rfl (Nat.pos_of_ne_zero (length_ne_zero.1 hne)) (by simp [hfield]) (by simpa [hfield] using hlen)]
  simp only [hfield]
  exact endDec_congr _ _ s _ _ _

/-! #### ENC -/

/-- ENC_DIV's end of the rounds that produce the digits `low`, least significant first (41_encoder.md R106). -/
def State.dividedBy (low : List Digit) (s : State) : State :=
  { s with q := 0, dig := storeDigits s.cnt.toNat low s.dig, cnt := BitVec.ofNat 5 (s.cnt.toNat + low.length) }

/-- The capacity check at Q = 0 (41_encoder.md R102, R106). -/
def endEncDiv (s : State) : Host.Outcome State Fault Refusal :=
  if s.cnt.toNat > (lenField s.cmdl).toNat then .next (raiseErr .encodeCapacity 0 0 s)
  else .next { s with j := 0, phase := .encWrite }

theorem dividedBy_of_cnt_zero {s : State} (hcnt : s.cnt = 0) (low : List Digit) :
    s.dividedBy low = leaveDivmod low s := by
  simp [State.dividedBy, leaveDivmod, hcnt]

theorem dividedBy_nil {s : State} (hq : s.q = 0) : s.dividedBy [] = s := by
  simp [State.dividedBy, storeDigits, ← hq]

theorem divided_dividedBy {s : State} (hcnt : s.cnt.toNat < 22) (low : List Digit) :
    s.divided.dividedBy low = s.dividedBy (lowDigit s.q.toNat :: low) := by
  simp only [State.dividedBy, divided_cnt hcnt, storeDigits, List.length_cons]
  rw [show s.cnt.toNat + 1 + low.length = s.cnt.toNat + (low.length + 1) by omega]
  rfl

theorem divided_q_toNat (s : State) : s.divided.q.toNat = s.q.toNat / 62 :=
  BitVec.toNat_udiv

/-- From ENC_DIV the engine takes one step for each digit of Q, and then checks the capacity (41_encoder.md R106). -/
theorem engineRun_encDiv {fuel : Nat} {s : State} (hphase : s.phase = .encDiv) (hpos : 0 < fuel)
    (hq : s.q.toNat < 62 ^ fuel) (hcnt : s.cnt.toNat + fuel ≤ 22) :
    engineRun (digitsLow fuel s.q.toNat).length s = endEncDiv (s.dividedBy (digitsLow fuel s.q.toNat)) := by
  induction fuel generalizing s with
  | zero => exact absurd hpos (Nat.lt_irrefl 0)
  | succ fuel ih =>
    have hroom : s.cnt.toNat < 22 := by omega
    have hstep : engineStep s = if s.divided.q = 0 then endEncDiv s.divided else .next s.divided := by
      simp only [engineStep, hphase]
      exact encDivStep_eq hroom
    rw [digitsLow_succ, ← divided_q_toNat s, ← divided_dividedBy hroom, List.length_cons]
    by_cases hzero : s.divided.q = 0
    · rw [if_pos (by rw [hzero]; rfl), dividedBy_nil hzero, List.length_nil, engineRun_one, hstep, if_pos hzero]
    · have hmore : s.divided.q.toNat ≠ 0 := fun h => hzero (BitVec.eq_of_toNat_eq h)
      have hq' : s.divided.q.toNat < 62 ^ fuel := by
        rw [divided_q_toNat, Nat.div_lt_iff_lt_mul (by decide), ← pow_succ]
        exact hq
      have hfuel : 0 < fuel := Nat.pos_of_ne_zero fun h => hmore (by simpa [h] using hq')
      rw [if_neg hzero] at hstep
      rw [if_neg hmore, engineRun_step hstep]
      exact ih hphase hfuel hq' (by rw [divided_cnt hroom]; omega)

/-- From ENC_WRITE with the characters of `ds` to come, whose digits stand in DIG least significant first, the engine
takes one step for each character and completes (41_encoder.md R107). -/
theorem engineRun_encWrite {ds : List Digit} {s : State} (hphase : s.phase = .encWrite) (hne : ds ≠ [])
    (hcount : s.j.toNat + ds.length = s.cnt.toNat) (hcnt : s.cnt.toNat ≤ 22) (hbuf : s.cnt.toNat ≤ s.bufBytes)
    (hdig : ∀ k (h : k < 22) (hk : k < ds.reverse.length), s.dig[k] = ds.reverse[k]) :
    engineRun ds.length s = .next (finish .none (BitVec.ofNat 8 s.cnt.toNat) 0 0
      { s with buf := writeText s.j.toNat ds s.buf, j := s.cnt }) := by
  induction ds generalizing s with
  | nil => exact absurd rfl hne
  | cons d ds ih =>
    simp only [List.length_cons, List.reverse_cons, List.length_append, List.length_reverse, List.length_nil]
      at hcount hdig ⊢
    have hj : s.j.toNat < s.cnt.toNat := by omega
    have hnext : s.dig[s.cnt.toNat - 1 - s.j.toNat]'(by omega) = d := by
      rw [hdig _ (by omega) (by omega), List.getElem_append_right (by simp; omega)]
      simp
    have hstep : engineStep s = if s.j + 1 = s.cnt then
        .next (finish .none (BitVec.ofNat 8 s.cnt.toNat) 0 0 (s.spelled d)) else .next (s.spelled d) := by
      simp only [engineStep, hphase]
      rw [encWriteStep_spells hj hcnt (by omega), hnext]
    have hj' : (s.j + 1).toNat = s.j.toNat + 1 :=
      BitVec.toNat_add_of_lt (y := 1) (show s.j.toNat + 1 < 2 ^ 5 by omega)
    split at hstep <;> rename_i hlast
    · have hnil : ds = [] := by
        rw [← hlast, hj'] at hcount
        exact List.eq_nil_of_length_eq_zero (by omega)
      subst hnil
      rw [List.length_nil, engineRun_one, hstep]
      simp only [State.spelled, writeText, hlast]
    · have hmore : ds ≠ [] := by
        rintro rfl
        exact hlast (BitVec.eq_of_toNat_eq (hj'.trans hcount))
      have hleft : (s.j + 1).toNat + ds.length = s.cnt.toNat := by omega
      have hdig' : ∀ k (h : k < 22) (hk : k < ds.reverse.length), s.dig[k] = ds.reverse[k] := by
        intro k h hk
        have hk' : k < ds.length := by simpa using hk
        exact (hdig k h (by omega)).trans (List.getElem_append_left hk)
      have hrest := ih (s := s.spelled d) hphase hmore hleft hcnt hbuf hdig'
      rw [engineRun_step hstep, hrest, show (s.spelled d).j.toNat = _ from hj']
      rfl

/-- The digit count fits CNT (10_state.md R39). -/
theorem leaveDivmod_digits_cnt (v : Nat) (s : State) :
    (leaveDivmod (digits v).reverse s).cnt.toNat = (digits v).length := by
  have := digits_length_le v
  rw [leaveDivmod_cnt, List.length_reverse, BitVec.toNat_ofNat]
  omega

section EncCommand
variable {s : State} {len : BitVec 8} (hphase : s.phase = .dispatch) (hdec : decode s.cmdl = .ok (.enc len))
  (hwritten : s.valWritten = true) (hlen : len.toNat ≤ s.bufBytes)
include hphase hdec hwritten hlen

/-- ENC up to its capacity check: DISPATCH and one step for each digit of VAL (41_encoder.md R102, R106). -/
theorem engineRun_enc_divmod : engineRun ((digits s.val.toNat).length + 1) s =
    if (digits s.val.toNat).length > len.toNat then
      .next (raiseErr .encodeCapacity 0 0 (leaveDivmod (digits s.val.toNat).reverse s))
    else .next { leaveDivmod (digits s.val.toNat).reverse s with j := 0, phase := .encWrite } := by
  have hstep : engineStep s = .next { s with q := s.val, cnt := 0, phase := .encDiv } := by
    simp only [engineStep_dispatch hphase, dispatchStep, hdec, dispatchInstr, dispatchEnc, valRead_written hwritten]
    rw [if_neg (by omega)]
  have hlow : digitsLow 22 s.val.toNat = (digits s.val.toNat).reverse := (List.reverse_reverse _).symm
  have hrounds := engineRun_encDiv (s := { s with q := s.val, cnt := 0, phase := .encDiv }) rfl (fuel := 22) (by decide)
    (value_lt s.val) (Nat.le_refl 22)
  simp only [hlow, List.length_reverse] at hrounds
  have hcheck : ((leaveDivmod (digits s.val.toNat).reverse s).cnt.toNat > (lenField s.cmdl).toNat) =
      ((digits s.val.toNat).length > len.toNat) := by
    rw [leaveDivmod_digits_cnt, lenField_of_decode hdec]
    rfl
  rw [engineRun_step hstep, hrounds, dividedBy_of_cnt_zero rfl]
  exact ite_congr hcheck (fun _ => rfl) fun _ => rfl

/-- ENC whose text does not fit, phase by phase (70_reset_and_hazards.md R218). -/
theorem engineRun_enc_capacity (hk : len.toNat < (digits s.val.toNat).length) :
    engineRun ((digits s.val.toNat).length + 1) s = exec (.enc len) s := by
  rw [engineRun_enc_divmod hphase hdec hwritten hlen, if_pos hk, exec_enc_capacity hwritten hlen hk]

/-- ENC whose text fits, phase by phase: one step more for each character (70_reset_and_hazards.md R218). -/
theorem engineRun_enc_fits (hk : (digits s.val.toNat).length ≤ len.toNat) :
    engineRun ((digits s.val.toNat).length + 1 + (digits s.val.toNat).length) s = exec (.enc len) s := by
  have hmax := digits_length_le s.val.toNat
  have hdivmod := engineRun_enc_divmod hphase hdec hwritten hlen
  rw [if_neg (by omega)] at hdivmod
  have hdig : ∀ k (h : k < 22) (hk : k < (digits s.val.toNat).reverse.length),
      (storeDigits 0 (digits s.val.toNat).reverse s.dig)[k] = (digits s.val.toNat).reverse[k] := by
    intro k h hk
    rw [storeDigits_getElem, dif_pos ⟨Nat.zero_le k, by omega⟩]
    rfl
  have hcnt := leaveDivmod_digits_cnt s.val.toNat s
  have hwrite := engineRun_encWrite (ds := digits s.val.toNat)
    (s := { leaveDivmod (digits s.val.toNat).reverse s with j := 0, phase := .encWrite }) rfl
    (List.ne_nil_of_length_pos (digits_length_pos _)) ((Nat.zero_add _).trans hcnt.symm) (hcnt.trans_le hmax)
    (hcnt.trans_le (hk.trans hlen)) hdig
  rw [engineRun_add_of_next hdivmod, hwrite, exec_enc_fits hwritten hlen hk, hcnt]
  simp only [leaveText, leaveDivmod, List.length_reverse]
  rfl

end EncCommand

/-- Every latched command ends within the bound, as the whole command does (70_reset_and_hazards.md R218, R220). -/
theorem exists_engineRun_eq_commandStep {s : State} (hphase : s.phase = .dispatch) :
    ∃ n, n ≤ 1 + max 44 s.bufBytes ∧ engineRun n s = commandStep s := by
  have hone : dispatchStep s = commandStep s → ∃ n, n ≤ 1 + max 44 s.bufBytes ∧ engineRun n s = commandStep s :=
    fun h => ⟨1, by omega, by rw [engineRun_one, engineStep_dispatch hphase, h]⟩
  cases hdec : decode s.cmdl with
  | error e => exact hone ((dispatchStep_of_decode_error hdec).trans (commandStep_of_decode_error hdec).symm)
  | ok i =>
    have hwhole := commandStep_of_decode hdec
    have hfirst := dispatchStep_of_decode hdec
    cases i with
    | enc len =>
      rcases Nat.lt_or_ge s.bufBytes len.toNat with hlen | hlen
      · exact hone (by rw [hfirst, hwhole, exec_enc_illegal hlen]; exact if_pos hlen)
      cases hwritten : s.valWritten with
      | false =>
        refine hone ?_
        have hfault := exec_enc_unwritten hwritten hlen
        exact (hfirst.trans (dispatchEnc_fault_iff.2 hfault)).trans (hwhole.trans hfault).symm
      | true =>
        have hmax := digits_length_le s.val.toNat
        rw [hwhole]
        rcases Nat.lt_or_ge len.toNat (digits s.val.toNat).length with hk | hk
        · exact ⟨_, by omega, engineRun_enc_capacity hphase hdec hwritten hlen hk⟩
        · exact ⟨_, by omega, engineRun_enc_fits hphase hdec hwritten hlen hk⟩
    | dec len =>
      rcases Nat.lt_or_ge s.bufBytes len.toNat with hlen | hlen
      · exact hone (by rw [hfirst, hwhole]; exact (if_pos hlen).trans (if_pos hlen).symm)
      by_cases hzero : len = 0
      · subst hzero
        exact hone (by rw [hfirst, hwhole]; rfl)
      · exact ⟨len.toNat + 1, by omega, hwhole ▸ engineRun_dec hphase hdec hlen hzero⟩
    | ldb len => exact hone (hfirst.trans hwhole.symm)
    | stb => exact hone (hfirst.trans hwhole.symm)

/-- Settles O35: each command's run ends as the whole command does, and a run that has ended stays so up to the
bound. -/
theorem engineRunEqualsWholeCommand : Obligations.EngineRunEqualsWholeCommand := by
  intro s hphase
  obtain ⟨n, hle, hrun⟩ := exists_engineRun_eq_commandStep hphase
  have hidle : ∀ t, engineRun n s = .next t → t.phase = .idle :=
    fun t ht => (commandStep_completes (hrun.symm.trans ht)).2.1
  exact (engineRun_of_le hle hidle).trans hrun

end Sys2Proof.Machine

namespace Sys2Proof.Machine

/-! ### While a command runs on (O38)

The engine neither reads nor writes what a host transaction changes while BUSY = 1, so an engine step is the same with
other values there; and the host sees of the block only what no step of a running command changes. -/

/-- What a host operation other than reset can change while BUSY = 1: OVR and the host's own side (20_memory.md R60,
R61). -/
structure PortRegs where
  ovr : Bool
  hostOps : List HostOp
  replies : List Word
  freeDraws : Nat

/-- The state with other values there. -/
def State.withPort (p : PortRegs) (s : State) : State :=
  { s with ovr := p.ovr, hostOps := p.hostOps, replies := p.replies, freeDraws := p.freeDraws }

@[simp] theorem withPort_buf (p : PortRegs) (s : State) : (s.withPort p).buf = s.buf := rfl
@[simp] theorem withPort_cmdl (p : PortRegs) (s : State) : (s.withPort p).cmdl = s.cmdl := rfl
@[simp] theorem withPort_idx (p : PortRegs) (s : State) : (s.withPort p).idx = s.idx := rfl
@[simp] theorem withPort_phase (p : PortRegs) (s : State) : (s.withPort p).phase = s.phase := rfl

/-- An outcome with its next state changed by f. -/
def mapNext (f : State → State) : Host.Outcome State Fault Refusal → Host.Outcome State Fault Refusal
  | .next s => .next (f s)
  | .fault r => .fault r
  | .refused r => .refused r

section EngineKeepsThePort
variable (p : PortRegs) (s : State)

theorem execLdb_withPort (len : BitVec 8) : execLdb len (s.withPort p) = mapNext (·.withPort p) (execLdb len s) := by
  simp only [execLdb, apply_ite (mapNext _)]
  refine ite_congr rfl (fun _ => rfl) fun _ => ?_
  rw [withPort_buf]
  cases memRead s.buf 0 16 0 <;> rfl

theorem execStb_withPort : execStb (s.withPort p) = mapNext (·.withPort p) (execStb s) := by
  rw [execStb_eq, execStb_eq, apply_ite (mapNext _)]
  rfl

theorem dispatchEnc_withPort (len : BitVec 8) :
    dispatchEnc len (s.withPort p) = mapNext (·.withPort p) (dispatchEnc len s) := by
  rw [dispatchEnc_eq, dispatchEnc_eq, apply_ite (mapNext _), apply_ite (mapNext _)]
  rfl

theorem dispatchDec_withPort (len : BitVec 8) :
    dispatchDec len (s.withPort p) = mapNext (·.withPort p) (dispatchDec len s) := by
  rw [dispatchDec, dispatchDec, apply_ite (mapNext _), apply_ite (mapNext _)]
  rfl

theorem dispatchStep_withPort : dispatchStep (s.withPort p) = mapNext (·.withPort p) (dispatchStep s) := by
  rw [dispatchStep, dispatchStep, withPort_cmdl]
  cases decode s.cmdl with
  | error e => rfl
  | ok i =>
    cases i with
    | enc len => exact dispatchEnc_withPort p s len
    | dec len => exact dispatchDec_withPort p s len
    | ldb len => exact execLdb_withPort p s len
    | stb => exact execStb_withPort p s

theorem encDivStep_withPort : encDivStep (s.withPort p) = mapNext (·.withPort p) (encDivStep s) := by
  simp only [encDivStep, apply_ite (mapNext _)]
  rfl

theorem encWriteStep_withPort : encWriteStep (s.withPort p) = mapNext (·.withPort p) (encWriteStep s) := by
  simp only [encWriteStep, apply_dite (mapNext _), apply_ite (mapNext _)]
  rfl

theorem decAccStep_withPort : decAccStep (s.withPort p) = mapNext (·.withPort p) (decAccStep s) := by
  simp only [decAccStep, apply_ite (mapNext _)]
  refine ite_congr rfl (fun _ => ?_) fun _ => rfl
  rw [withPort_buf, withPort_idx]
  cases bufRead s.buf s.idx.toNat with
  | none => rfl
  | some b =>
    simp only
    cases rev b with
    | none => rfl
    | some d =>
      simp only [apply_ite (mapNext _)]
      rfl

/-- The engine neither reads nor writes OVR and the host's side (20_memory.md R69). -/
theorem engineStep_withPort : engineStep (s.withPort p) = mapNext (·.withPort p) (engineStep s) := by
  rw [engineStep, engineStep, withPort_phase]
  cases s.phase with
  | idle => rfl
  | dispatch => exact dispatchStep_withPort p s
  | encDiv => exact encDivStep_withPort p s
  | encWrite => exact encWriteStep_withPort p s
  | decAcc => exact decAccStep_withPort p s

end EngineKeepsThePort

/-- What a host operation can change while BUSY = 1, as it stands. -/
def State.port (s : State) : PortRegs where
  ovr := s.ovr
  hostOps := s.hostOps
  replies := s.replies
  freeDraws := s.freeDraws

/-- What a host operation other than reset makes of the port while BUSY = 1, or `none` where it is refused: all that it
sees of the block is BUF_BYTES and the STATUS word (20_memory.md R54, R60, R61, R63, 30_encoding.md R93). -/
def portAfter (bufBytes : Nat) (status : Word) (p : PortRegs) : HostOp → Option PortRegs
  | .write width off _ => (hostTarget bufBytes width off).map fun
    | .cmd => { p with ovr := true }
    | .buf _ => { p with ovr := true }
    | .status => p
    | .unmapped => p
  | .read width off => (hostTarget bufBytes width off).map fun
    | .status => { p with replies := status :: p.replies }
    | .buf _ => { p with
        replies := (Config.freeByte p.freeDraws).setWidth 32 :: p.replies, freeDraws := p.freeDraws + 1 }
    | .cmd => { p with replies := 0 :: p.replies }
    | .unmapped => { p with replies := 0 :: p.replies }
  | .wait => some { p with hostOps := .wait :: p.hostOps }
  | .reset => none

theorem hostStep_busy {s : State} {op : HostOp} (hop : op ≠ .reset) (hbusy : busy s = true) : hostStep op s =
    (portAfter s.bufBytes (statusWord s) s.port op).elim (.refused .hostAccessWidth) fun p => .next (s.withPort p) := by
  cases op with
  | write width off w =>
    rw [portAfter]
    cases htarget : hostTarget s.bufBytes width off with
    | none => exact hostStep_write_none htarget
    | some target =>
      cases target with
      | cmd => exact hostStep_write_busy hbusy (.inl htarget)
      | status => exact hostStep_write_status htarget
      | buf i => exact hostStep_write_busy hbusy (.inr ⟨i, htarget⟩)
      | unmapped => exact hostStep_write_unmapped htarget
  | read width off =>
    rw [portAfter]
    cases htarget : hostTarget s.bufBytes width off with
    | none => exact hostStep_read_none htarget
    | some target =>
      cases target with
      | cmd => exact hostStep_read_cmd htarget
      | status => exact hostStep_read_status htarget
      | buf i => exact hostStep_read_buf_busy htarget hbusy
      | unmapped => exact hostStep_read_unmapped htarget
  | wait => exact if_pos hbusy
  | reset => exact absurd rfl hop

/-- An engine step that leaves the block busy changes nothing that the host sees (20_memory.md R69). -/
theorem engineStep_busy_port {s t : State} (h : engineStep s = .next t) (hbusy : busy t = true) :
    t.bufBytes = s.bufBytes ∧ statusWord t = statusWord s ∧ t.port = s.port := by
  obtain ⟨-, hops, hsize, hreplies, hdraws, hovr⟩ := engineStep_frame h
  obtain ⟨hdone, herr, hrlen, hepos, hebyte, hbusy'⟩ := engineStep_busy_frame h hbusy
  refine ⟨hsize, ?_, ?_⟩
  · simp only [statusWord, hdone, herr, hrlen, hepos, hebyte, hovr, hbusy, hbusy']
  · simp only [State.port, hops, hreplies, hdraws, hovr]

/-- Settles O38: the host's step is `portAfter` of what the engine step keeps, and the engine step does not look
at it. -/
theorem busyHostAndEngineStepsCommute : Obligations.BusyHostAndEngineStepsCommute := by
  intro s s' t op hop hbusy hengine hbusy' hhost
  obtain ⟨hsize, hstatus, hport⟩ := engineStep_busy_port hengine hbusy'
  have hhost' := hostStep_busy hop hbusy'
  rw [hsize, hstatus, hport] at hhost'
  rw [hostStep_busy hop hbusy] at hhost
  cases hp : portAfter s.bufBytes (statusWord s) s.port op with
  | none => rw [hp] at hhost; cases hhost
  | some p =>
    rw [hp] at hhost hhost'
    cases hhost
    have hengine' : engineStep (s.withPort p) = .next (s'.withPort p) := by rw [engineStep_withPort, hengine]; rfl
    exact ⟨s'.withPort p, hengine', hhost'⟩

end Sys2Proof.Machine

namespace Sys2Proof.Machine

/-! ### The digit sequence and its length (O7, O8) -/

/-- A value below the radix is its own one digit (41_encoder.md R101). -/
theorem digits_of_lt {v : Nat} (h : v < 62) : digits v = [lowDigit v] := by
  have hdiv : v / 62 = 0 := Nat.div_eq_of_lt h
  simp [digits, Config.maxDigits, digitsLow_succ, hdiv]

/-- From 62 on the last digit follows those of the quotient (41_encoder.md R101). -/
theorem digits_of_le {v : Nat} (h : 62 ≤ v) (hv : v < 62 ^ 22) : digits v = digits (v / 62) ++ [lowDigit v] := by
  have hdiv : v / 62 ≠ 0 := by omega
  have hquot : v / 62 < 62 ^ 21 := by omega
  have hfuel : digitsLow 22 (v / 62) = digitsLow 21 (v / 62) := digitsLow_fuel hquot (by decide) 1
  rw [digits, digits, Config.maxDigits, hfuel, digitsLow_succ, if_neg hdiv, List.reverse_cons]

theorem lt_pow_of_lt_two_pow {v : Nat} (h : v < 2 ^ 128) : v < 62 ^ 22 := lt_trans h (by norm_num)

/-- Settles O7: the last round of the loop and the others, `digits_of_lt` and `digits_of_le`; the first digit by
`digits_head_ne_zero`. -/
theorem digitsFollowTheRecursion : Obligations.DigitsFollowTheRecursion := by
  intro v hv
  have hv' := lt_pow_of_lt_two_pow hv
  refine ⟨fun hlt => ?_, fun hle => ?_, fun hne hhead => ?_, ?_⟩
  · rw [digits_of_lt hlt, List.map_singleton, lowDigit_val, Nat.mod_eq_of_lt hlt]
  · rw [digits_of_le hle hv', show lowDigit (v % 62) = lowDigit v from Fin.ext (Nat.mod_mod v 62)]
  · rw [List.head?_eq_getElem?, List.getElem?_eq_getElem (digits_length_pos v), Option.some_inj] at hhead
    exact digits_head_ne_zero hv' (Nat.pos_of_ne_zero hne) hhead
  · rintro rfl
    rfl

/-- From two digits on the digit count is k exactly between two powers of 62 (41_encoder.md R108). -/
theorem digits_length_eq_iff {v k : Nat} (hv : v < 62 ^ 22) (hk : 2 ≤ k) :
    (digits v).length = k ↔ 62 ^ (k - 1) ≤ v ∧ v < 62 ^ k := by
  rw [← digits_length_le_iff hv (by omega : 0 < k), ← Nat.not_lt, ← digits_length_le_iff hv (by omega : 0 < k - 1)]
  omega

/-- Settles O8: every bound is `digits_length_le_iff`, from 62^21 on with the 22 digits that any value fits. -/
theorem digitCountIsTheLeastFittingPower : Obligations.DigitCountIsTheLeastFittingPower := by
  intro v hv
  have hv' := lt_pow_of_lt_two_pow hv
  have hpos := digits_length_pos v
  refine ⟨hpos, digits_length_le v, (digits_length_le_iff hv' hpos).1 le_rfl,
    fun k hk => (digits_length_le_iff hv' hk).2, ?_, fun k hk => digits_length_eq_iff hv' hk⟩
  rw [digits_length_eq_iff hv' (by decide), and_iff_left hv']
  norm_num

end Sys2Proof.Machine

namespace Sys2Proof.Machine

/-! ### ENC as one operation (O9 to O12) -/

/-- Enough capacity: no error (41_encoder.md R103). -/
theorem exec_enc_succeeds {s : State} {len : BitVec 8} (hw : s.valWritten = true) (hlen : len.toNat ≤ s.bufBytes)
    (hk : (digits s.val.toNat).length ≤ len.toNat) : ∃ t, exec (.enc len) s = .next t ∧ t.err = 0 :=
  ⟨_, exec_enc_fits hw hlen hk, rfl⟩

/-- ENC of a written VAL completes, whatever LEN is (41_encoder.md R100). -/
theorem exists_exec_enc {s : State} (len : BitVec 8) (hw : s.valWritten = true) : ∃ t, exec (.enc len) s = .next t := by
  rcases Nat.lt_or_ge s.bufBytes len.toNat with hlen | hlen
  · exact ⟨_, exec_enc_illegal hlen⟩
  · rcases Nat.lt_or_ge len.toNat (digits s.val.toNat).length with hk | hk
    · exact ⟨_, exec_enc_capacity hw hlen hk⟩
    · exact ⟨_, exec_enc_fits hw hlen hk⟩

/-- ENC does not write VAL (41_encoder.md R104). -/
theorem exec_enc_val {s t : State} {len : BitVec 8} (h : exec (.enc len) s = .next t) :
    t.val = s.val ∧ t.valWritten = s.valWritten := by
  obtain ⟨-, rfl⟩ | ⟨-, -, -, rfl⟩ | ⟨-, -, -, rfl⟩ := exec_enc_cases h <;> exact ⟨rfl, rfl⟩

theorem bufRead_writeText_zero_inside {ds : List Digit} {m : Memory} {k : Nat} (h : k < ds.length) :
    bufRead (writeText 0 ds m) k = some (alpha ds[k]) := by
  rw [bufRead_writeText, dif_pos (by omega)]
  rfl

/-- Settles O9: the completion is `exec_enc_fits`, and BUF holds the text written at 0, and its old
bytes after it. -/
theorem encWritesTheDigitsOfVal : Obligations.EncWritesTheDigitsOfVal := by
  intro s len hw hlen hk
  exact ⟨_, exec_enc_fits hw hlen hk, rfl, digits_length_byte, fun _ => bufRead_writeText_zero_inside,
    fun _ => bufRead_writeText_zero_outside⟩

/-- Settles O10: which side of the check LEN is on, by the digit count of VAL. -/
theorem encChecksCapacityBeforeWriting : Obligations.EncChecksCapacityBeforeWriting := by
  intro s len hw hlen
  refine ⟨fun hk => ⟨_, exec_enc_capacity hw hlen hk, rfl⟩, fun hzero => ?_, fun hlen21 hval => ?_, fun hlen22 => ?_⟩
  · have hpos := digits_length_pos s.val.toNat
    exact ⟨_, exec_enc_capacity hw hlen (by omega), rfl⟩
  · have hcount := (digits_length_le_iff (value_lt s.val) (by decide)).2 hval
    exact exec_enc_succeeds hw hlen (by omega)
  · have hcount := digits_length_le s.val.toNat
    exact exec_enc_succeeds hw hlen (by omega)

/-- The STATUS word of a completed command, by what it completed with (10_state.md R25, 30_encoding.md R90). -/
theorem statusWord_finish (e : ErrCode) (rlen epos ebyte : BitVec 8) (s : State) :
    (statusWord (finish e rlen epos ebyte s)).toNat = ebyte.toNat * 2 ^ 24 + epos.toNat * 2 ^ 16 + rlen.toNat * 256 +
      (errNumber e).toNat * 16 + 0x2 + (if s.ovr then 4 else 0) := by
  rw [statusWord_toNat, busy_eq_false_iff.2 (finish_phase e rlen epos ebyte s), finish_ebyte, finish_epos, finish_rlen,
    finish_err, finish_ovr, finish_done, if_pos rfl, if_neg Bool.false_ne_true]
  omega

/-- Settles O11: both completions are `finish`, so the word is `statusWord_finish`. -/
theorem encReportsInStatus : Obligations.EncReportsInStatus := by
  intro s len hw hlen
  rcases Nat.lt_or_ge len.toNat (digits s.val.toNat).length with hk | hk
  · refine ⟨_, exec_enc_capacity hw hlen hk, rfl, fun hfits => absurd hfits (by omega), fun _ => ?_⟩
    rw [raiseErr, statusWord_finish]
    rfl
  · refine ⟨_, exec_enc_fits hw hlen hk, rfl, fun _ => ?_, fun hover => absurd hover (by omega)⟩
    rw [statusWord_finish, digits_length_byte, leaveText_ovr, leaveDivmod_ovr]
    simp [errNumber]

/-- Settles O12: ENC of a written VAL completes and keeps VAL, so STB finds it. -/
theorem encLeavesValForStb : Obligations.EncLeavesValForStb := by
  refine ⟨fun s t len => exec_enc_val, fun s len hw => ?_⟩
  obtain ⟨t, ht⟩ := exists_exec_enc len hw
  obtain ⟨hval, hwritten⟩ := exec_enc_val ht
  refine ⟨t, _, ht, exec_stb_written (hwritten.trans hw), fun k hk => ?_⟩
  rw [bufRead_memWrite, if_pos (by omega), hval]

end Sys2Proof.Machine

namespace Sys2Proof.Machine

/-! ### DEC of ENC's text (O13) -/

theorem horner_concat (ds : List Digit) (d : Digit) : horner 0 (ds ++ [d]) = horner 0 ds * 62 + d.val :=
  horner_append 0 ds [d]

/-- A digit string is the canonical one of its value after leading zero digits (41_encoder.md R110). The induction takes
off the last digit, as the recursion of `digits` does: without it the string has the value v / 62. -/
theorem exists_eq_replicate_append_digits {ds : List Digit} {v : Nat} (hne : ds ≠ []) (hv : v < 62 ^ 22)
    (h : horner 0 ds = v) : ∃ z, ds = List.replicate z 0 ++ digits v := by
  induction ds using List.reverseRecOn generalizing v with
  | nil => exact absurd rfl hne
  | append_singleton es d ih =>
    rw [horner_concat] at h
    have hd := d.isLt
    have hlast : lowDigit v = d := Fin.ext (by rw [lowDigit_val]; omega)
    rcases eq_or_ne es [] with rfl | hes
    · have hsmall : v < 62 := by rw [horner_nil] at h; omega
      exact ⟨0, by rw [digits_of_lt hsmall, hlast]; rfl⟩
    · obtain ⟨z, hz⟩ := ih (v := v / 62) hes (by omega) (by omega)
      rcases Nat.lt_or_ge v 62 with hsmall | hlarge
      · have hzero : digits (v / 62) = [0] := by rw [Nat.div_eq_of_lt hsmall]; rfl
        refine ⟨z + 1, ?_⟩
        rw [hz, hzero, digits_of_lt hsmall, hlast, List.replicate_succ']
      · refine ⟨z, ?_⟩
        rw [digits_of_le hlarge hv, hlast, hz, List.append_assoc]

/-- The text of `ds` in BUF reads back as `ds` (41_encoder.md R103, 42_decoder.md R131). -/
theorem bufDigits_writeText (ds : List Digit) (m : Memory) : bufDigits (writeText 0 ds m) 0 ds.length = some ds :=
  bufDigits_eq_some_iff.2 ⟨rfl, fun k hk =>
    ⟨alpha ds[k], by rw [Nat.zero_add, bufRead_writeText_zero_inside hk], rev_alpha ds[k]⟩⟩

/-- DEC of a text whose value fits VAL (42_decoder.md R130). -/
theorem exec_dec_digits {s : State} {len : BitVec 8} {ds : List Digit} (h0 : len ≠ 0) (hlen : len.toNat ≤ s.bufBytes)
    (hds : bufDigits s.buf 0 len.toNat = some ds) (hv : horner 0 ds ≤ Config.valueMax) :
    exec (.dec len) s = .next (finish .none 0 0 0
      (writeVal (BitVec.ofNat 128 (horner 0 ds)) (leaveHorner (horner 0 ds) len.toNat s))) := by
  rw [exec_dec_runs h0 hlen, decLoop_decoded hds hv]
  rfl

/-- An ENC without an error had the capacity (41_encoder.md R102, R103). -/
theorem exec_enc_of_err_zero {s t : State} {len : BitVec 8} (h : exec (.enc len) s = .next t) (herr : t.err = 0) :
    len.toNat ≤ s.bufBytes ∧ (digits s.val.toNat).length ≤ len.toNat ∧
      t = finish .none (BitVec.ofNat 8 (digits s.val.toNat).length) 0 0
        (leaveText (digits s.val.toNat) (leaveDivmod (digits s.val.toNat).reverse s)) := by
  obtain ⟨-, rfl⟩ | ⟨-, -, -, rfl⟩ | ⟨-, hlen, hk, rfl⟩ := exec_enc_cases h
  · cases herr
  · cases herr
  · exact ⟨hlen, hk, rfl⟩

/-- Settles O13: ENC's text reads back as the digits of VAL, whose value is VAL; the shortest one by
`exists_eq_replicate_append_digits`. -/
theorem decOfEncReturnsVal : Obligations.DecOfEncReturnsVal := by
  refine ⟨fun s t len h herr => ?_, fun v ds hne hv => exists_eq_replicate_append_digits hne (value_lt v) hv⟩
  obtain ⟨hlen, hk, rfl⟩ := exec_enc_of_err_zero h herr
  have hcount := digits_length_byte (v := s.val.toNat)
  have hvalue : horner 0 (digits s.val.toNat) = s.val.toNat := horner_digits (value_lt s.val)
  have htext : bufDigits (writeText 0 (digits s.val.toNat) s.buf) 0 (BitVec.ofNat 8 (digits s.val.toNat).length).toNat =
      some (digits s.val.toNat) := by
    rw [hcount]
    exact bufDigits_writeText _ _
  have hpos := digits_length_pos s.val.toNat
  refine ⟨htext, _, exec_dec_digits (length_ne_zero.2 ?_) ?_ htext ?_, rfl, ?_, rfl⟩
  · show (BitVec.ofNat 8 (digits s.val.toNat).length).toNat ≠ 0
    omega
  · show (BitVec.ofNat 8 (digits s.val.toNat).length).toNat ≤ s.bufBytes
    omega
  · rw [hvalue]
    exact Nat.le_pred_of_lt s.val.isLt
  · rw [finish_val, writeVal_val, hvalue, BitVec.ofNat_toNat, BitVec.setWidth_eq]

end Sys2Proof.Machine

namespace Sys2Proof.Machine

/-! ### The steps of ENC_DIV and ENC_WRITE (O14, O15) -/

theorem engineStep_encDiv {s : State} (h : s.phase = .encDiv) : engineStep s = encDivStep s := by
  simp only [engineStep, h]

theorem engineStep_encWrite {s : State} (h : s.phase = .encWrite) : engineStep s = encWriteStep s := by
  simp only [engineStep, h]

theorem divided_dig_eq_set {s : State} (h : s.cnt.toNat < 22) :
    s.divided.dig = s.dig.set s.cnt.toNat (lowDigit s.q.toNat) h := by
  refine Vector.ext fun k hk => ?_
  rw [Vector.getElem_set]
  exact Vector.getElem_setIfInBounds hk

theorem divided_q_eq_zero_iff {s : State} : s.divided.q = 0 ↔ s.q.toNat / 62 = 0 := by
  rw [← divided_q_toNat, ← BitVec.toNat_inj]
  rfl

/-- Settles O14: the step is a round of the divmod loop, and at Q = 0 the capacity check. -/
theorem encDivStepDividesBy62 : Obligations.EncDivStepDividesBy62 := by
  intro s h hphase
  have hdig := divided_dig_eq_set h
  have hq := divided_q_toNat s
  have hcnt := divided_cnt h
  rw [engineStep_encDiv hphase, encDivStep_eq h]
  by_cases hzero : s.divided.q = 0
  · have hquot := divided_q_eq_zero_iff.1 hzero
    rw [if_pos hzero]
    by_cases hover : s.divided.cnt.toNat > (lenField s.cmdl).toNat
    · rw [if_pos hover]
      exact ⟨_, rfl, hdig, hq, hcnt, fun hmore => absurd hquot hmore, fun _ hfits => by omega, fun _ _ => rfl⟩
    · rw [if_neg hover]
      exact ⟨_, rfl, hdig, hq, hcnt, fun hmore => absurd hquot hmore, fun _ _ => rfl, fun _ hlow => by omega⟩
  · have hquot := divided_q_eq_zero_iff.not.1 hzero
    rw [if_neg hzero]
    exact ⟨_, rfl, hdig, hq, hcnt, fun _ => rfl, fun hdone => absurd hdone hquot, fun hdone => absurd hdone hquot⟩

/-- Settles O15: the step is `spelled` with the digit of DIG, and completes at J = CNT. -/
theorem encWriteStepWritesInReverse : Obligations.EncWriteStepWritesInReverse := by
  intro s hj hc hphase hbuf
  have hj' : (s.j + 1).toNat = s.j.toNat + 1 :=
    BitVec.toNat_add_of_lt (y := 1) (show s.j.toNat + 1 < 2 ^ 5 by omega)
  have hlast : s.j + 1 = s.cnt ↔ s.j.toNat + 1 = s.cnt.toNat := by rw [← BitVec.toNat_inj, hj']
  rw [engineStep_encWrite hphase, encWriteStep_spells hj hc hbuf]
  by_cases hend : s.j + 1 = s.cnt
  · have hcount : (BitVec.ofNat 8 s.cnt.toNat).toNat = s.cnt.toNat := by rw [BitVec.toNat_ofNat]; omega
    rw [if_pos hend]
    exact ⟨_, rfl, rfl, hj', fun hmore => absurd (hlast.1 hend) hmore, fun _ => ⟨rfl, hcount⟩⟩
  · rw [if_neg hend]
    exact ⟨_, rfl, rfl, hj', fun _ => rfl, fun hdone => absurd (hlast.2 hdone) hend⟩

end Sys2Proof.Machine

namespace Sys2Proof.Machine

/-! ### How DEC's loop ends and what it reads -/

/-- The place and the reason that `Explains` names determine how the loop ends: the converse of `decLoop_explains`. -/
theorem DecResult.Explains.decLoop_eq {m : Memory} {n i acc : Nat} {r : DecResult} (h : r.Explains m n i acc) :
    decLoop m n i acc = r := by
  cases r with
  | decoded v =>
    obtain ⟨ds, hds, rfl, hv⟩ := h
    exact decLoop_decoded hds hv
  | invalidChar k b v =>
    obtain ⟨hlt, hle, ds, hds, rfl, hv, hb, hd⟩ := h
    obtain ⟨j, rfl⟩ := Nat.exists_eq_add_of_le hle
    rw [Nat.add_sub_cancel_left] at hds
    exact decLoop_invalidChar (by omega) hds hv hb hd
  | overflow k b v =>
    obtain ⟨hlt, hle, ds, d, hds, rfl, hv, hb, hd, hover⟩ := h
    obtain ⟨j, rfl⟩ := Nat.exists_eq_add_of_le hle
    rw [Nat.add_sub_cancel_left] at hds
    exact decLoop_overflow (by omega) hds hv hb hd hover
  | unwritten k =>
    obtain ⟨hlt, hle, ds, hds, hv, hb⟩ := h
    obtain ⟨j, rfl⟩ := Nat.exists_eq_add_of_le hle
    rw [Nat.add_sub_cancel_left] at hds
    exact decLoop_unwritten (by omega) hds hv hb

/-- DEC's loop from BUF[0] is explained by what BUF holds (42_decoder.md R130). -/
theorem decLoop_explains_zero {m : Memory} {n : Nat} {r : DecResult} (h : decLoop m n 0 0 = r) : r.Explains m n 0 0 :=
  h ▸ decLoop_explains m n 0 0 (Nat.zero_le _)

/-- An invalid character ends the loop whatever follows it (42_decoder.md R134). -/
theorem decLoop_congr_invalidChar {m m' : Memory} {n i acc : Nat} {b : Byte}
    (hend : decLoop m n 0 0 = .invalidChar i b acc) (h : ∀ k, k ≤ i → bufRead m' k = bufRead m k) :
    decLoop m' n 0 0 = .invalidChar i b acc := by
  obtain ⟨hlt, hle, ds, hds, hacc, hv, hb, hd⟩ := decLoop_explains_zero hend
  have hds' := bufDigits_congr (m := m) (m' := m') (i := 0) (n := i - 0) (fun k hk => h _ (by omega))
  exact DecResult.Explains.decLoop_eq ⟨hlt, hle, ds, hds'.trans hds, hacc, hv, (h i le_rfl).trans hb, hd⟩

/-- An overflow ends the loop whatever follows it (42_decoder.md R134). -/
theorem decLoop_congr_overflow {m m' : Memory} {n i acc : Nat} {b : Byte}
    (hend : decLoop m n 0 0 = .overflow i b acc) (h : ∀ k, k ≤ i → bufRead m' k = bufRead m k) :
    decLoop m' n 0 0 = .overflow i b acc := by
  obtain ⟨hlt, hle, ds, d, hds, hacc, hv, hb, hd, hover⟩ := decLoop_explains_zero hend
  have hds' := bufDigits_congr (m := m) (m' := m') (i := 0) (n := i - 0) (fun k hk => h _ (by omega))
  exact DecResult.Explains.decLoop_eq
    ⟨hlt, hle, ds, d, hds'.trans hds, hacc, hv, (h i le_rfl).trans hb, hd, hover⟩

/-- DEC sees BUF only through its loop, and never writes it (42_decoder.md R138). -/
theorem exec_dec_withBuf {s : State} {len : BitVec 8} {m : Memory}
    (h : decLoop m len.toNat 0 0 = decLoop s.buf len.toNat 0 0) :
    exec (.dec len) { s with buf := m } = mapNext (fun t => { t with buf := m }) (exec (.dec len) s) := by
  simp only [exec, execDec, h]
  split
  · rfl
  · split
    · rfl
    · cases decLoop s.buf len.toNat 0 0 <;> rfl

/-- DEC with LEN = 0 (42_decoder.md R135). -/
theorem exec_dec_empty (s : State) : exec (.dec 0) s = .next (raiseErr .decodeEmpty 0 0 s) := by
  have hlen : ¬ (0 : BitVec 8).toNat > s.bufBytes := Nat.not_lt_zero _
  simp only [exec, execDec, if_neg hlen, if_true]

/-- DEC of a text with a byte outside the alphabet (42_decoder.md R132). -/
theorem exec_dec_invalidChar {s : State} {len : BitVec 8} {i : Nat} {ds : List Digit} {b : Byte}
    (hlen : len.toNat ≤ s.bufBytes) (hi : i < len.toNat) (hds : bufDigits s.buf 0 i = some ds)
    (hv : horner 0 ds ≤ Config.valueMax) (hb : bufRead s.buf i = some b) (hd : rev b = none) :
    exec (.dec len) s = .next (raiseErr .decodeInvalidChar (BitVec.ofNat 8 i) b (leaveHorner (horner 0 ds) i s)) := by
  have hend : decLoop s.buf len.toNat 0 0 = .invalidChar i b (horner 0 ds) :=
    DecResult.Explains.decLoop_eq ⟨by omega, Nat.zero_le i, ds, hds, rfl, hv, hb, hd⟩
  rw [exec_dec_runs (length_ne_zero.2 (by omega)) hlen, hend]
  rfl

/-- DEC of a text with a digit that takes the value over 2^128 - 1 (42_decoder.md R133). -/
theorem exec_dec_overflow {s : State} {len : BitVec 8} {i : Nat} {ds : List Digit} {b : Byte} {d : Digit}
    (hlen : len.toNat ≤ s.bufBytes) (hi : i < len.toNat) (hds : bufDigits s.buf 0 i = some ds)
    (hv : horner 0 ds ≤ Config.valueMax) (hb : bufRead s.buf i = some b) (hd : rev b = some d)
    (hover : horner 0 ds * 62 + d.val > Config.valueMax) :
    exec (.dec len) s = .next (raiseErr .decodeOverflow (BitVec.ofNat 8 i) b (leaveHorner (horner 0 ds) i s)) := by
  have hend : decLoop s.buf len.toNat 0 0 = .overflow i b (horner 0 ds) :=
    DecResult.Explains.decLoop_eq ⟨by omega, Nat.zero_le i, ds, d, hds, rfl, hv, hb, hd, hover⟩
  rw [exec_dec_runs (length_ne_zero.2 (by omega)) hlen, hend]
  rfl

/-- A DEC without an error read a text whose value fits VAL, and VAL is that value (42_decoder.md R130, R140). -/
theorem exec_dec_of_err_zero {s t : State} {len : BitVec 8} (h : exec (.dec len) s = .next t) (herr : t.err = 0) :
    len ≠ 0 ∧ ∃ ds, bufDigits s.buf 0 len.toNat = some ds ∧ horner 0 ds ≤ Config.valueMax ∧
      t = finish .none 0 0 0 (writeVal (BitVec.ofNat 128 (horner 0 ds)) (leaveHorner (horner 0 ds) len.toNat s)) := by
  obtain ⟨-, rfl⟩ | ⟨-, -, rfl⟩ | ⟨h0, -, ⟨i, b, acc, -, rfl⟩ | ⟨i, b, acc, -, rfl⟩ | ⟨acc, hend, rfl⟩⟩ :=
    exec_dec_cases h
  · cases herr
  · cases herr
  · cases herr
  · cases herr
  · obtain ⟨ds, hds, rfl, hv⟩ := decLoop_explains_zero hend
    exact ⟨h0, ds, hds, hv, rfl⟩

end Sys2Proof.Machine

namespace Sys2Proof.Machine

/-! ### The value of a digit string and its length -/

/-- A text whose first digit is not 0, or the text of the one digit 0 (42_decoder.md R142). -/
def Canonical (ds : List Digit) : Prop := ds = [0] ∨ ds.head? ≠ some 0

/-- Leading zero digits add nothing (42_decoder.md R136). -/
theorem horner_replicate_zero_append (z : Nat) (es : List Digit) :
    horner 0 (List.replicate z 0 ++ es) = horner 0 es := by
  induction z with
  | zero => rfl
  | succ z ih => exact ih

/-- A first digit other than 0 carries its whole weight. -/
theorem pow_le_horner {es : List Digit} (hne : es ≠ []) (hhead : es.head? ≠ some 0) :
    62 ^ (es.length - 1) ≤ horner 0 es := by
  cases es with
  | nil => exact absurd rfl hne
  | cons d ds =>
    have hd : 1 ≤ d.val := Nat.one_le_iff_ne_zero.2 fun hz => hhead (congrArg some (Fin.ext hz))
    calc 62 ^ ds.length ≤ d.val * 62 ^ ds.length := Nat.le_mul_of_pos_left _ hd
      _ ≤ d.val * 62 ^ ds.length + horner 0 ds := Nat.le_add_right _ _
      _ = horner 0 (d :: ds) := by rw [horner, horner_eq (0 * 62 + d.val), Nat.zero_mul, Nat.zero_add]

theorem lt_pow_of_le_valueMax {v : Nat} (h : v ≤ Config.valueMax) : v < 62 ^ 22 :=
  Nat.lt_of_le_of_lt h (by norm_num [Config.valueMax])

/-- A value in range fits the 128 bits of VAL. -/
theorem toNat_ofNat_of_le_valueMax {v : Nat} (h : v ≤ Config.valueMax) : (BitVec.ofNat 128 v).toNat = v :=
  (BitVec.toNat_ofNat v 128).trans (Nat.mod_eq_of_lt (Nat.lt_of_le_of_lt h (by decide)))

/-- Significant digits whose value fits VAL are at most 22 (42_decoder.md R137). -/
theorem length_le_of_horner_le {es : List Digit} (hhead : es.head? ≠ some 0) (hv : horner 0 es ≤ Config.valueMax) :
    es.length ≤ 22 := by
  rcases eq_or_ne es [] with rfl | hne
  · exact Nat.zero_le _
  · have hpow : 62 ^ (es.length - 1) < 62 ^ 22 := calc
      62 ^ (es.length - 1) ≤ horner 0 es := pow_le_horner hne hhead
      _ < 62 ^ 22 := lt_pow_of_le_valueMax hv
    have := (Nat.pow_lt_pow_iff_right (by decide : 1 < 62)).1 hpow
    omega

/-- Digits whose value does not fit VAL are at least 22 (42_decoder.md R137). -/
theorem le_length_of_lt_horner {es : List Digit} (hv : Config.valueMax < horner 0 es) : 22 ≤ es.length := by
  have hpow : 62 ^ 21 < 62 ^ es.length := calc
    62 ^ 21 ≤ Config.valueMax := by norm_num [Config.valueMax]
    _ < horner 0 es := hv
    _ < 62 ^ es.length := horner_lt es
  exact (Nat.pow_lt_pow_iff_right (by decide : 1 < 62)).1 hpow

/-- Where the value of a digit string passes 2^128 - 1 a first digit takes it there (42_decoder.md R133). -/
theorem exists_first_overflow {acc : Nat} {es : List Digit} (hacc : acc ≤ Config.valueMax)
    (hv : Config.valueMax < horner acc es) : ∃ p d r, es = p ++ d :: r ∧ horner acc p ≤ Config.valueMax ∧
      Config.valueMax < horner acc p * 62 + d.val := by
  induction es generalizing acc with
  | nil => exact absurd hacc (Nat.not_le.2 hv)
  | cons d es ih =>
    rcases Nat.lt_or_ge Config.valueMax (acc * 62 + d.val) with hover | hfits
    · exact ⟨[], d, es, rfl, hacc, hover⟩
    · obtain ⟨p, e, r, rfl, hp, hover⟩ := ih hfits hv
      exact ⟨d :: p, e, r, rfl, hp, hover⟩

/-- The digits before a digit of a text, and its character. -/
theorem bufDigits_append_cons {m : Memory} {n : Nat} {p r : List Digit} {d : Digit}
    (h : bufDigits m 0 n = some (p ++ d :: r)) : p.length < n ∧ bufDigits m 0 p.length = some p ∧
      ∃ b, bufRead m p.length = some b ∧ rev b = some d := by
  obtain ⟨hlength, hchars⟩ := bufDigits_eq_some_iff.1 h
  rw [List.length_append, List.length_cons] at hlength
  have hlt : p.length < (p ++ d :: r).length := by simp
  refine ⟨by omega, bufDigits_eq_some_iff.2 ⟨rfl, fun k hk => ?_⟩, ?_⟩
  · have hchar := hchars k (by omega)
    rwa [List.getElem_append_left hk] at hchar
  · simpa using hchars p.length hlt

end Sys2Proof.Machine

namespace Sys2Proof.Machine

/-! ### ENC of a decoded text (O25) -/

/-- Digits determine the bytes of BUF that hold them (10_state.md R36). -/
theorem bufRead_of_bufDigits {m : Memory} {n k : Nat} {ds : List Digit} (h : bufDigits m 0 n = some ds)
    (hk : k < ds.length) : bufRead m k = some (alpha ds[k]) := by
  obtain ⟨-, hchars⟩ := bufDigits_eq_some_iff.1 h
  obtain ⟨b, hb, hd⟩ := hchars k hk
  rw [alpha_of_rev hd, ← hb, Nat.zero_add]

/-- The digits of a value are canonical (41_encoder.md R101). -/
theorem canonical_digits {v : Nat} (hv : v < 62 ^ 22) : Canonical (digits v) := by
  rcases Nat.eq_zero_or_pos v with rfl | hpos
  · exact .inl rfl
  · refine .inr fun hhead => digits_head_ne_zero hv hpos ?_
    rwa [List.head?_eq_getElem?, List.getElem?_eq_getElem (digits_length_pos v), Option.some_inj] at hhead

/-- A text is canonical exactly when it is the digits of its value (42_decoder.md R142). -/
theorem canonical_iff_eq_digits {ds : List Digit} (hne : ds ≠ []) (hv : horner 0 ds < 62 ^ 22) :
    Canonical ds ↔ digits (horner 0 ds) = ds := by
  refine ⟨fun hcanon => ?_, fun heq => heq ▸ canonical_digits hv⟩
  obtain ⟨z, hz⟩ := exists_eq_replicate_append_digits hne hv rfl
  have hpos := digits_length_pos (horner 0 ds)
  cases z with
  | zero => exact hz.symm
  | succ z =>
    obtain hone | hhead := hcanon
    · have hlength := congrArg List.length hz
      have hlength1 := congrArg List.length hone
      rw [List.length_append, List.length_replicate] at hlength
      rw [List.length_singleton] at hlength1
      omega
    · exact absurd (congrArg List.head? hz) hhead

/-- The text of `es` written over a text of `ds` leaves it, and has its length, exactly when both are one text. -/
theorem writeText_keeps_iff {m : Memory} {n : Nat} {ds es : List Digit} (hds : bufDigits m 0 n = some ds) :
    (es.length = n ∧ ∀ k, k < n → bufRead (writeText 0 es m) k = bufRead m k) ↔ es = ds := by
  constructor
  · rintro ⟨rfl, hkeep⟩
    have hsame := bufDigits_congr (m := m) (m' := writeText 0 es m) (i := 0) (n := es.length) fun k hk => by
      rw [Nat.zero_add, hkeep k hk]
    rw [bufDigits_writeText, hds, Option.some_inj] at hsame
    exact hsame
  · rintro rfl
    obtain rfl := bufDigits_length hds
    exact ⟨rfl, fun k hk => (bufRead_writeText_zero_inside hk).trans (bufRead_of_bufDigits hds hk).symm⟩

/-- Settles O25: DEC leaves the value of the text in VAL, ENC writes its digits over the text, and they are the text
exactly when it is canonical. -/
theorem encOfDecReturnsCanonicalText : Obligations.EncOfDecReturnsCanonicalText := by
  intro s t len ds hinv h herr hds
  obtain ⟨h0, ds', hds', hv, rfl⟩ := exec_dec_of_err_zero h herr
  obtain rfl : ds = ds' := Option.some_inj.1 (hds.symm.trans hds')
  have hlength := bufDigits_length hds
  have hne : ds ≠ [] := by
    rintro rfl
    exact length_ne_zero.1 h0 hlength.symm
  have hcanon := canonical_iff_eq_digits hne (lt_pow_of_le_valueMax hv)
  have hsize : 22 ≤ s.bufBytes := Nat.le_of_succ_le hinv.size.1
  refine ⟨_, exec_enc_fits rfl hsize (digits_length_le _), rfl, ?_, fun hc => ?_⟩
  · rw [finish_val, writeVal_val, toNat_ofNat_of_le_valueMax hv]
    have hrlen : BitVec.ofNat 8 (digits (horner 0 ds)).length = len ↔ (digits (horner 0 ds)).length = len.toNat := by
      rw [← BitVec.toNat_inj, digits_length_byte]
    rw [finish_rlen, hrlen]
    exact (writeText_keeps_iff hds).trans hcanon.symm
  · rw [← hlength, ← hcanon.1 hc]
    exact digits_length_le _

end Sys2Proof.Machine

namespace Sys2Proof.Machine

/-! ### DEC as one operation (O16 to O23) -/

/-- Settles O16: the completion is `exec_dec_digits`, and its STATUS word `statusWord_finish`. -/
theorem decLoadsTheValueOfItsText : Obligations.DecLoadsTheValueOfItsText := by
  intro s len ds h0 hlen hds hv
  refine ⟨_, exec_dec_digits h0 hlen hds hv, rfl, toNat_ofNat_of_le_valueMax hv, ?_⟩
  rw [statusWord_finish, writeVal_ovr, leaveHorner_ovr]
  simp [errNumber]

/-- Settles O17: `exec_dec_invalidChar`, with an index that fits EPOS. -/
theorem decStopsAtAnInvalidChar : Obligations.DecStopsAtAnInvalidChar :=
  fun _ _ _ _ _ hlen hi hds hv hb hd => ⟨_, exec_dec_invalidChar hlen hi hds hv hb hd, rfl, index_byte hi⟩

/-- Settles O18: `exec_dec_overflow`, with an index that fits EPOS. -/
theorem decStopsAtTheOverflow : Obligations.DecStopsAtTheOverflow :=
  fun _ _ _ _ _ _ hlen hi hds hv hb hd hover =>
    ⟨_, exec_dec_overflow hlen hi hds hv hb hd hover, rfl, index_byte hi⟩

/-- Settles O19: the two ends with codes 3 and 4 are determined by the bytes up to EPOS. -/
theorem decReadsNothingAfterTheFailure : Obligations.DecReadsNothingAfterTheFailure := by
  intro s t len m h herr hsame
  have hloop : decLoop m len.toNat 0 0 = decLoop s.buf len.toNat 0 0 := by
    obtain ⟨-, rfl⟩ | ⟨-, -, rfl⟩ | ⟨-, -, ⟨i, b, acc, hend, rfl⟩ | ⟨i, b, acc, hend, rfl⟩ | ⟨acc, -, rfl⟩⟩ :=
      exec_dec_cases h
    · simp [errNumber] at herr
    · simp [errNumber] at herr
    · obtain ⟨hi, -⟩ := decLoop_explains_zero hend
      rw [raiseErr_epos, index_byte (len := len) (by omega)] at hsame
      rw [hend, decLoop_congr_invalidChar hend hsame]
    · obtain ⟨hi, -⟩ := decLoop_explains_zero hend
      rw [raiseErr_epos, index_byte (len := len) (by omega)] at hsame
      rw [hend, decLoop_congr_overflow hend hsame]
    · simp [errNumber] at herr
  rw [exec_dec_withBuf hloop, h]
  rfl

/-- Settles O20: `exec_dec_empty` is the completion. -/
theorem decRejectsEmptyInput : Obligations.DecRejectsEmptyInput := exec_dec_empty

/-- Settles O21: the text without its zeros has the same value. -/
theorem decIgnoresLeadingZeroDigits : Obligations.DecIgnoresLeadingZeroDigits := by
  intro s t t' lenS lenT z ds h0 hlen hbuf hds hdsS h herr
  obtain ⟨-, ds', hds', hv, rfl⟩ := exec_dec_of_err_zero h herr
  obtain rfl : ds = ds' := Option.some_inj.1 (hds.symm.trans hds')
  have hvalue := horner_replicate_zero_append z ds
  have hlenS : lenS.toNat ≠ 0 := by
    have := length_ne_zero.1 h0
    omega
  refine ⟨_, exec_dec_digits (length_ne_zero.2 hlenS) hbuf hdsS (hvalue.trans_le hv), rfl, ?_⟩
  rw [finish_val, writeVal_val, hvalue]
  rfl

/-- Settles O22: digits in range complete; else the first digit that overflows is the 22nd or 23rd significant one, by
the lengths of the digits before it. -/
theorem decOverflowsByValueNotLength : Obligations.DecOverflowsByValueNotLength := by
  intro s len z es h0 hlen hds hhead
  rcases Nat.lt_or_ge Config.valueMax (horner 0 es) with hover | hfits
  · obtain ⟨p, d, r, rfl, hp, hd⟩ := exists_first_overflow (Nat.zero_le _) hover
    rw [← List.append_assoc] at hds
    obtain ⟨hi, hprefix, b, hb, hrev⟩ := bufDigits_append_cons hds
    have hvalue := horner_replicate_zero_append z p
    have hlow : 22 ≤ p.length + 1 := by
      rw [← horner_concat] at hd
      simpa using le_length_of_lt_horner hd
    have hhigh : p.length ≤ 22 := by
      refine length_le_of_horner_le (fun hzero => hhead ?_) hp
      rw [List.head?_append, hzero]
      rfl
    have hepos : (BitVec.ofNat 8 (List.replicate z 0 ++ p).length).toNat = z + p.length := by
      rw [index_byte hi, List.length_append, List.length_replicate]
    have htotal : (p ++ d :: r).length = p.length + (r.length + 1) := List.length_append
    refine ⟨_, exec_dec_overflow hlen hi hprefix (hvalue.trans_le hp) hb hrev (by rwa [hvalue]),
      fun hshort => by omega, fun _ hle => absurd hle (Nat.not_le.2 hover), fun h22 _ => ⟨rfl, ?_⟩,
      fun _ => ⟨rfl, ?_⟩⟩
    · rw [raiseErr_epos, hepos]
      omega
    · rw [raiseErr_epos, hepos]
      omega
  · have hvalue := horner_replicate_zero_append z es
    have hcount := length_le_of_horner_le hhead hfits
    exact ⟨_, exec_dec_digits h0 hlen hds (hvalue.trans_le hfits), fun _ => rfl, fun _ _ => rfl,
      fun _ hgt => absurd hfits (Nat.not_le.2 hgt), fun hlong => by omega⟩

/-- DEC never writes BUF, and writes VAL, with ACC, exactly where it ends without an error (42_decoder.md R138). -/
theorem exec_dec_frame {s t : State} {len : BitVec 8} (h : exec (.dec len) s = .next t) :
    t.buf = s.buf ∧ ((t.err ≠ 0 ∧ t.val = s.val ∧ t.valWritten = s.valWritten) ∨
      (t.err = 0 ∧ t.val = t.acc ∧ t.valWritten = true)) := by
  obtain ⟨-, rfl⟩ | ⟨-, -, rfl⟩ | ⟨-, -, ⟨i, b, acc, -, rfl⟩ | ⟨i, b, acc, -, rfl⟩ | ⟨acc, -, rfl⟩⟩ :=
    exec_dec_cases h
  · exact ⟨rfl, .inl ⟨nofun, rfl, rfl⟩⟩
  · exact ⟨rfl, .inl ⟨nofun, rfl, rfl⟩⟩
  · exact ⟨rfl, .inl ⟨nofun, rfl, rfl⟩⟩
  · exact ⟨rfl, .inl ⟨nofun, rfl, rfl⟩⟩
  · exact ⟨rfl, .inr ⟨rfl, rfl, rfl⟩⟩

/-- Settles O23: the effects are `exec_dec_frame`; that no byte from LEN on is read is `decLoop_congr`. -/
theorem decKeepsBufAndFailedVal : Obligations.DecKeepsBufAndFailedVal := by
  intro s t len h
  have hreads : ∀ m : Memory, (∀ k, k < len.toNat → bufRead m k = bufRead s.buf k) →
      exec (.dec len) { s with buf := m } = .next { t with buf := m } := by
    intro m hsame
    rw [exec_dec_withBuf (decLoop_congr fun k hk => by rw [Nat.zero_add, hsame k hk]), h]
    rfl
  obtain ⟨hbuf, ⟨herr, hkept⟩ | ⟨herr, hloaded⟩⟩ := exec_dec_frame h
  · exact ⟨fun _ => hkept, fun hzero => absurd hzero herr, hbuf, hreads⟩
  · exact ⟨fun hfail => absurd herr hfail, fun _ => hloaded, hbuf, hreads⟩

end Sys2Proof.Machine

namespace Sys2Proof.Machine

/-! ### The step of DEC_ACC (O26) -/

theorem engineStep_decAcc {s : State} (h : s.phase = .decAcc) : engineStep s = decAccStep s := by
  simp only [engineStep, h]

/-- Settles O26: the three steps of the phase are `decAccStep_invalidChar` and the branches of `decAccStep_digit`. -/
theorem decAccStepAccumulates : Obligations.DecAccStepAccumulates := by
  intro s b hphase hidx hlen hb
  rw [engineStep_decAcc hphase]
  refine ⟨fun hd => decAccStep_invalidChar hidx hlen hb hd, fun d hd => ?_⟩
  rw [decAccStep_digit hidx hlen hb hd]
  refine ⟨fun hover => if_pos hover, fun hfits => ?_⟩
  have hacc := accumulated_acc hfits
  have hnext : (s.idx + 1).toNat = s.idx.toNat + 1 :=
    BitVec.toNat_add_of_lt (y := 1) (show s.idx.toNat + 1 < 2 ^ 8 by omega)
  rw [if_neg (show ¬ s.acc.toNat * 62 + d.val > Config.valueMax from Nat.not_lt.2 hfits)]
  by_cases hlast : s.idx + 1 = lenField s.cmdl
  · rw [if_pos hlast]
    exact ⟨_, rfl, hacc, hnext, fun hmore => absurd hlast hmore, fun _ => rfl⟩
  · rw [if_neg hlast]
    exact ⟨_, rfl, hacc, hnext, fun _ => rfl, fun hend => absurd hend hlast⟩

end Sys2Proof.Machine

namespace Sys2Proof.Machine

/-! ### LDB and STB (O27 to O30)

Both adapters move the 16 big-endian bytes of one value: LDB loads the value whose bytes BUF[0..15] holds, STB leaves
VAL's bytes there (20_memory.md R55). -/

/-- BUF[0..15] holds the bytes of `v`, most significant first (20_memory.md R55). -/
def HoldsValue (m : Memory) (v : Value) : Prop :=
  ∀ k, k < 16 → bufRead m k = some (v.extractLsb' (8 * (15 - k)) 8)

theorem HoldsValue.isSome {m : Memory} {v : Value} (h : HoldsValue m v) (k : Nat) (hk : k < 16) :
    (bufRead m k).isSome := by
  rw [h k hk, Option.isSome_some]

/-- BUF[0..15] holds one value only. -/
theorem HoldsValue.unique {m : Memory} {v w : Value} (hv : HoldsValue m v) (hw : HoldsValue m w) : v = w :=
  value_ext_bytes fun k hk => Option.some_inj.1 ((hv k hk).symm.trans (hw k hk))

/-- Two memories that hold the same value and agree from byte 16 on agree on every byte. -/
theorem HoldsValue.bufRead_eq {m m' : Memory} {v : Value} (hm : HoldsValue m v) (hm' : HoldsValue m' v)
    (hrest : ∀ k, 16 ≤ k → bufRead m k = bufRead m' k) (k : Nat) : bufRead m k = bufRead m' k := by
  rcases Nat.lt_or_ge k 16 with hk | hk
  · exact (hm k hk).trans (hm' k hk).symm
  · exact hrest k hk

theorem exists_holdsValue {m : Memory} (h : ∀ k, k < 16 → (bufRead m k).isSome) : ∃ v, HoldsValue m v := by
  obtain ⟨v, -, hbytes⟩ := memRead16 h
  exact ⟨_, hbytes⟩

/-- What the 16-byte read gives is the value that BUF[0..15] holds. -/
theorem holdsValue_of_memRead {m : Memory} {v : Nat} (h : memRead m 0 16 0 = .ok v) :
    HoldsValue m (BitVec.ofNat 128 v) := by
  obtain ⟨i, -, -, herror⟩ | hwritten := memRead_written_or_error (m := m)
  · rw [h] at herror; cases herror
  · obtain ⟨w, hw, hbytes⟩ := memRead16 hwritten
    rw [h] at hw
    cases hw
    exact hbytes

theorem holdsValue_memWrite (m : Memory) (v : Value) : HoldsValue (memWrite m 0 16 v) v := fun k hk => by
  rw [bufRead_memWrite, if_pos (by omega)]

/-- LDB 16 of a BUF that holds `v` (43_adapters.md R160). -/
theorem exec_ldb_holdsValue {s : State} {v : Value} (h : HoldsValue s.buf v) :
    exec (.ldb 16) s = .next (finish .none 0 0 0 (writeVal v s)) := by
  obtain ⟨w, hread, -⟩ := memRead16 h.isSome
  rw [h.unique (holdsValue_of_memRead hread), exec, execLdb, if_neg (not_not_intro rfl), hread]

/-- LDB 16 with a first unwritten byte (10_state.md R44). -/
theorem exec_ldb_unwritten {s : State} {i : Nat} (hi : i < 16) (hnone : bufRead s.buf i = none)
    (hbefore : ∀ k, k < i → (bufRead s.buf k).isSome) : exec (.ldb 16) s = .fault (.unwrittenRead i) := by
  have hread : memRead s.buf 0 16 0 = .error (0 + i) :=
    memRead_error hi (fun k hk => by rw [Nat.zero_add]; exact hbefore k hk) (by rwa [Nat.zero_add])
  rw [exec, execLdb, if_neg (not_not_intro rfl), hread, Nat.zero_add]

/-- An LDB 16 that completes loads the value that BUF[0..15] holds. -/
theorem exec_ldb_completes {s t : State} (h : exec (.ldb 16) s = .next t) :
    ∃ v, HoldsValue s.buf v ∧ t = finish .none 0 0 0 (writeVal v s) := by
  obtain ⟨hne, -⟩ | ⟨-, v, hread, rfl⟩ := exec_ldb_cases h
  · exact absurd rfl hne
  · exact ⟨_, holdsValue_of_memRead hread, rfl⟩

/-- STB of a written VAL leaves a BUF that holds it, with the other bytes kept (43_adapters.md R162). -/
theorem exec_stb_holdsValue {s : State} (hw : s.valWritten = true) : ∃ m, HoldsValue m s.val ∧
    (∀ k, 16 ≤ k → bufRead m k = bufRead s.buf k) ∧ exec .stb s = .next (finish .none 16 0 0 { s with buf := m }) :=
  ⟨memWrite s.buf 0 16 s.val, holdsValue_memWrite s.buf s.val, fun _ hk => bufRead_memWrite_zero_outside hk, by
    rw [exec, execStb_eq, hw, if_neg nofun]⟩

/-- Settles O27: written bytes hold a value, which `exec_ldb_holdsValue` loads; the fault is `exec_ldb_unwritten`. -/
theorem ldbLoadsSixteenBigEndianBytes : Obligations.LdbLoadsSixteenBigEndianBytes := by
  refine fun s => ⟨fun hwritten => ?_, fun _ => exec_ldb_unwritten⟩
  obtain ⟨v, hv⟩ := exists_holdsValue hwritten
  refine ⟨_, exec_ldb_holdsValue hv, rfl, hv, ?_⟩
  rw [statusWord_finish, writeVal_ovr]
  simp [errNumber]

/-- Settles O29: the completion and the bytes are `exec_stb_holdsValue`, and the STATUS word `statusWord_finish`. -/
theorem stbStoresSixteenBigEndianBytes : Obligations.StbStoresSixteenBigEndianBytes := by
  intro s hw
  obtain ⟨m, hm, hrest, hstb⟩ := exec_stb_holdsValue hw
  refine ⟨_, hstb, rfl, hm, hrest, ?_⟩
  rw [statusWord_finish]
  simp [errNumber]

/-- Settles O30: LDB loads the value that BUF[0..15] holds, so STB leaves the same value there; after STB, BUF[0..15]
holds VAL, which LDB loads again. -/
theorem adaptersAreInverse : Obligations.AdaptersAreInverse := by
  constructor
  · intro s t hldb
    obtain ⟨v, hv, rfl⟩ := exec_ldb_completes hldb
    obtain ⟨m, hm, hrest, hstb⟩ := exec_stb_holdsValue (s := finish .none 0 0 0 (writeVal v s)) rfl
    exact ⟨_, hstb, hm.bufRead_eq hv hrest⟩
  · intro s t hstb
    obtain ⟨hw, -⟩ := exec_stb_cases hstb
    obtain ⟨m, hm, -, hstored⟩ := exec_stb_holdsValue hw
    rw [hstb] at hstored
    cases hstored
    exact ⟨_, exec_ldb_holdsValue hm, rfl, rfl⟩

/-- Settles O28: LEN is checked before BUF is read. -/
theorem ldbRejectsOtherLengths : Obligations.LdbRejectsOtherLengths := by
  intro s len hlen
  rw [exec, execLdb, if_pos hlen]
  rfl

end Sys2Proof.Machine

namespace Sys2Proof.Machine

/-! ### Errors (O31 to O33)

Every cause of an error that a decoded command can have, with the state that the command completes in. A cause speaks of
BUF_BYTES, VAL and BUF only, and an error changes none of the three: so the cause holds again in the state it leaves. -/

/-- The causes of an error in state `s`, and the state that the command completes in (60_exceptions.md R181). -/
inductive Fails (s : State) : Instr → State → Prop
  | encIllegal {len : BitVec 8} (hlen : s.bufBytes < len.toNat) : Fails s (.enc len) (raiseErr .illegalCmd 0 0 s)
  | encCapacity {len : BitVec 8} (hw : s.valWritten = true) (hlen : len.toNat ≤ s.bufBytes)
      (hk : len.toNat < (digits s.val.toNat).length) :
      Fails s (.enc len) (raiseErr .encodeCapacity 0 0 (leaveDivmod (digits s.val.toNat).reverse s))
  | decIllegal {len : BitVec 8} (hlen : s.bufBytes < len.toNat) : Fails s (.dec len) (raiseErr .illegalCmd 0 0 s)
  | decEmpty : Fails s (.dec 0) (raiseErr .decodeEmpty 0 0 s)
  | decInvalidChar {len : BitVec 8} {i acc : Nat} {b : Byte} (h0 : len ≠ 0) (hlen : len.toNat ≤ s.bufBytes)
      (hend : decLoop s.buf len.toNat 0 0 = .invalidChar i b acc) :
      Fails s (.dec len) (raiseErr .decodeInvalidChar (BitVec.ofNat 8 i) b (leaveHorner acc i s))
  | decOverflow {len : BitVec 8} {i acc : Nat} {b : Byte} (h0 : len ≠ 0) (hlen : len.toNat ≤ s.bufBytes)
      (hend : decLoop s.buf len.toNat 0 0 = .overflow i b acc) :
      Fails s (.dec len) (raiseErr .decodeOverflow (BitVec.ofNat 8 i) b (leaveHorner acc i s))
  | ldbLength {len : BitVec 8} (hlen : len ≠ 16) : Fails s (.ldb len) (raiseErr .invalidInput 0 0 s)

/-- DEC with LEN over BUF_BYTES (30_encoding.md R87). -/
theorem exec_dec_illegal {s : State} {len : BitVec 8} (h : s.bufBytes < len.toNat) :
    exec (.dec len) s = .next (raiseErr .illegalCmd 0 0 s) :=
  if_pos h

/-- A cause of an error makes the command complete in the state that goes with it. -/
theorem Fails.exec_eq {i : Instr} {s t : State} (h : Fails s i t) : exec i s = .next t := by
  cases h with
  | encIllegal hlen => exact exec_enc_illegal hlen
  | encCapacity hw hlen hk => exact exec_enc_capacity hw hlen hk
  | decIllegal hlen => exact exec_dec_illegal hlen
  | decEmpty => exact exec_dec_empty s
  | decInvalidChar h0 hlen hend => rw [exec_dec_runs h0 hlen, hend]; rfl
  | decOverflow h0 hlen hend => rw [exec_dec_runs h0 hlen, hend]; rfl
  | ldbLength hlen => exact ldbRejectsOtherLengths s _ hlen

/-- A command that completes does so without an error and without detail, or by one of the causes. -/
theorem exec_succeeds_or_fails {i : Instr} {s t : State} (h : exec i s = .next t) :
    (t.err = 0 ∧ t.epos = 0 ∧ t.ebyte = 0) ∨ Fails s i t := by
  cases i with
  | enc len =>
    obtain ⟨hlen, rfl⟩ | ⟨hw, hlen, hk, rfl⟩ | ⟨-, -, -, rfl⟩ := exec_enc_cases h
    · exact .inr (.encIllegal hlen)
    · exact .inr (.encCapacity hw hlen hk)
    · exact .inl ⟨rfl, rfl, rfl⟩
  | dec len =>
    obtain ⟨hlen, rfl⟩ | ⟨-, rfl, rfl⟩ | ⟨h0, hlen, ⟨_, _, _, hend, rfl⟩ | ⟨_, _, _, hend, rfl⟩ | ⟨_, -, rfl⟩⟩ :=
      exec_dec_cases h
    · exact .inr (.decIllegal hlen)
    · exact .inr .decEmpty
    · exact .inr (.decInvalidChar h0 hlen hend)
    · exact .inr (.decOverflow h0 hlen hend)
    · exact .inl ⟨rfl, rfl, rfl⟩
  | ldb len =>
    obtain ⟨hlen, rfl⟩ | ⟨-, _, -, rfl⟩ := exec_ldb_cases h
    · exact .inr (.ldbLength hlen)
    · exact .inl ⟨rfl, rfl, rfl⟩
  | stb =>
    obtain ⟨-, rfl⟩ := exec_stb_cases h
    exact .inl ⟨rfl, rfl, rfl⟩

theorem exec_fails {i : Instr} {s t : State} (h : exec i s = .next t) (herr : t.err ≠ 0) : Fails s i t :=
  (exec_succeeds_or_fails h).resolve_left fun hsuccess => herr hsuccess.1

/-- Settles O31: without an error there is nothing to report; else each cause has its code and its detail. -/
theorem commandsReportTheirOwnCodes : Obligations.CommandsReportTheirOwnCodes := by
  intro i s t h
  obtain ⟨herr, hepos, hebyte⟩ | hfails := exec_succeeds_or_fails h
  · refine ⟨?_, fun _ _ => ⟨hepos, hebyte⟩, fun hne => absurd herr hne⟩
    rw [herr]
    cases i <;> exact List.mem_cons_self
  · cases hfails with
    | encIllegal => exact ⟨by simp [errNumber], fun _ _ => ⟨rfl, rfl⟩, fun _ => rfl⟩
    | encCapacity => exact ⟨by simp [errNumber], fun _ _ => ⟨rfl, rfl⟩, fun _ => rfl⟩
    | decIllegal => exact ⟨by simp [errNumber], fun _ _ => ⟨rfl, rfl⟩, fun _ => rfl⟩
    | decEmpty => exact ⟨by simp [errNumber], fun _ _ => ⟨rfl, rfl⟩, fun _ => rfl⟩
    | decInvalidChar => exact ⟨by simp [errNumber], fun h3 => absurd rfl h3, fun _ => rfl⟩
    | decOverflow => exact ⟨by simp [errNumber], fun _ h4 => absurd rfl h4, fun _ => rfl⟩
    | ldbLength => exact ⟨by simp [errNumber], fun _ _ => ⟨rfl, rfl⟩, fun _ => rfl⟩

/-- Settles O32: the state that goes with a cause differs from the first one by `raiseErr`, after `leaveDivmod` or
`leaveHorner` where a loop ran. -/
theorem errorsLeaveValAndBuf : Obligations.ErrorsLeaveValAndBuf := by
  intro i s t h herr
  cases exec_fails h herr <;> rfl

/-- A cause of an error holds again in the state it leaves, with the same code and detail (60_exceptions.md R188). -/
theorem Fails.again {i : Instr} {s t : State} (h : Fails s i t) :
    ∃ u, Fails t i u ∧ u.err = t.err ∧ u.epos = t.epos ∧ u.ebyte = t.ebyte := by
  cases h with
  | encIllegal hlen => exact ⟨_, .encIllegal hlen, rfl, rfl, rfl⟩
  | encCapacity hw hlen hk => exact ⟨_, .encCapacity hw hlen hk, rfl, rfl, rfl⟩
  | decIllegal hlen => exact ⟨_, .decIllegal hlen, rfl, rfl, rfl⟩
  | decEmpty => exact ⟨_, .decEmpty, rfl, rfl, rfl⟩
  | decInvalidChar h0 hlen hend => exact ⟨_, .decInvalidChar h0 hlen hend, rfl, rfl, rfl⟩
  | decOverflow h0 hlen hend => exact ⟨_, .decOverflow h0 hlen hend, rfl, rfl, rfl⟩
  | ldbLength hlen => exact ⟨_, .ldbLength hlen, rfl, rfl, rfl⟩

/-- Settles O33: the second run fails by the cause of the first. -/
theorem failedCommandsFailAgain : Obligations.FailedCommandsFailAgain := by
  intro i s t h herr
  obtain ⟨u, hfails, hdetail⟩ := (exec_fails h herr).again
  exact ⟨u, hfails.exec_eq, hdetail⟩

end Sys2Proof.Machine

namespace Sys2Proof.Machine

/-! ### Reset (O50, O51) -/

/-- Settles O50: reset is `resetBlock`, whatever the phase, and STATUS after it is `statusWord_resetBlock`. -/
theorem resetAbortsAndClears : Obligations.ResetAbortsAndClears :=
  fun s => ⟨resetBlock s, rfl, rfl, statusWord_resetBlock s, rfl, rfl, fun _ => rfl, rfl, rfl, rfl, rfl⟩

/-- Settles O51: reset leaves the block IDLE, and a CMD write while idle is accepted (O39). -/
theorem afterResetTheBlockAcceptsCommands : Obligations.AfterResetTheBlockAcceptsCommands :=
  fun n => ⟨rfl, statusWord_resetOf n, rfl, fun _ => rfl,
    fun w => cmdWriteWhileIdleIsAccepted (State.resetOf n) w rfl⟩

end Sys2Proof.Machine

namespace Sys2Proof.Machine

/-! ### How many engine steps a command has taken (O36, O37)

Past DISPATCH the counters of the phase tell how many engine steps the running command has taken since its acceptance.
Every step that leaves the block busy adds one, so the count at the last step is the command's step count (O36); and the
invariant bounds the counters, so a command cannot run on beyond the bound (O37). -/

/-- The engine steps that the running command has taken (70_reset_and_hazards.md R218). -/
def State.elapsed (s : State) : Nat :=
  match s.phase with
  | .idle => 0
  | .dispatch => 0
  | .encDiv => 1 + s.cnt.toNat
  | .encWrite => 1 + s.cnt.toNat + s.j.toNat
  | .decAcc => 1 + s.idx.toNat

/-- The step count n of a command that went on past DISPATCH, as the state that it completed in shows it
(70_reset_and_hazards.md R218). -/
inductive EndsAfter (n : Nat) (t : State) : Prop where
  | overCapacity (herr : t.err = 2) (hn : n = 1 + t.cnt.toNat)
  | encoded (herr : t.err = 0) (hrlen : t.rlen ≠ 0) (hn : n = 1 + 2 * t.rlen.toNat)
  | decoded (herr : t.err = 0) (hrlen : t.rlen = 0) (hn : n = 1 + (lenField t.cmdl).toNat)
  | decodeFailed (herr : t.err = 3 ∨ t.err = 4) (hn : n = 2 + t.epos.toNat)

/-- What an engine step past DISPATCH does to a command that has taken n steps: it goes on, with n + 1 steps taken, or
completes with n + 1 steps in all. -/
def GoesOnOrEnds (n : Nat) (t : State) : Prop :=
  (t.phase ≠ .idle ∧ t.elapsed = n + 1) ∨ (t.phase = .idle ∧ EndsAfter (n + 1) t)

section Elapsed
variable {s t : State}

theorem elapsed_encDiv (h : s.phase = .encDiv) : s.elapsed = 1 + s.cnt.toNat := by
  simp only [State.elapsed, h]

theorem elapsed_encWrite (h : s.phase = .encWrite) : s.elapsed = 1 + s.cnt.toNat + s.j.toNat := by
  simp only [State.elapsed, h]

theorem elapsed_decAcc (h : s.phase = .decAcc) : s.elapsed = 1 + s.idx.toNat := by
  simp only [State.elapsed, h]

/-- Only past DISPATCH has the running command taken a step. -/
theorem elapsed_pos_iff : 0 < s.elapsed ↔ s.phase ≠ .idle ∧ s.phase ≠ .dispatch := by
  unfold State.elapsed
  cases s.phase <;> simp

theorem encDivStep_elapsed (hphase : s.phase = .encDiv) (h : encDivStep s = .next t) : GoesOnOrEnds s.elapsed t := by
  rw [elapsed_encDiv hphase]
  obtain ⟨hcnt, ⟨-, rfl⟩ | ⟨-, -, rfl⟩ | ⟨-, rfl⟩⟩ := encDivStep_cases h
  · refine .inr ⟨rfl, .overCapacity rfl ?_⟩
    rw [raiseErr_cnt, divided_cnt hcnt]
    omega
  · refine .inl ⟨by simp, ?_⟩
    rw [elapsed_encWrite rfl]
    show 1 + s.divided.cnt.toNat + 0 = _
    rw [divided_cnt hcnt]
    omega
  · have hphase' : s.divided.phase = .encDiv := hphase
    refine .inl ⟨by simp [hphase'], ?_⟩
    rw [elapsed_encDiv hphase', divided_cnt hcnt]
    omega

theorem encWriteStep_elapsed (hphase : s.phase = .encWrite) (h : encWriteStep s = .next t) :
    GoesOnOrEnds s.elapsed t := by
  rw [elapsed_encWrite hphase]
  obtain ⟨hj, hcnt, -, hcases⟩ := encWriteStep_cases h
  have hj' : (s.j + 1).toNat = s.j.toNat + 1 :=
    BitVec.toNat_add_of_lt (y := 1) (show s.j.toNat + 1 < 2 ^ 5 by omega)
  obtain ⟨hlast, rfl⟩ | ⟨-, rfl⟩ := hcases
  · have hrlen : (BitVec.ofNat 8 s.cnt.toNat).toNat = s.cnt.toNat := by rw [BitVec.toNat_ofNat]; omega
    rw [hlast] at hj'
    refine .inr ⟨rfl, .encoded rfl (length_ne_zero.2 ?_) ?_⟩ <;> rw [finish_rlen, hrlen] <;> omega
  · have hphase' : ∀ d, (s.spelled d).phase = .encWrite := fun _ => hphase
    refine .inl ⟨by simp [hphase'], ?_⟩
    rw [elapsed_encWrite (hphase' _)]
    show 1 + s.cnt.toNat + (s.j + 1).toNat = _
    omega

theorem decAccStep_elapsed (hphase : s.phase = .decAcc) (h : decAccStep s = .next t) : GoesOnOrEnds s.elapsed t := by
  rw [elapsed_decAcc hphase]
  obtain ⟨hidx, -, b, -, hcases⟩ := decAccStep_cases h
  have hidx' : (s.idx + 1).toNat = s.idx.toNat + 1 :=
    BitVec.toNat_add_of_lt (y := 1) (show s.idx.toNat + 1 < 2 ^ 8 by omega)
  obtain rfl | rfl | ⟨d, -, -, ⟨hlast, rfl⟩ | ⟨-, rfl⟩⟩ := hcases
  · exact .inr ⟨rfl, .decodeFailed (.inl rfl) (by rw [raiseErr_epos]; omega)⟩
  · exact .inr ⟨rfl, .decodeFailed (.inr rfl) (by rw [raiseErr_epos]; omega)⟩
  · rw [hlast] at hidx'
    refine .inr ⟨rfl, .decoded rfl rfl ?_⟩
    show _ = 1 + (lenField s.cmdl).toNat
    omega
  · have hphase' : (s.accumulated d).phase = .decAcc := hphase
    refine .inl ⟨by simp [hphase'], ?_⟩
    rw [elapsed_decAcc hphase']
    show 1 + (s.idx + 1).toNat = _
    omega

theorem engineStep_elapsed (hpast : 0 < s.elapsed) (h : engineStep s = .next t) : GoesOnOrEnds s.elapsed t := by
  obtain ⟨hidle, hdispatch⟩ := elapsed_pos_iff.1 hpast
  unfold engineStep at h
  split at h
  · exact absurd ‹_› hidle
  · exact absurd ‹_› hdispatch
  · exact encDivStep_elapsed ‹_› h
  · exact encWriteStep_elapsed ‹_› h
  · exact decAccStep_elapsed ‹_› h

theorem dispatchStep_elapsed (h : dispatchStep s = .next t) (hbusy : t.phase ≠ .idle) : t.elapsed = 1 := by
  obtain hcommand | ⟨_, -, -, -, rfl⟩ | ⟨_, -, -, -, rfl⟩ := dispatchStep_cases h
  · exact absurd (commandStep_completes hcommand).2.1 hbusy
  · rfl
  · rfl

/-- An engine step of a command that runs on adds one to its count. -/
theorem engineStep_elapsed_of_busy (hbusy : s.phase ≠ .idle) (h : engineStep s = .next t)
    (hbusy' : t.phase ≠ .idle) : t.elapsed = s.elapsed + 1 := by
  by_cases hdispatch : s.phase = .dispatch
  · rw [engineStep_dispatch hdispatch] at h
    rw [dispatchStep_elapsed h hbusy', State.elapsed, hdispatch]
  · obtain ⟨-, hgoes⟩ | ⟨hidle, -⟩ := engineStep_elapsed (elapsed_pos_iff.2 ⟨hbusy, hdispatch⟩) h
    · exact hgoes
    · exact absurd hidle hbusy'

end Elapsed

/-! ### The step counts (O36) -/

section StepCounts
variable {s t : State}

theorem finishesAfter_one (hbusy : s.phase ≠ .idle) (h : engineStep s = .next t) (hidle : t.phase = .idle) :
    FinishesAfter 1 s :=
  ⟨fun m hm => ⟨s, by rw [Nat.lt_one_iff.1 hm]; rfl, busy_eq_true_iff.2 hbusy⟩,
    t, (engineRun_one s).trans h, busy_eq_false_iff.2 hidle⟩

theorem finishesAfter_succ {n : Nat} (hbusy : s.phase ≠ .idle) (h : engineStep s = .next t)
    (hrest : FinishesAfter n t) : FinishesAfter (n + 1) s := by
  obtain ⟨hbefore, hend⟩ := hrest
  simp only [FinishesAfter, engineRun_step h]
  refine ⟨fun m hm => ?_, hend⟩
  cases m with
  | zero => exact ⟨s, rfl, busy_eq_true_iff.2 hbusy⟩
  | succ m =>
    rw [engineRun_step h]
    exact hbefore m (by omega)

/-- A run past DISPATCH that reaches IDLE: its step count is the one that the state it ends in shows. -/
theorem exists_finishesAfter {m : Nat} (hpast : 0 < s.elapsed) (hrun : engineRun m s = .next t)
    (hidle : t.phase = .idle) : ∃ n, FinishesAfter n s ∧ EndsAfter (s.elapsed + n) t := by
  obtain ⟨hbusy, -⟩ := elapsed_pos_iff.1 hpast
  induction m generalizing s with
  | zero => cases hrun; exact absurd hidle hbusy
  | succ m ih =>
    cases hstep : engineStep s with
    | fault f => rw [engineRun_succ_fault hstep] at hrun; cases hrun
    | refused r => exact absurd hstep engineStep_ne_refused
    | next u =>
      rw [engineRun_step hstep] at hrun
      obtain ⟨hbusy', hcount⟩ | ⟨hidle', hends⟩ := engineStep_elapsed hpast hstep
      · obtain ⟨n, hfinishes, hends⟩ := ih (by omega) hrun hbusy'
        refine ⟨n + 1, finishesAfter_succ hbusy hstep hfinishes, ?_⟩
        rwa [hcount, Nat.add_right_comm] at hends
      · rw [engineRun_idle m hidle'] at hrun
        cases hrun
        exact ⟨1, finishesAfter_one hbusy hstep hidle, hends⟩

/-- A command that goes on past DISPATCH: its step count is the one that the state it completes in shows. -/
theorem exists_finishesAfter_of_goesOn (hphase : s.phase = .dispatch) (hcommand : commandStep s = .next t)
    {u : State} (hgoes : dispatchStep s = .next u) (hbusy : u.phase ≠ .idle) :
    ∃ n, FinishesAfter n s ∧ EndsAfter n t := by
  obtain ⟨m, -, hrun⟩ := exists_engineRun_eq_commandStep hphase
  have hidle : t.phase = .idle := (commandStep_completes hcommand).2.1
  have hbusy' : s.phase ≠ .idle := by simp [hphase]
  have hcount := dispatchStep_elapsed hgoes hbusy
  rw [← engineStep_dispatch hphase] at hgoes
  rw [hcommand] at hrun
  cases m with
  | zero => cases hrun; exact absurd hidle hbusy'
  | succ m =>
    rw [engineRun_step hgoes] at hrun
    obtain ⟨n, hfinishes, hends⟩ := exists_finishesAfter (by omega) hrun hidle
    exact ⟨n + 1, finishesAfter_succ hbusy' hgoes hfinishes, by rwa [hcount, Nat.add_comm] at hends⟩

/-- A command that DISPATCH itself completes takes one step. -/
theorem finishesAfter_one_of_dispatch (hphase : s.phase = .dispatch) (hcommand : commandStep s = .next t)
    (hsame : dispatchStep s = commandStep s) : FinishesAfter 1 s :=
  finishesAfter_one (by simp [hphase]) ((engineStep_dispatch hphase).trans (hsame.trans hcommand))
    (commandStep_completes hcommand).2.1

section Enc
variable {len : BitVec 8} (hphase : s.phase = .dispatch) (hcommand : commandStep s = .next t)
  (hdec : decode s.cmdl = .ok (.enc len)) (hlen : len.toNat ≤ s.bufBytes)
include hphase hcommand hdec hlen

theorem exists_finishesAfter_enc (hw : s.valWritten = true) : ∃ n, FinishesAfter n s ∧ EndsAfter n t := by
  refine exists_finishesAfter_of_goesOn (u := { s with q := s.val, cnt := 0, phase := .encDiv }) hphase hcommand ?_
    (by simp)
  rw [dispatchStep_of_decode hdec, dispatchInstr, dispatchEnc_eq, if_neg (by omega), if_neg (by simp [hw])]

theorem finishesAfter_enc_fits (hk : (digits s.val.toNat).length ≤ len.toNat) :
    FinishesAfter (1 + 2 * (digits s.val.toNat).length) s := by
  have hexec := (commandStep_of_decode hdec).symm.trans hcommand
  obtain ⟨hover, -⟩ | ⟨-, -, hover, -⟩ | ⟨hw, -, -, rfl⟩ := exec_enc_cases hexec
  · omega
  · omega
  obtain ⟨n, hfinishes, hends⟩ := exists_finishesAfter_enc hphase hcommand hdec hlen hw
  cases hends with
  | encoded _ _ hn => rwa [hn, finish_rlen, digits_length_byte] at hfinishes
  | decoded _ hrlen _ =>
    have hzero : (BitVec.ofNat 8 (digits s.val.toNat).length).toNat = 0 := congrArg BitVec.toNat hrlen
    have := digits_length_pos s.val.toNat
    rw [digits_length_byte] at hzero
    omega
  | overCapacity herr _ => cases herr
  | decodeFailed herr _ => exact nomatch herr

theorem finishesAfter_enc_capacity (hk : len.toNat < (digits s.val.toNat).length) :
    FinishesAfter (1 + (digits s.val.toNat).length) s := by
  have hexec := (commandStep_of_decode hdec).symm.trans hcommand
  obtain ⟨hover, -⟩ | ⟨hw, -, -, rfl⟩ | ⟨-, -, hfits, -⟩ := exec_enc_cases hexec
  · omega
  · obtain ⟨n, hfinishes, hends⟩ := exists_finishesAfter_enc hphase hcommand hdec hlen hw
    cases hends with
    | overCapacity _ hn => rwa [hn, raiseErr_cnt, leaveDivmod_digits_cnt] at hfinishes
    | encoded herr _ _ => cases herr
    | decoded herr _ _ => cases herr
    | decodeFailed herr _ => exact nomatch herr
  · omega

end Enc

/-- A DEC with a text to read that fails does so at an index of the text (42_decoder.md R132, R133). -/
theorem exec_dec_failure {len : BitVec 8} (h : exec (.dec len) s = .next t) (h0 : len ≠ 0)
    (hlen : len.toNat ≤ s.bufBytes) (herr : t.err ≠ 0) : (t.err = 3 ∨ t.err = 4) ∧ t.epos.toNat < len.toNat := by
  cases exec_fails h herr with
  | decIllegal hover => omega
  | decEmpty => exact absurd rfl h0
  | decInvalidChar _ _ hend =>
    obtain ⟨hi, -⟩ := decLoop_explains_zero hend
    rw [Nat.zero_add] at hi
    exact ⟨.inl rfl, (index_byte hi).trans_lt hi⟩
  | decOverflow _ _ hend =>
    obtain ⟨hi, -⟩ := decLoop_explains_zero hend
    rw [Nat.zero_add] at hi
    exact ⟨.inr rfl, (index_byte hi).trans_lt hi⟩

section Dec
variable {len : BitVec 8} (hphase : s.phase = .dispatch) (hcommand : commandStep s = .next t)
  (hdec : decode s.cmdl = .ok (.dec len)) (h0 : len ≠ 0) (hlen : len.toNat ≤ s.bufBytes)
include hphase hcommand hdec h0 hlen

theorem exists_finishesAfter_dec : ∃ n, FinishesAfter n s ∧ EndsAfter n t := by
  refine exists_finishesAfter_of_goesOn (u := { s with acc := 0, idx := 0, phase := .decAcc }) hphase hcommand ?_
    (by simp)
  rw [dispatchStep_of_decode hdec, dispatchInstr, dispatchDec, if_neg (by omega), if_neg h0]

theorem finishesAfter_dec_succeeds (herr : t.err = 0) : FinishesAfter (1 + len.toNat) s := by
  have hexec := (commandStep_of_decode hdec).symm.trans hcommand
  obtain ⟨n, hfinishes, hends⟩ := exists_finishesAfter_dec hphase hcommand hdec h0 hlen
  obtain ⟨-, _, -, -, rfl⟩ := exec_dec_of_err_zero hexec herr
  cases hends with
  | decoded _ _ hn =>
    have hfield : lenField s.cmdl = len := lenField_of_decode hdec
    rwa [hn, finish_cmdl, writeVal_cmdl, leaveHorner_cmdl, hfield] at hfinishes
  | encoded _ hrlen _ => exact absurd rfl hrlen
  | overCapacity herr _ => cases herr
  | decodeFailed herr _ => exact nomatch herr

theorem finishesAfter_dec_fails (herr : t.err ≠ 0) :
    FinishesAfter (2 + t.epos.toNat) s ∧ t.epos.toNat < len.toNat := by
  have hexec := (commandStep_of_decode hdec).symm.trans hcommand
  obtain ⟨hcode, hepos⟩ := exec_dec_failure hexec h0 hlen herr
  obtain ⟨n, hfinishes, hends⟩ := exists_finishesAfter_dec hphase hcommand hdec h0 hlen
  refine ⟨?_, hepos⟩
  cases hends with
  | decodeFailed _ hn => rwa [hn] at hfinishes
  | overCapacity herr2 _ => rw [herr2] at hcode; exact absurd hcode (by decide)
  | encoded hzero _ _ => exact absurd hzero herr
  | decoded hzero _ _ => exact absurd hzero herr

end Dec

end StepCounts

/-- Settles O36: a row that ends in DISPATCH takes one step; in the others the state that the command completes in shows
the count. -/
theorem engineStepCounts : Obligations.EngineStepCounts := by
  intro s t hphase hcommand
  have hdispatch : dispatchStep s = commandStep s → FinishesAfter 1 s :=
    finishesAfter_one_of_dispatch hphase hcommand
  have hmax := digits_length_le s.val.toNat
  refine ⟨fun e herr => ?illegal, fun len hdec => ?ldb, fun hdec => ?stb, fun len hdec hlen hk => ?encFits,
    fun len hdec hlen hk => ?encCapacity, fun hdec => ?decEmpty, fun len hdec h0 hlen herr => ?decSucceeds,
    fun len hdec h0 hlen herr => ?decFails⟩
  case illegal =>
    obtain ⟨hfirst, hwhole⟩ := illegal_completes herr
    exact hdispatch (hfirst.trans hwhole.symm)
  case ldb => exact hdispatch ((dispatchStep_of_decode hdec).trans (commandStep_of_decode hdec).symm)
  case stb => exact hdispatch ((dispatchStep_of_decode hdec).trans (commandStep_of_decode hdec).symm)
  case encFits => exact ⟨finishesAfter_enc_fits hphase hcommand hdec hlen hk, by omega⟩
  case encCapacity => exact ⟨finishesAfter_enc_capacity hphase hcommand hdec hlen hk, by omega⟩
  case decEmpty => exact hdispatch ((dispatchStep_of_decode hdec).trans (commandStep_of_decode hdec).symm)
  case decSucceeds => exact ⟨finishesAfter_dec_succeeds hphase hcommand hdec h0 hlen herr, by omega⟩
  case decFails =>
    obtain ⟨hfinishes, hepos⟩ := finishesAfter_dec_fails hphase hcommand hdec h0 hlen herr
    exact ⟨hfinishes, by omega⟩

/-! ### Termination (O37) -/

/-- After n steps of the machine its command is done, or has stopped at a read of VAL or of a BUF byte that was never
written (70_reset_and_hazards.md R219, 10_state.md R44). -/
def CommandOver (n : Nat) (s : State) : Prop :=
  (∃ t, Sys2Proof.core.run n s = .next t ∧ busy t = false) ∨
    Sys2Proof.core.run n s = .fault .unwrittenVal ∨ ∃ i, Sys2Proof.core.run n s = .fault (.unwrittenRead i)

section Termination
variable {s t : State}

theorem core_run_succ {n : Nat} (h : step s = .next t) : Sys2Proof.core.run (n + 1) s = Sys2Proof.core.run n t := by
  simp only [Host.Core.run, show Sys2Proof.core.step s = .next t from h]

theorem core_run_one_fault {f : Fault} (h : step s = .fault f) : Sys2Proof.core.run 1 s = .fault f := by
  simp only [Host.Core.run, show Sys2Proof.core.step s = .fault f from h]

theorem commandOver_succ {n : Nat} (h : step s = .next t) (hrest : CommandOver n t) : CommandOver (n + 1) s := by
  rw [CommandOver, core_run_succ h]
  exact hrest

theorem commandOver_one_idle (h : step s = .next t) (hidle : t.phase = .idle) : CommandOver 1 s :=
  .inl ⟨t, core_run_succ h, busy_eq_false_iff.2 hidle⟩

theorem commandOver_one_fault {f : Fault} (h : step s = .fault f) (hread : UnwrittenReadIn s f) : CommandOver 1 s := by
  obtain ⟨rfl, -⟩ | ⟨i, rfl, -⟩ := hread
  · exact .inr (.inl (core_run_one_fault h))
  · exact .inr (.inr ⟨i, core_run_one_fault h⟩)

/-- Left to its default turn, a busy block takes an engine step (log 7). -/
theorem step_default_busy (hturns : s.turns = []) (hbusy : s.phase ≠ .idle) : step s = engineStep s := by
  rw [step_of_turns_nil hturns, defaultTurn_busy hbusy]
  rfl

/-- The invariant's ranges for the counters bound how long a command has run: ENC at most 22 digits and as many
characters, DEC at most BUF_BYTES characters. -/
theorem elapsed_le_of_inv (hinv : s.Inv) : s.elapsed ≤ max 44 s.bufBytes := by
  cases hphase : s.phase with
  | idle => rw [State.elapsed, hphase]; exact Nat.zero_le _
  | dispatch => rw [State.elapsed, hphase]; exact Nat.zero_le _
  | encDiv =>
    obtain ⟨_, -, -, hcnt, -⟩ := hinv.encDiv hphase
    rw [elapsed_encDiv hphase]
    omega
  | encWrite =>
    obtain ⟨_, -, -, hcount, -, hj, -⟩ := hinv.encWrite hphase
    have hmax := digits_length_le s.val.toNat
    rw [elapsed_encWrite hphase]
    omega
  | decAcc =>
    obtain ⟨_, -, -, hlen, hidx, -⟩ := hinv.decAcc hphase
    rw [elapsed_decAcc hphase]
    omega

/-- With k steps left up to the bound a running command is over within k steps: every step that does not end it brings
it nearer to the bound, which no state of the invariant exceeds. -/
theorem exists_commandOver (k : Nat) (hinv : s.Inv) (hbusy : s.phase ≠ .idle) (hturns : s.turns = [])
    (hk : max 44 s.bufBytes < s.elapsed + k) : ∃ n, n ≤ k ∧ CommandOver n s := by
  induction k generalizing s with
  | zero => exact absurd (elapsed_le_of_inv hinv) (Nat.not_le.2 hk)
  | succ k ih =>
    have hstep := step_default_busy hturns hbusy
    cases hengine : engineStep s with
    | fault f =>
      exact ⟨1, by omega, commandOver_one_fault (hstep.trans hengine) (engineStep_fault hinv hengine)⟩
    | refused r => exact absurd hengine engineStep_ne_refused
    | next t =>
      by_cases hidle : t.phase = .idle
      · exact ⟨1, by omega, commandOver_one_idle (hstep.trans hengine) hidle⟩
      · obtain ⟨hturns', -, hsize, -⟩ := engineStep_frame hengine
        have hcount := engineStep_elapsed_of_busy hbusy hengine hidle
        obtain ⟨n, hn, hover⟩ := ih (inv_engineStep hinv hengine) hidle (hturns'.trans hturns)
          (by rw [hsize, hcount]; omega)
        exact ⟨n + 1, by omega, commandOver_succ (hstep.trans hengine) hover⟩

end Termination

/-- Settles O37: the bound leaves a step more than any running command of the invariant can have taken. -/
theorem everyCommandFinishes : Obligations.EveryCommandFinishes :=
  fun s hinv hbusy hturns =>
    exists_commandOver (1 + max 44 s.bufBytes) hinv (busy_eq_true_iff.1 hbusy) hturns (by omega)

end Sys2Proof.Machine
